-- ==== Sys2Proof/Word.lean ====
section
/-! DEFINITION. The widths of the data the block holds (00_scope.md R6, R10): bytes of MSG,
32-bit registers and bus words, byte offsets into the 512-byte host window, 128-bit blocks. -/

namespace Sys2Proof

/-- One byte of the message buffer (00_scope.md R10, `Bits8`). -/
abbrev Byte := BitVec 8

/-- One register or bus word (10_state.md R31, `Bits32`). -/
abbrev Word := BitVec 32

/-- A byte offset into the host window: the block decodes offset bits 8:0 (20_memory.md R70). -/
abbrev Offset := BitVec 9

/-- One block at the block-cipher port (20_memory.md R78, `Bits128`). -/
abbrev Block := BitVec 128

end Sys2Proof
end

