-- ==== Sys2Proof/Syntax.lean ====
section
/-! DEFINITION. The command set: one constructor per row of spec/opcode_table.json
(30_encoding.md R102). A command has no operand fields (R105). ILLEGAL is no row of the table and
so no constructor: the decoder rejects an ILLEGAL word by name. -/

namespace Sys2Proof

/-- The five legal commands (30_encoding.md R102, R103). -/
inductive Instr where
  | nop
  | encrypt
  | decrypt
  | str2int
  | int2str
deriving DecidableEq, Repr

end Sys2Proof
end

