-- ==== Sys2Proof/WellFormed.lean ====
section
/-! DEFINITION. What makes a command word legal, read from its two fields (30_encoding.md R101),
and well-formedness of a command, which has no operand field that could be wrong (R105). -/

namespace Sys2Proof

/-- Well-formedness of a command: no command has an operand field (30_encoding.md R105), so
there is nothing to check. One row per command, so that a new one must say what it checks. -/
def Instr.wf : Instr → Bool
  | .nop => true
  | .encrypt => true
  | .decrypt => true
  | .str2int => true
  | .int2str => true

/-- The field OP, bits 3:0 (30_encoding.md R101). -/
def opField (w : Word) : BitVec 4 := w.extractLsb' 0 4

/-- The field RSVD, bits 31:4 (30_encoding.md R101). -/
def rsvdField (w : Word) : BitVec 28 := w.extractLsb' 4 28

/-- RSVD "must be zero in every legal command" (30_encoding.md R101). -/
def rsvdZero (w : Word) : Bool := rsvdField w == 0

/-- OP is one of the assigned codes 0x0 to 0x4; 0x5 to 0xF are reserved (30_encoding.md R102). -/
def opAssigned (w : Word) : Bool := (opField w).toNat ≤ 4

/-- A command word is legal when both field checks hold (30_encoding.md R101, R102). -/
def wordLegal (w : Word) : Bool := rsvdZero w && opAssigned w

end Sys2Proof
end

