-- ==== Sys2Proof/Decode.lean ====
section
/-! DEFINITION. Decoding of a 32-bit command word (30_encoding.md R103), total, and the
encoder written from the opcode assignment of R102. -/

namespace Sys2Proof

/-- Why a word is no command. `illegal w`: the word `w` decodes to ILLEGAL (30_encoding.md R103,
R104). Raised by the decoder only; the engine then completes the command with error
IllegalCommand (40_control.md R130), so nothing stops. -/
inductive DecodeError where
  | illegal (w : Word)
deriving DecidableEq, Repr

/-- 30_encoding.md R103: five words are legal, every other word decodes to ILLEGAL. -/
def decode (w : Word) : Except DecodeError Instr :=
  if w = 0x00000000#32 then .ok .nop
  else if w = 0x00000001#32 then .ok .encrypt
  else if w = 0x00000002#32 then .ok .decrypt
  else if w = 0x00000003#32 then .ok .str2int
  else if w = 0x00000004#32 then .ok .int2str
  else .error (.illegal w)

/-- The operation code of a command (30_encoding.md R102). -/
def opcode : Instr → BitVec 4
  | .nop => 0x0#4
  | .encrypt => 0x1#4
  | .decrypt => 0x2#4
  | .str2int => 0x3#4
  | .int2str => 0x4#4

/-- The command word: RSVD zero in bits 31:4, OP in bits 3:0 (30_encoding.md R101). -/
def encode (i : Instr) : Word := 0#28 ++ opcode i

/-- The decoder on an instruction given as a number of `nbits` bits, as spec/opcode_table.json
numbers them. Every command is one 32-bit word (30_encoding.md R100), so a longer instruction is
none; bits above `nbits` are zero. -/
def decodeTableWord (nbits w : Nat) : Option Instr :=
  if nbits ≤ 32 then
    match decode (BitVec.ofNat 32 (w % 2 ^ nbits)) with
    | .ok i => some i
    | .error _ => none
  else none

end Sys2Proof
end

