-- ==== Sys2Proof/Config.lean ====
section
/-! DEFINITION. What an implementation fixes, and the values the spec leaves open.
The open parameters of 00_scope.md R6 (`bc`, `msgInit`) and the open interleaving of
40_control.md R132 are constants without a body: no proof can see what they are, so a claim
holds for every choice. State carries plain data laid over each of them (`bcTable`, `msg`,
`turns`), so that a concrete run can still be written out and evaluated. -/

namespace Sys2Proof

/-- Who moves in a step: one of the three agents of 00_scope.md R5, or the reset input of
70_reset_and_hazards.md R240. -/
inductive Turn where
  | host
  | engine
  | bc
  | reset
deriving DecidableEq, Repr, Inhabited

namespace Config

/-- The capacity of MSG in bytes (00_scope.md R6, 10_state.md R43). -/
def msgCapacity : Nat := 192

/-- FREE VALUE. The block-cipher function `bc : Bits128 -> Bits128`, fixed for a run
(00_scope.md R6, 92_eei_decisions.md D10: OPEN). -/
opaque bc : Block → Block

/-- FREE VALUE. Byte `k` of MSG after the reset numbered `n`: the draw `msgInit`, fresh at
every reset (10_state.md R43, 92_eei_decisions.md D25: OPEN). -/
opaque msgInit (n k : Nat) : Byte

/-- FREE VALUE. Whose turn it is once the turns given as data are used up, for the `n`-th such
choice (40_control.md R132: the agents interleave in any order). -/
opaque freeTurn (n : Nat) : Turn

end Config

end Sys2Proof
end

