-- ==== Sys2Proof/Machine/State.lean ====
section
/-! DEFINITION. The whole state of the block (10_state.md R30 to R50), of the agents around it as
plain data (00_scope.md R5), the reasons a step can stop, and the state right after reset
(70_reset_and_hazards.md R240). -/

namespace Sys2Proof.Machine

/-- The engine's control state `eng.fsm` (10_state.md R45). -/
inductive Fsm where
  | idle
  | check
  | issue
  | wait
deriving DecidableEq, Repr

/-- The block-cipher port (10_state.md R50): no transaction, a request the BC has not answered,
or an answer the engine has not taken. -/
inductive Port where
  | empty
  | req (x : Block)
  | rsp (z : Block)
deriving DecidableEq, Repr

/-- One entry of a host program: a bus access (20_memory.md R71) of `size` bytes at byte offset
`off`, a poll loop (30_encoding.md R106), or the host's own wait for `irq = 1`
(95_test_vectors.md program 4; no bus access). With `size = 4` these are the bus transactions
`W`, `R` and `P` of 30_encoding.md R108. -/
inductive HostOp where
  | write (off : Offset) (size : Nat) (v : Word)
  | read (off : Offset) (size : Nat)
  | poll (off : Offset) (mask val : Word)
  | waitIrq
deriving DecidableEq, Repr

/-- The message buffer: the bytes a host or a command has written since the last reset, as
(index, byte) pairs with strictly rising indices below 192. An index that is not listed holds the
open draw of 10_state.md R43. -/
abbrev Memory := List Host.Cell

/-- The state. The first block is the host-visible registers of 10_state.md R31 (BUSY, BCWAIT
and LIMITS are not stored, R33 and R40), the second the engine's internal state R45 to R49 and
the port R50, the third the model's own: the agents outside the block and the open choices. -/
structure State where
  /-- STATUS.DONE (R33). -/
  done : Bool
  /-- STATUS.ERR (R33). -/
  err : Bool
  /-- STATUS.WBUSY (R33). -/
  wbusy : Bool
  /-- STATUS.CMDOVR (R33). -/
  cmdovr : Bool
  /-- STATUS.ERRCODE (R33, 60_exceptions.md R211). -/
  errcode : BitVec 4
  /-- IRQEN.EN (R34). -/
  irqen : Bool
  /-- RADIX (R35). -/
  radix : Word
  /-- LEN (R36). -/
  len : Word
  /-- PADLEN (R37). -/
  padlen : Word
  /-- TL (R38). -/
  tl : Word
  /-- TR (R39). -/
  tr : Word
  /-- OUTLEN, bits 7:0 (R41). -/
  outlen : Byte
  /-- VAL0 to VAL5, VAL0 first (R42). -/
  vals : Vector Word 6
  /-- MSG (R43). -/
  msg : Memory
  /-- `eng.fsm` (R45). -/
  fsm : Fsm
  /-- `eng.cmd` (R46). -/
  cmd : Word
  /-- `eng.u` (R47). -/
  u : Nat
  /-- `eng.v` (R47). -/
  v : Nat
  /-- `eng.ri` (R48), visible as STATUS.ROUND. -/
  ri : BitVec 3
  /-- `eng.ha` (R49). -/
  ha : Nat
  /-- `eng.hb` (R49). -/
  hb : Nat
  /-- `eng.la` (R49). -/
  la : Nat
  /-- `eng.lb` (R49). -/
  lb : Nat
  /-- The block-cipher port (R50). -/
  port : Port
  /-- Model's own: how many resets there have been; selects the draw of MSG. -/
  draws : Nat
  /-- Model's own: the answers of the BC that are given as data. -/
  bcTable : List (Block × Block)
  /-- Model's own: the interleaving given as data, next turn first. -/
  turns : List Turn
  /-- Model's own: how many turns were taken from the free schedule. -/
  ticks : Nat
  /-- Model's own: what the host has still to do. -/
  program : List HostOp
  /-- Model's own: what the host's reads returned, oldest first. -/
  reads : List (Offset × Word)
deriving DecidableEq, Repr

/-- Why the machine stops. `hostBusError off`: the host made an access of another width than 32
bits, or at an offset that is no multiple of 4 (20_memory.md R72). Raised by a host turn only.
Safe: the spec itself stops the host there ("the faulted state is never final"). -/
inductive Fault where
  | hostBusError (off : Offset)
deriving DecidableEq, Repr

/-- Why a step has no meaning. `notModelled`: the command has no meaning in this model yet. Raised
by `exec`'s arms only, and by none of them now. Safe. -/
inductive Refusal where
  | notModelled (mnemonic : String)
deriving DecidableEq, Repr

/-- Right after reset (70_reset_and_hazards.md R240, 10_state.md R31 to R50): every register and
every internal field 0, the engine IDLE, the port EMPTY, nothing of MSG known. Around the block
nothing is given: no answer, no turn, no access. -/
def State.reset : State where
  done := false
  err := false
  wbusy := false
  cmdovr := false
  errcode := 0
  irqen := false
  radix := 0
  len := 0
  padlen := 0
  tl := 0
  tr := 0
  outlen := 0
  vals := Vector.replicate 6 0
  msg := []
  fsm := .idle
  cmd := 0
  u := 0
  v := 0
  ri := 0
  ha := 0
  hb := 0
  la := 0
  lb := 0
  port := .empty
  draws := 0
  bcTable := []
  turns := []
  ticks := 0
  program := []
  reads := []

end Sys2Proof.Machine
end

