-- ==== Sys2Proof/Machine/Flags.lean ====
section
/-! DEFINITION. The flags and status of the block: the error codes (60_exceptions.md R211), the
bits that are functions of the engine's state, the STATUS word (10_state.md R33) and the interrupt
output (60_exceptions.md R218). -/

namespace Sys2Proof.Machine

/-- The error names of 60_exceptions.md R211. The block raises `invalidRadix`,
`invalidMessageLength`, `invalidCharacter` and `illegalCommand`; the other three are assigned and
never raised. -/
inductive ErrCode where
  | invalidKeyLength
  | invalidRadix
  | invalidDomainRange
  | invalidMessageLength
  | invalidTweakLength
  | invalidCharacter
  | illegalCommand
deriving DecidableEq, Repr

/-- The number of an error in STATUS.ERRCODE (60_exceptions.md R211). -/
def ErrCode.bits : ErrCode → BitVec 4
  | .invalidKeyLength => 1
  | .invalidRadix => 2
  | .invalidDomainRange => 3
  | .invalidMessageLength => 4
  | .invalidTweakLength => 5
  | .invalidCharacter => 6
  | .illegalCommand => 7

/-- STATUS.BUSY: 1 exactly when `eng.fsm` is not IDLE; not stored (10_state.md R33). -/
def State.busy (s : State) : Bool := decide (s.fsm ≠ .idle)

/-- STATUS.BCWAIT: 1 exactly when `eng.fsm` is WAIT; not stored (10_state.md R33). -/
def State.bcwait (s : State) : Bool := decide (s.fsm = .wait)

/-- The STATUS register as a word, bit 31 first (10_state.md R33). -/
def State.statusWord (s : State) : Word :=
  0#13 ++ s.ri ++ 0#4 ++ s.errcode ++ 0#2 ++ BitVec.ofBool s.bcwait ++ BitVec.ofBool s.cmdovr
    ++ BitVec.ofBool s.wbusy ++ BitVec.ofBool s.err ++ BitVec.ofBool s.done ++ BitVec.ofBool s.busy

/-- The interrupt output, a level (60_exceptions.md R218). -/
def State.irq (s : State) : Bool := s.irqen && s.done

end Sys2Proof.Machine
end

