-- ==== Sys2Proof/Machine/Ops.lean ====
section
/-! DEFINITION. The named operations over the message buffer and the registers that every command
and every agent shares: bytes and words of MSG (20_memory.md R74), VAL (R75), accepting a command
(40_control.md R121), taking an error (R127) and ending it (10_state.md R33, 60_exceptions.md
R214), completing (R128), dropped writes and commands (R131, R122), and reset
(70_reset_and_hazards.md R240). -/

namespace Sys2Proof.Machine

/-! ### The message buffer as data -/

/-- The byte listed for index `k`, if any. -/
def Memory.lookup : Memory → Nat → Option Byte
  | [], _ => none
  | (a, b) :: m, k => if a = k then some b else Memory.lookup m k

/-- List byte `b` at index `k`, at its place in the rising order. -/
def Memory.insert (k : Nat) (b : Byte) : Memory → Memory
  | [] => [(k, b)]
  | (a, c) :: m =>
    if k < a then (k, b) :: (a, c) :: m
    else if k = a then (k, b) :: m
    else (a, c) :: Memory.insert k b m

/-- `MSG[k] <- b` (00_scope.md R15). MSG has 192 bytes (10_state.md R43); there is no cell at any
other index. -/
def Memory.write (m : Memory) (k : Nat) (b : Byte) : Memory :=
  if k < Config.msgCapacity then Memory.insert k b m else m

/-- Write the bytes of a string at consecutive indices from `base` on. -/
def Memory.writeBytes (m : Memory) (base : Nat) : List Byte → Memory
  | [] => m
  | b :: bs => Memory.writeBytes (Memory.write m base b) (base + 1) bs

/-- Every listed index is at least `lo`, below 192, and larger than the one before it. -/
def Memory.wfFrom (lo : Nat) : Memory → Bool
  | [] => true
  | (a, _) :: m => decide (lo ≤ a) && decide (a < Config.msgCapacity) && Memory.wfFrom (a + 1) m

/-- The one canonical form of a message buffer: rising indices, all below 192. (What an unlisted
index holds is an open draw, no byte the model knows, so no entry can be spared for equalling
it.) -/
def Memory.wf (m : Memory) : Bool := Memory.wfFrom 0 m

/-! ### MSG in the state -/

/-- `MSG[k]` (00_scope.md R15). A byte nothing has written since the last reset is the open draw
of that reset (10_state.md R43). -/
def State.msgByte (s : State) (k : Nat) : Byte :=
  (Memory.lookup s.msg k).getD (Config.msgInit s.draws k)

/-- The string `MSG[base .. base+n-1]` (00_scope.md R11). -/
def State.msgString (s : State) (base n : Nat) : List Byte :=
  (List.range n).map fun k => s.msgByte (base + k)

/-- `MSG[base ..] <- bytes`, one byte an index. -/
def State.storeBytes (s : State) (base : Nat) (bytes : List Byte) : State :=
  { s with msg := Memory.writeBytes s.msg base bytes }

/-- Byte lane `b` of a bus word: bits `8b+7 : 8b` (20_memory.md R74). -/
def lane (v : Word) (b : Nat) : Byte := v.extractLsb' (8 * b) 8

/-- The register MSG`w`: four little-endian byte lanes (20_memory.md R74). -/
def State.msgWord (s : State) (w : Nat) : Word :=
  s.msgByte (4 * w + 3) ++ s.msgByte (4 * w + 2) ++ s.msgByte (4 * w + 1) ++ s.msgByte (4 * w)

/-- Store a bus word in the register MSG`w` (20_memory.md R74). -/
def State.storeMsgWord (s : State) (w : Nat) (v : Word) : State :=
  s.storeBytes (4 * w) [lane v 0, lane v 1, lane v 2, lane v 3]

/-! ### VAL -/

/-- The codec integer `VAL = sum of VALj * 2^(32 j)` (10_state.md R42, 20_memory.md R75). -/
def State.valInt (s : State) : Nat :=
  s.vals.toList.foldr (fun w acc => w.toNat + 2 ^ 32 * acc) 0

/-- The six words of an integer, least significant first (41_radix_codec.md R148). -/
def wordsOf (n : Nat) : Vector Word 6 :=
  Vector.ofFn fun j : Fin 6 => BitVec.ofNat 32 (n >>> (32 * j.val))

/-! ### One register or one part of the state -/

/-- `REG.IRQEN.EN <- b` (10_state.md R34). -/
def State.setIrqen (s : State) (b : Bool) : State := { s with irqen := b }

/-- `REG.RADIX <- v` (10_state.md R35). -/
def State.setRadix (s : State) (v : Word) : State := { s with radix := v }

/-- `REG.LEN <- v` (10_state.md R36). -/
def State.setLen (s : State) (v : Word) : State := { s with len := v }

/-- `REG.PADLEN <- v` (10_state.md R37). -/
def State.setPadlen (s : State) (v : Word) : State := { s with padlen := v }

/-- `REG.TL <- v` (10_state.md R38). -/
def State.setTl (s : State) (v : Word) : State := { s with tl := v }

/-- `REG.TR <- v` (10_state.md R39). -/
def State.setTr (s : State) (v : Word) : State := { s with tr := v }

/-- `REG.VAL0 .. REG.VAL5 <- vs` (10_state.md R42). -/
def State.setVals (s : State) (vs : Vector Word 6) : State := { s with vals := vs }

/-- `REG.OUTLEN <- n` (10_state.md R41). -/
def State.setOutlen (s : State) (n : Byte) : State := { s with outlen := n }

/-- `port <- p` (10_state.md R50). -/
def State.setPort (s : State) (p : Port) : State := { s with port := p }

/-- The turns still given as data, and the count of free turns taken. -/
def State.setTurns (s : State) (ts : List Turn) (n : Nat) : State :=
  { s with turns := ts, ticks := n }

/-- What the host has still to do, and what its reads returned. -/
def State.setHost (s : State) (p : List HostOp) (rs : List (Offset × Word)) : State :=
  { s with program := p, reads := rs }

/-! ### Accepting, failing, completing -/

/-- `accept(w)` (40_control.md R121): also how a new command ends an error (60_exceptions.md
R214). -/
def State.accept (s : State) (w : Word) : State :=
  { s with cmd := w, done := false, err := false, errcode := 0, fsm := .check }

/-- TAKING AN ERROR: `fail(code)` (40_control.md R127, 60_exceptions.md R213). It saves the code
and nothing else, and the engine returns to IDLE. -/
def State.fail (s : State) (c : ErrCode) : State :=
  { s with errcode := c.bits, err := true, done := true, fsm := .idle }

/-- ENDING AN ERROR: the effect of a host write of `w` to STATUS (10_state.md R33,
60_exceptions.md R214). -/
def State.clearStatus (s : State) (w : Word) : State :=
  { s with
    done := s.done && !w.getLsbD 1
    err := s.err && !w.getLsbD 2
    errcode := if w.getLsbD 2 then 0 else s.errcode
    wbusy := s.wbusy && !w.getLsbD 3
    cmdovr := s.cmdovr && !w.getLsbD 4 }

/-- `complete()` (40_control.md R128): ERR and ERRCODE keep the 0 that acceptance gave them. -/
def State.complete (s : State) : State := { s with done := true, fsm := .idle }

/-- A host write to a busy-drop register is dropped (40_control.md R131). -/
def State.writeDropped (s : State) : State := { s with wbusy := true }

/-- A non-zero command written while busy is dropped (40_control.md R122). -/
def State.cmdOverrun (s : State) : State := { s with cmdovr := true }

/-! ### Reset and the block-cipher unit -/

/-- The reset input (70_reset_and_hazards.md R240): the whole block as after reset, MSG drawn
afresh. What stands outside the block (the BC's function, the host, the interleaving) is not
touched. -/
def State.resetBlock (s : State) : State :=
  { State.reset with
    draws := s.draws + 1
    bcTable := s.bcTable
    turns := s.turns
    ticks := s.ticks
    program := s.program
    reads := s.reads }

/-- The answer a table gives for a request, if any. -/
def bcLookup : List (Block × Block) → Block → Option Block
  | [], _ => none
  | (x, z) :: t, q => if x = q then some z else bcLookup t q

/-- The function `bc` of this run (00_scope.md R6): the answers given as data, and the free
function everywhere else. -/
def State.bc (s : State) (x : Block) : Block := (bcLookup s.bcTable x).getD (Config.bc x)

end Sys2Proof.Machine
end

