-- ==== Sys2Proof/Machine/Operands.lean ====
section
/-! DEFINITION. The operand forms of the commands: the length bounds (00_scope.md R7), the
character maps (41_radix_codec.md R140 to R142), the two codec primitives (R143, R144) with the
readings the engine uses (R147), the checks of the CHECK step (40_control.md R123 to R126), and
the byte order of a block (20_memory.md R78, R79). -/

namespace Sys2Proof.Machine

/-! ### The length bounds -/

/-- The table of 00_scope.md R7: radix, MINLEN, MAXLEN. -/
def limitsTable : List (Nat × Nat × Nat) :=
  [(2, 20, 192), (3, 13, 120), (4, 10, 96), (5, 9, 82), (6, 8, 74), (7, 8, 68), (8, 7, 64),
   (9, 7, 60), (10, 6, 56), (11, 6, 54), (12, 6, 52), (13, 6, 50)] ++
  [(14, 6, 50), (15, 6, 48), (16, 5, 48), (17, 5, 46), (18, 5, 46), (19, 5, 44), (20, 5, 44),
   (21, 5, 42), (22, 5, 42), (23, 5, 42), (24, 5, 40), (25, 5, 40)] ++
  [(26, 5, 40), (27, 5, 40), (28, 5, 38), (29, 5, 38), (30, 5, 38), (31, 5, 38), (32, 4, 38),
   (33, 4, 38), (34, 4, 36), (35, 4, 36), (36, 4, 36)]

/-- The row of radix `r` in a table. -/
def limitsIn : List (Nat × Nat × Nat) → Nat → Option (Nat × Nat)
  | [], _ => none
  | (q, lo, hi) :: t, r => if q = r then some (lo, hi) else limitsIn t r

/-- MINLEN and MAXLEN of a radix; undefined outside 2..36 (00_scope.md R7). -/
def limitsOf (r : Nat) : Option (Nat × Nat) := limitsIn limitsTable r

/-- The register LIMITS, a function of RADIX (10_state.md R40). -/
def State.limitsWord (s : State) : Word :=
  match limitsOf s.radix.toNat with
  | some (lo, hi) => BitVec.ofNat 32 ((hi <<< 8) ||| lo)
  | none => 0

/-! ### Characters and digits -/

/-- The input digit map `d` (41_radix_codec.md R140). -/
def digit (b : Byte) : Option Nat :=
  let n := b.toNat
  if 0x30 ≤ n ∧ n ≤ 0x39 then some (n - 0x30)
  else if 0x61 ≤ n ∧ n ≤ 0x7A then some (n - 0x61 + 10)
  else if 0x41 ≤ n ∧ n ≤ 0x5A then some (n - 0x41 + 10)
  else none

/-- The output character map `chr` (41_radix_codec.md R141). -/
def chr (e : Nat) : Byte :=
  if e ≤ 9 then BitVec.ofNat 8 (0x30 + e) else BitVec.ofNat 8 (0x61 + (e - 10))

/-- `valid(b, r)` (41_radix_codec.md R142). -/
def validChar (b : Byte) (r : Nat) : Bool :=
  match digit b with
  | some e => decide (e < r)
  | none => false

/-- The digit values of a string over radix `r`; none where some character is not valid
(41_radix_codec.md R142: the character check and the parse are one). -/
def digits? (r : Nat) : List Byte → Option (List Nat)
  | [] => some []
  | b :: bs =>
    match digit b with
    | none => none
    | some e => if e < r then (digits? r bs).map (e :: ·) else none

/-! ### The codec primitives -/

/-- `NUM_r` on digit values, most significant first: the loop of 41_radix_codec.md R143
(00_scope.md R12). -/
def num (r : Nat) (ds : List Nat) : Nat := ds.foldl (fun acc d => acc * r + d) 0

/-- `NUM_r(REV(X))` on digit values: the first digit is the least significant (00_scope.md R14). -/
def numRev (r : Nat) (ds : List Nat) : Nat := ds.foldr (fun d acc => d + r * acc) 0

/-- `string_to_int(s, r)` (41_radix_codec.md R143), undefined on the empty string and on an
invalid character. -/
def stringToInt (s : List Byte) (r : Nat) : Option Nat :=
  if s = [] then none else (digits? r s).map (num r)

/-- The digits the repeated division emits, least significant first, at least one
(41_radix_codec.md R144). The first argument bounds the number of divisions. -/
def emitDigits (r : Nat) : Nat → Nat → List Nat
  | 0, _ => []
  | f + 1, t => t % r :: if t / r = 0 then [] else emitDigits r f (t / r)

/-- `int_to_padded_reversed_string(N, r, L)` (41_radix_codec.md R144). A radix of 2 or more ends
the division after at most `log2 N + 1` digits. -/
def intToPaddedReversed (n r l : Nat) : List Byte :=
  let ds := emitDigits r (n.log2 + 1) n
  (ds ++ List.replicate (l - ds.length) 0).map chr

/-- `digit_j(c)` in radix `r` (00_scope.md R13). -/
def digitAt (r c j : Nat) : Nat := c / r ^ j % r

/-- `REV(STR^m_r(c))`: the `m` characters of a half, least significant digit first
(00_scope.md R14, 42_feistel_engine.md R181). -/
def revString (r m c : Nat) : List Byte := (List.range m).map fun j => chr (digitAt r c j)

/-! ### The checks of the CHECK step -/

/-- `validRadix(r)`: all 32 bits are compared (40_control.md R124). -/
def validRadix (r : Nat) : Bool := decide (2 ≤ r) && decide (r ≤ 36)

/-- `lenOkFeistel(r, n)` (40_control.md R125). -/
def lenOkFeistel (r n : Nat) : Bool :=
  match limitsOf r with
  | some (lo, hi) => decide (lo ≤ n) && decide (n ≤ hi)
  | none => false

/-- `lenOkStr2int(r, n)` (40_control.md R125). -/
def lenOkStr2int (r n : Nat) : Bool :=
  match limitsOf r with
  | some (_, hi) => decide (1 ≤ n) && decide (n ≤ hi)
  | none => false

/-- `padOk(p)` (40_control.md R125). -/
def padOk (p : Nat) : Bool := decide (p ≤ Config.msgCapacity)

/-- The checks of ENCRYPT and DECRYPT in the order of 40_control.md R123: the first failure, or the
digit values of `MSG[0..n-1]`. -/
def State.checkFeistel (s : State) : Except ErrCode (List Nat) :=
  if validRadix s.radix.toNat then
    if lenOkFeistel s.radix.toNat s.len.toNat then
      match digits? s.radix.toNat (s.msgString 0 s.len.toNat) with
      | some ds => .ok ds
      | none => .error .invalidCharacter
    else .error .invalidMessageLength
  else .error .invalidRadix

/-- The checks of STR2INT in the order of 40_control.md R123: the first failure, or the value
`string_to_int(MSG[0..n-1], r)`. -/
def State.checkStr2int (s : State) : Except ErrCode Nat :=
  if validRadix s.radix.toNat then
    if lenOkStr2int s.radix.toNat s.len.toNat then
      match stringToInt (s.msgString 0 s.len.toNat) s.radix.toNat with
      | some n => .ok n
      | none => .error .invalidCharacter
    else .error .invalidMessageLength
  else .error .invalidRadix

/-- The checks of INT2STR in the order of 40_control.md R123: the first failure, or the output
string. -/
def State.checkInt2str (s : State) : Except ErrCode (List Byte) :=
  if validRadix s.radix.toNat then
    if padOk s.padlen.toNat then
      .ok (intToPaddedReversed s.valInt s.radix.toNat s.padlen.toNat)
    else .error .invalidMessageLength
  else .error .invalidRadix

/-! ### The byte order of a block -/

/-- The bytes `Q[0..15]` of a port vector, byte 0 in the top bits (20_memory.md R78). -/
def blockBytes (q : Block) : List Byte :=
  (List.range 16).map fun j => q.extractLsb' (120 - 8 * j) 8

/-- `BE(Q)`: the port vector of a byte string (20_memory.md R78). -/
def blockOfBytes (bs : List Byte) : Block :=
  bs.foldl (fun acc b => acc <<< 8 ||| b.setWidth 128) 0

/-- `bswap128`: reverse the 16 bytes of a block (42_feistel_engine.md R175, 20_memory.md R79). -/
def bswap128 (q : Block) : Block := blockOfBytes (blockBytes q).reverse

end Sys2Proof.Machine
end

