-- ==== Sys2Proof/Machine/Codec.lean ====
section
/-! DEFINITION. The codec commands STR2INT and INT2STR (41_radix_codec.md section 3): each runs and
completes in its CHECK step. In IDLE the engine has no step (40_control.md R132); a codec command
is never in ISSUE or WAIT, and the model gives the engine no step there either. -/

namespace Sys2Proof.Machine

/-- The CHECK step of STR2INT (41_radix_codec.md R148). -/
def State.str2int (s : State) : State :=
  match s.checkStr2int with
  | .error c => s.fail c
  | .ok n => (s.setVals (wordsOf n)).complete

/-- The CHECK step of INT2STR (41_radix_codec.md R149). -/
def State.int2str (s : State) : State :=
  match s.checkInt2str with
  | .error c => s.fail c
  | .ok out => ((s.storeBytes 0 out).setOutlen (BitVec.ofNat 8 out.length)).complete

/-- STR2INT: string to integer (41_radix_codec.md R148). -/
def execStr2int (s : State) : Host.Outcome State Fault Refusal :=
  match s.fsm with
  | .check => .next s.str2int
  | .idle => .next s
  | .issue => .next s
  | .wait => .next s

/-- INT2STR: integer to padded, reversed string (41_radix_codec.md R149). -/
def execInt2str (s : State) : Host.Outcome State Fault Refusal :=
  match s.fsm with
  | .check => .next s.int2str
  | .idle => .next s
  | .issue => .next s
  | .wait => .next s

end Sys2Proof.Machine
end

