-- ==== Sys2Proof/Machine/Control.lean ====
section
/-! DEFINITION. The two commands that do no work (40_control.md section 4): NOP, and the ILLEGAL
words, which are no constructor of `Instr`. -/

namespace Sys2Proof.Machine

/-- NOP: `skip`, in every engine state (40_control.md R129). -/
def execNop (s : State) : Host.Outcome State Fault Refusal := .next s

/-- The engine's turn while the accepted word decodes to ILLEGAL: its CHECK step runs `fail(7)`
(40_control.md R130). An ILLEGAL word never leaves CHECK, so in the other engine states there is
no step to take (R132). -/
def illegalTurn (s : State) : State :=
  match s.fsm with
  | .check => s.fail .illegalCommand
  | .idle => s
  | .issue => s
  | .wait => s

end Sys2Proof.Machine
end

