-- ==== Sys2Proof/Machine/Feistel.lean ====
section
/-! DEFINITION. ENCRYPT and DECRYPT (42_feistel_engine.md): the start of the rounds, the ISSUE and
WAIT steps, the two combines and the commit. A meaning is one turn of the engine; in IDLE, and in
WAIT while the BC has not answered, the engine has no step (40_control.md R132). -/

namespace Sys2Proof.Machine

/-- Start of the rounds, with the digit values of the message and the first round index
(42_feistel_engine.md R172). -/
def State.startRounds (s : State) (ds : List Nat) (ri : BitVec 3) : State :=
  let n := s.len.toNat
  let u := (n + 1) / 2
  let v := n - u
  { s with
    u := u
    v := v
    ha := numRev s.radix.toNat (ds.take u)
    hb := numRev s.radix.toNat (ds.drop u)
    la := u
    lb := v
    ri := ri
    fsm := .issue }

/-- The CHECK step of ENCRYPT and DECRYPT (40_control.md R123). -/
def State.feistelCheck (s : State) (ri : BitVec 3) : State :=
  match s.checkFeistel with
  | .error c => s.fail c
  | .ok ds => s.startRounds ds ri

/-- Whether the round index is even. -/
def State.evenRound (s : State) : Bool := !s.ri.getLsbD 0

/-- The half length `m` a round reduces by: `u` on even rounds, `v` on odd ones
(42_feistel_engine.md R173). -/
def State.roundLen (s : State) : Nat := if s.evenRound then s.u else s.v

/-- The half-tweak `W` a round uses: TR on even rounds, TL on odd ones (42_feistel_engine.md
R173). -/
def State.roundTweak (s : State) : Word := if s.evenRound then s.tr else s.tl

/-- The modulus `r^m` of a round. -/
def State.roundModulus (s : State) : Nat := s.radix.toNat ^ s.roundLen

/-- The round block `P` as a 128-bit integer, from the numeral value `x` of the half it reads
(42_feistel_engine.md R174, 20_memory.md R77): bits 127:96 are `W XOR i`, bits 95:0 are `x`. -/
def State.roundBlock (s : State) (x : Nat) : Block :=
  (s.roundTweak ^^^ s.ri.setWidth 32) ++ BitVec.ofNat 96 x

/-- The ISSUE step (42_feistel_engine.md R175). -/
def State.issueRound (s : State) (x : Nat) : State :=
  { s with port := .req (bswap128 (s.roundBlock x)), fsm := .wait }

/-- The number `y` of a response block (42_feistel_engine.md R177, 20_memory.md R79). -/
def responseInt (z : Block) : Nat := (bswap128 z).toNat

/-- The combine of ENCRYPT (42_feistel_engine.md R178). -/
def State.encryptCombine (s : State) (y : Nat) : State :=
  { s with
    ha := s.hb
    la := s.lb
    hb := (s.ha + y) % s.roundModulus
    lb := s.roundLen }

/-- The combine of DECRYPT: the non-negative remainder of the whole difference
(42_feistel_engine.md R179, 90_conflicts.md C7). -/
def State.decryptCombine (s : State) (y : Nat) : State :=
  { s with
    hb := s.ha
    lb := s.la
    ha := (((s.hb : Int) - (y : Int)) % (s.roundModulus : Int)).toNat
    la := s.roundLen }

/-- The commit: both halves as characters over the input in place, and completion
(42_feistel_engine.md R181). -/
def State.commit (s : State) : State :=
  ((s.storeBytes 0 (revString s.radix.toNat s.u s.ha)).storeBytes s.u
    (revString s.radix.toNat s.v s.hb)).complete

/-- The next round is ready to send its block (42_feistel_engine.md R180). -/
def State.nextRound (s : State) (ri : BitVec 3) : State := { s with ri := ri, fsm := .issue }

/-- The advance after a combine (42_feistel_engine.md R180): the next round, or the commit when
`last` was the index just done. -/
def State.advance (s : State) (last next : BitVec 3) : State :=
  if s.ri = last then s.commit else s.nextRound next

/-- The WAIT step of ENCRYPT on response `z` (42_feistel_engine.md R177, R178, R180). -/
def State.encryptRound (s : State) (z : Block) : State :=
  ((s.setPort .empty).encryptCombine (responseInt z)).advance 7 (s.ri + 1)

/-- The WAIT step of DECRYPT on response `z` (42_feistel_engine.md R177, R179, R180). -/
def State.decryptRound (s : State) (z : Block) : State :=
  ((s.setPort .empty).decryptCombine (responseInt z)).advance 0 (s.ri - 1)

/-- ENCRYPT (42_feistel_engine.md R182). -/
def execEncrypt (s : State) : Host.Outcome State Fault Refusal :=
  match s.fsm with
  | .idle => .next s
  | .check => .next (s.feistelCheck 0)
  | .issue => .next (s.issueRound s.hb)
  | .wait =>
    match s.port with
    | .rsp z => .next (s.encryptRound z)
    | .req _ => .next s
    | .empty => .next s

/-- DECRYPT (42_feistel_engine.md R183). -/
def execDecrypt (s : State) : Host.Outcome State Fault Refusal :=
  match s.fsm with
  | .idle => .next s
  | .check => .next (s.feistelCheck 7)
  | .issue => .next (s.issueRound s.ha)
  | .wait =>
    match s.port with
    | .rsp z => .next (s.decryptRound z)
    | .req _ => .next s
    | .empty => .next s

end Sys2Proof.Machine
end

