-- ==== Sys2Proof/Machine/HostBus.lean ====
section
/-! DEFINITION. The host window: the register map (10_state.md R31), what a read of each register
returns and what a write does (20_memory.md R71 to R73, 10_state.md R32 to R44, 40_control.md
R120 to R122 and R131). -/

namespace Sys2Proof.Machine

/-- The registers of 10_state.md R31. -/
inductive Reg where
  | cmd
  | status
  | irqen
  | radix
  | len
  | padlen
  | tl
  | tr
  | limits
  | outlen
  | val (j : Fin 6)
  | msg (w : Fin 48)
deriving DecidableEq, Repr

/-- The offset of a register (10_state.md R31). -/
def Reg.offset : Reg → Offset
  | .cmd => 0x000
  | .status => 0x004
  | .irqen => 0x008
  | .radix => 0x00C
  | .len => 0x010
  | .padlen => 0x014
  | .tl => 0x018
  | .tr => 0x01C
  | .limits => 0x020
  | .outlen => 0x024
  | .val j => BitVec.ofNat 9 (0x040 + 4 * j.val)
  | .msg w => BitVec.ofNat 9 (0x100 + 4 * w.val)

/-- The register at an aligned offset; none at a reserved one (10_state.md R31). -/
def regAt (off : Offset) : Option Reg :=
  match off.toNat with
  | 0x000 => some .cmd
  | 0x004 => some .status
  | 0x008 => some .irqen
  | 0x00C => some .radix
  | 0x010 => some .len
  | 0x014 => some .padlen
  | 0x018 => some .tl
  | 0x01C => some .tr
  | 0x020 => some .limits
  | 0x024 => some .outlen
  | n =>
    if h : 0x040 ≤ n ∧ n < 0x058 then some (.val ⟨(n - 0x040) / 4, by omega⟩)
    else if h : 0x100 ≤ n ∧ n < 0x1C0 then some (.msg ⟨(n - 0x100) / 4, by omega⟩)
    else none

/-- Only a 32-bit access at a multiple of 4 is legal (20_memory.md R71, R72). -/
def legalAccess (off : Offset) (size : Nat) : Bool :=
  decide (off.toNat % 4 = 0) && decide (size = 4)

/-- What a read of a register returns (10_state.md R32 to R43). -/
def State.readReg (s : State) : Reg → Word
  | .cmd => 0
  | .status => s.statusWord
  | .irqen => BitVec.setWidth 32 (BitVec.ofBool s.irqen)
  | .radix => s.radix
  | .len => s.len
  | .padlen => s.padlen
  | .tl => s.tl
  | .tr => s.tr
  | .limits => s.limitsWord
  | .outlen => s.outlen.setWidth 32
  | .val j => s.vals[j]
  | .msg w => s.msgWord w.val

/-- `MemRead(off, 4)`: reserved offsets read 0 (20_memory.md R71, 10_state.md R44). -/
def State.memRead (s : State) (off : Offset) : Word :=
  match regAt off with
  | some q => s.readReg q
  | none => 0

/-- A write to a busy-drop register: stored when idle, dropped with WBUSY otherwise
(40_control.md R131). -/
def State.busyDrop (s stored : State) : State :=
  if s.fsm = .idle then stored else s.writeDropped

/-- A write of `w` to CMD (40_control.md R120): 0 is NOP; any other word is accepted when idle
(R121) and dropped when busy (R122). -/
def State.cmdWrite (s : State) (w : Word) : Host.Outcome State Fault Refusal :=
  if w = 0x00000000#32 then exec .nop s
  else if s.fsm = .idle then .next (s.accept w)
  else .next s.cmdOverrun

/-- What a write of `v` to a register does (10_state.md R32 to R43, 40_control.md R131). -/
def State.writeReg (s : State) (v : Word) : Reg → Host.Outcome State Fault Refusal
  | .cmd => s.cmdWrite v
  | .status => .next (s.clearStatus v)
  | .irqen => .next (s.setIrqen (v.getLsbD 0))
  | .radix => .next (s.busyDrop (s.setRadix v))
  | .len => .next (s.busyDrop (s.setLen v))
  | .padlen => .next (s.busyDrop (s.setPadlen v))
  | .tl => .next (s.busyDrop (s.setTl v))
  | .tr => .next (s.busyDrop (s.setTr v))
  | .limits => .next s
  | .outlen => .next s
  | .val j => .next (s.busyDrop (s.setVals (s.vals.set j v)))
  | .msg w => .next (s.busyDrop (s.storeMsgWord w.val v))

/-- `MemWrite(off, 4, v)`: a write to a reserved offset is ignored (20_memory.md R71,
10_state.md R44). -/
def State.memWrite (s : State) (off : Offset) (v : Word) : Host.Outcome State Fault Refusal :=
  match regAt off with
  | some q => s.writeReg v q
  | none => .next s

end Sys2Proof.Machine
end

