-- ==== Sys2Proof/Machine/Turns.lean ====
section
/-! DEFINITION. One turn of each agent (00_scope.md R5, 40_control.md R132). An agent that has
nothing to do leaves the state as it is. -/

namespace Sys2Proof.Machine

/-- A host turn performs the first entry of the host's program: one bus access (20_memory.md R71,
R72), one round of a poll loop (30_encoding.md R106), or one look at `irq`. -/
def hostTurn (s : State) : Host.Outcome State Fault Refusal :=
  match s.program with
  | [] => .next s
  | .write off size v :: p =>
    if legalAccess off size then (s.setHost p s.reads).memWrite off v
    else .fault (.hostBusError off)
  | .read off size :: p =>
    if legalAccess off size then
      .next (s.setHost p (s.reads ++ [(off, s.memRead off)]))
    else .fault (.hostBusError off)
  | .poll off mask val :: p =>
    if legalAccess off 4 then
      if s.memRead off &&& mask = val then .next (s.setHost p s.reads) else .next s
    else .fault (.hostBusError off)
  | .waitIrq :: p => if s.irq then .next (s.setHost p s.reads) else .next s

/-- An engine turn runs the command in `eng.cmd` (40_control.md R123, R132): the fetch of this
machine. -/
def engineTurn (s : State) : Host.Outcome State Fault Refusal :=
  match decode s.cmd with
  | .ok i => exec i s
  | .error _ => .next (illegalTurn s)

/-- A BC turn answers the outstanding request, if there is one (42_feistel_engine.md R176). -/
def bcTurn (s : State) : State :=
  match s.port with
  | .req x => s.setPort (.rsp (s.bc x))
  | .empty => s
  | .rsp _ => s

/-- The turn of one agent, or of the reset input (70_reset_and_hazards.md R240). -/
def takeTurn (t : Turn) (s : State) : Host.Outcome State Fault Refusal :=
  match t with
  | .host => hostTurn s
  | .engine => engineTurn s
  | .bc => .next (bcTurn s)
  | .reset => .next s.resetBlock

/-- Take whose turn it is off the state: the first of the turns given as data, and the free
schedule when none is left (40_control.md R132, 93_implementation_defined.md I4). -/
def nextTurn (s : State) : Turn × State :=
  match s.turns with
  | t :: ts => (t, s.setTurns ts s.ticks)
  | [] => (Config.freeTurn s.ticks, s.setTurns [] (s.ticks + 1))

/-- Place a command word so that the very next step runs it. The word 0 runs when the host writes
it to CMD (40_control.md R120), so that write becomes the next access and the next turn is the
host's; any other word is put where acceptance leaves it (R121), with no transaction at the port
(10_state.md R54), and the next turn is the engine's. -/
def State.placeWord (s : State) (w : Word) : State :=
  if w = 0x00000000#32 then
    (s.setTurns (.host :: s.turns) s.ticks).setHost (.write 0x000 4 w :: s.program) s.reads
  else ((s.accept w).setPort .empty).setTurns (.engine :: s.turns) s.ticks

end Sys2Proof.Machine
end

