-- ==== Sys2Proof/Machine/HostProgram.lean ====
section
/-! DEFINITION. Host programs (30_encoding.md section 2): one operation per line (R106), the
pseudo-operations and their expansions (R107), and a program's encoding as its list of bus
transactions (R108). The syntax is the spec's own notation (92_eei_decisions.md D30), no part of
the hardware; the encoded program is what `State.program` holds. -/

namespace Sys2Proof.Machine

/-- A place in the window: a register name, or `@off` for a raw byte offset (30_encoding.md
R106). -/
inductive Place where
  | reg (q : Reg)
  | raw (off : Offset)
deriving DecidableEq, Repr

/-- One line of a host program (30_encoding.md R106, R107; `waitIrq` is 95_test_vectors.md
program 4's own wait). -/
inductive HostLine where
  | wr (p : Place) (imm : Word)
  | rd (p : Place)
  | poll (p : Place) (mask val : Word)
  | cmd (i : Instr)
  | cmdRaw (imm : Word)
  | waitdone
  | clrst
  | ldmsg (s : List Byte)
  | ldval (n : Nat)
  | rdmsg (k : Nat)
  | waitIrq
deriving DecidableEq, Repr

/-- `off(REG)` (30_encoding.md R106). -/
def Place.off : Place → Offset
  | .reg q => q.offset
  | .raw off => off

/-- Character `k` of a string, 0x00 beyond its end (30_encoding.md R107, `c(k)`). -/
def charAt (s : List Byte) (k : Nat) : Byte := s.getD k 0

/-- Word `w` of a string: four characters in little-endian lanes (30_encoding.md R107). -/
def stringWord (s : List Byte) (w : Nat) : Word :=
  charAt s (4 * w + 3) ++ charAt s (4 * w + 2) ++ charAt s (4 * w + 1) ++ charAt s (4 * w)

/-- The offset of MSG`w` (10_state.md R31), for `w` below 48. DESIGN CHOICE (log entry 17): from 48
on there is no register MSG`w`, and the number `0x100 + 4w` is taken modulo 512, the window's
size; only `ldmsg` of more than 192 characters and `rdmsg k` with `k` above 192 come to it. -/
def msgOffset (w : Nat) : Offset := BitVec.ofNat 9 (0x100 + 4 * w)

/-- The bus transactions of one line (30_encoding.md R106 to R108). `ldmsg` of more than 192
characters and `rdmsg` of more than 192 bytes, which the spec gives no expansion, are the model's
choice (log entry 17). -/
def HostLine.encode : HostLine → List HostOp
  | .wr p imm => [.write p.off 4 imm]
  | .rd p => [.read p.off 4]
  | .poll p mask val => [.poll p.off mask val]
  | .cmd i => [.write 0x000 4 (Sys2Proof.encode i)]
  | .cmdRaw imm => [.write 0x000 4 imm]
  | .waitdone => [.poll 0x004 0x3 0x2]
  | .clrst => [.write 0x004 4 0x1E]
  | .ldmsg s => (List.range ((s.length + 3) / 4)).map fun w => .write (msgOffset w) 4 (stringWord s w)
  | .ldval n =>
    (List.range 6).map fun j =>
      .write (BitVec.ofNat 9 (0x040 + 4 * j)) 4 (BitVec.ofNat 32 (n >>> (32 * j)))
  | .rdmsg k => (List.range ((k + 3) / 4)).map fun w => .read (msgOffset w) 4
  | .waitIrq => [.waitIrq]

/-- A program's encoding: its lines' transactions, one after another (30_encoding.md R108). -/
def encodeProgram (p : List HostLine) : List HostOp := p.flatMap HostLine.encode

end Sys2Proof.Machine
end

