-- ==== Sys2Proof/Safety.lean ====
section
/-! DEFINITION. The terms claims use: what a safe run is (the host makes only legal accesses), the
invariant of the machine (10_state.md R54, 42_feistel_engine.md R186), the schedule of one whole
ENCRYPT or DECRYPT (R171), and the source's own string procedure (R170), which the engine's
integer form has to compute at every point of a command (R184). -/

namespace Sys2Proof.Machine

/-! ### Safe runs -/

/-- A program entry whose bus access, if it makes one, is legal (20_memory.md R71, R72). -/
def HostOp.legal : HostOp → Bool
  | .write off size _ => legalAccess off size
  | .read off size => legalAccess off size
  | .poll off _ _ => legalAccess off 4
  | .waitIrq => true

/-- The host makes only legal accesses: such a run has no fault. -/
def State.hostLegal (s : State) : Bool := s.program.all HostOp.legal

/-! ### The invariant -/

/-- The half length a round does not reduce by: the other one of `u` and `v`. -/
def State.otherLen (s : State) : Nat := if s.evenRound then s.v else s.u

/-- What holds while the rounds of an ENCRYPT or DECRYPT run (42_feistel_engine.md R186, R172,
R173): the command and its operands passed the checks, the halves have the lengths `u` and `v` in
the order the round index says, and each half value is below the power of the radix. -/
structure State.Running (s : State) : Prop where
  cmd : decode s.cmd = .ok .encrypt ∨ decode s.cmd = .ok .decrypt
  radix : validRadix s.radix.toNat = true
  len : lenOkFeistel s.radix.toNat s.len.toNat = true
  u : s.u = (s.len.toNat + 1) / 2
  v : s.v = s.len.toNat - s.u
  encryptLens : decode s.cmd = .ok .encrypt → s.la = s.roundLen ∧ s.lb = s.otherLen
  decryptLens : decode s.cmd = .ok .decrypt → s.lb = s.roundLen ∧ s.la = s.otherLen
  ha : s.ha < s.radix.toNat ^ s.la
  hb : s.hb < s.radix.toNat ^ s.lb

/-- The invariant: 10_state.md R54 items 3 to 6, the bounds of R41, R47 and R49, the canonical form
of MSG, and 42_feistel_engine.md R186 while the rounds run. (R54 items 1 and 2 hold by definition
of BUSY and BCWAIT; item 7 is a statement about host writes.) -/
structure State.Inv (s : State) : Prop where
  port : s.fsm = .wait ↔ s.port ≠ .empty
  busyFlags : s.fsm ≠ .idle → s.done = false ∧ s.err = false
  noError : s.err = false → s.errcode = 0
  errorCode : s.err = true → s.errcode = 2 ∨ s.errcode = 4 ∨ s.errcode = 6 ∨ s.errcode = 7
  busyCommand : s.fsm ≠ .idle → s.cmd ≠ 0
  running : s.fsm = .issue ∨ s.fsm = .wait → s.Running
  lengths : s.u ≤ 96 ∧ s.v ≤ 96 ∧ s.la ≤ 96 ∧ s.lb ≤ 96
  values : s.ha < 2 ^ 96 ∧ s.hb < 2 ^ 96
  outlen : s.outlen.toNat ≤ 192
  msg : Memory.wf s.msg = true

/-! ### What a command does from outside -/

/-- `charsOk(r, n)`: every byte `MSG[k]`, `k < n`, is a valid digit (40_control.md R126). -/
def State.charsOk (s : State) (n : Nat) : Prop :=
  ∀ k < n, validChar (s.msgByte k) s.radix.toNat = true

/-- An ENCRYPT or DECRYPT in CHECK whose operands pass every check (40_control.md R123). -/
def State.feistelReady (s : State) : Prop :=
  s.fsm = .check ∧ validRadix s.radix.toNat = true ∧
    lenOkFeistel s.radix.toNat s.len.toNat = true ∧ s.charsOk s.len.toNat

/-- The digit value of byte `k` of MSG, `d(MSG[k])` (00_scope.md R12); only ever used where the
byte is a valid digit. -/
def State.digitOf (s : State) (k : Nat) : Nat := (digit (s.msgByte k)).getD 0

/-- The turns of one ENCRYPT or DECRYPT after acceptance, with no other turn between them: CHECK,
then eight times ISSUE, BC, WAIT (42_feistel_engine.md R171). -/
def roundTurns : Nat → List Turn
  | 0 => []
  | n + 1 => .engine :: .bc :: .engine :: roundTurns n

/-- The 17 engine and 8 BC turns of a successful command (42_feistel_engine.md R171, 70 R252). -/
def commandTurns : List Turn := .engine :: roundTurns 8

/-- `k` steps of the machine, stopping at the first fault or refusal. -/
def runSteps : Nat → State → Host.Outcome State Fault Refusal
  | 0, s => .next s
  | k + 1, s =>
    match step s with
    | .next t => runSteps k t
    | .fault f => .fault f
    | .refused r => .refused r

/-- The busy-drop registers (10_state.md R31, 40_control.md R131). -/
def Reg.isBusyDrop : Reg → Bool
  | .radix => true
  | .len => true
  | .padlen => true
  | .tl => true
  | .tr => true
  | .val _ => true
  | .msg _ => true
  | .cmd => false
  | .status => false
  | .irqen => false
  | .limits => false
  | .outlen => false

/-- `lower` on a character: `A..Z` to `a..z` (41_radix_codec.md R146). -/
def lowerChar (b : Byte) : Byte :=
  if 0x41 ≤ b.toNat ∧ b.toNat ≤ 0x5A then b + 0x20 else b

/-- BC requests an ENCRYPT or DECRYPT in progress has still to issue (42_feistel_engine.md R189):
eight before the rounds, then one for every round not yet issued. -/
def State.requestsLeft (s : State) (i : Instr) : Nat :=
  let after := if i = .encrypt then 7 - s.ri.toNat else s.ri.toNat
  match s.fsm with
  | .idle => 0
  | .check => 8
  | .issue => after + 1
  | .wait => after

/-- Engine and BC steps an ENCRYPT or DECRYPT in progress has still to take (42_feistel_engine.md
R171, 70_reset_and_hazards.md R252): 25 from CHECK, three a round, fewer inside a round. -/
def State.stepsLeft (s : State) (i : Instr) : Nat :=
  match s.fsm with
  | .idle => 0
  | .check => 1 + 3 * s.requestsLeft i
  | .issue => 3 * s.requestsLeft i
  | .wait =>
    match s.port with
    | .rsp _ => 3 * s.requestsLeft i + 1
    | .req _ => 3 * s.requestsLeft i + 2
    | .empty => 3 * s.requestsLeft i + 2

end Sys2Proof.Machine

/-! ### The source's procedure on strings (42_feistel_engine.md R170) -/

namespace Sys2Proof.Source

open Sys2Proof.Machine

/-- `int(reverse(X), radix)`: the positional parse of the reversed string, most significant first
(42_feistel_engine.md R170 step 2), for a non-empty string whose characters are digits of the radix.
DESIGN CHOICE (log entry 18): the spec gives any other string no value (41_radix_codec.md R143); here
a character that is no digit is dropped, a digit at or above the radix counts as it is, and the empty
string gives 0. Every statement takes it of strings that have a value. -/
def intOfReverse (r : Nat) (x : List Byte) : Nat := num r (x.reverse.filterMap digit)

/-- `[n]^s`: the `s`-byte big-endian encoding of an integer (00_scope.md R11). -/
def bigEndian (s n : Nat) : List Byte :=
  (List.range s).map fun j => BitVec.ofNat 8 (n / 256 ^ (s - 1 - j))

/-- `BE(P)`: a byte string read as a big-endian integer (00_scope.md R11). -/
def beInt (p : List Byte) : Nat := p.foldl (fun acc b => acc * 256 + b.toNat) 0

/-- Byte `j` of a half-tweak register: `W[0]` in the top bits (20_memory.md R76). -/
def tweakByte (w : Word) (j : Nat) : Byte := w.extractLsb' (24 - 8 * j) 8

/-- Step 2: the 16-byte block `P` of round `i` (42_feistel_engine.md R170). -/
def block (w : Word) (i : Nat) (x : Nat) : List Byte :=
  [tweakByte w 0, tweakByte w 1, tweakByte w 2, tweakByte w 3 ^^^ BitVec.ofNat 8 i] ++
    bigEndian 12 x

/-- Steps 3 and 4: reverse the block, run the primitive, reverse its output, read it big-endian
(42_feistel_engine.md R170). -/
def cipherInt (bc : Block → Block) (p : List Byte) : Nat :=
  beInt (blockBytes (bc (blockOfBytes p.reverse))).reverse

/-- The block `P` of round `i` from the half `x`: TR on even rounds, TL on odd ones
(42_feistel_engine.md R170 steps 1 and 2). -/
def roundBlock (r : Nat) (tl tr : Word) (i : Nat) (x : List Byte) : List Byte :=
  block (if i % 2 = 0 then tr else tl) i (intOfReverse r x)

/-- One encryption round on the strings `A` and `B` (42_feistel_engine.md R170 steps 1 to 7). -/
def encryptRound (bc : Block → Block) (r u v : Nat) (tl tr : Word) (ab : List Byte × List Byte)
    (i : Nat) : List Byte × List Byte :=
  let m := if i % 2 = 0 then u else v
  let y := cipherInt bc (roundBlock r tl tr i ab.2)
  let c := (intOfReverse r ab.1 + y) % r ^ m
  (ab.2, intToPaddedReversed c r m)

/-- One decryption round (42_feistel_engine.md R170: the mirror with its changes, 90_conflicts.md
C7 for the remainder). -/
def decryptRound (bc : Block → Block) (r u v : Nat) (tl tr : Word) (ab : List Byte × List Byte)
    (i : Nat) : List Byte × List Byte :=
  let m := if i % 2 = 0 then u else v
  let y := cipherInt bc (roundBlock r tl tr i ab.1)
  let c := (((intOfReverse r ab.2 : Int) - (y : Int)) % ((r ^ m : Nat) : Int)).toNat
  (intToPaddedReversed c r m, ab.1)

/-- The halves of a message: `A` its first `ceil(n/2)` characters (00_scope.md R9). -/
def halves (x : List Byte) : List Byte × List Byte :=
  (x.take ((x.length + 1) / 2), x.drop ((x.length + 1) / 2))

/-- `A` and `B` after the first `k` rounds of an encryption, rounds 0 to `k - 1`
(42_feistel_engine.md R170). -/
def encryptStrings (bc : Block → Block) (r : Nat) (tl tr : Word) (x : List Byte) (k : Nat) :
    List Byte × List Byte :=
  let u := (x.length + 1) / 2
  (List.range k).foldl (encryptRound bc r u (x.length - u) tl tr) (halves x)

/-- `A` and `B` after the first `k` rounds of a decryption, rounds 7 down to `8 - k`
(42_feistel_engine.md R170). -/
def decryptStrings (bc : Block → Block) (r : Nat) (tl tr : Word) (x : List Byte) (k : Nat) :
    List Byte × List Byte :=
  let u := (x.length + 1) / 2
  (List.range k).foldl (fun ab j => decryptRound bc r u (x.length - u) tl tr ab (7 - j)) (halves x)

/-- Encryption of a string: rounds 0 to 7, then `A + B` (42_feistel_engine.md R170). -/
def encrypt (bc : Block → Block) (r : Nat) (tl tr : Word) (x : List Byte) : List Byte :=
  let ab := encryptStrings bc r tl tr x 8
  ab.1 ++ ab.2

/-- Decryption of a string: rounds 7 to 0, then `A + B` (42_feistel_engine.md R170). -/
def decrypt (bc : Block → Block) (r : Nat) (tl tr : Word) (x : List Byte) : List Byte :=
  let ab := decryptStrings bc r tl tr x 8
  ab.1 ++ ab.2

end Sys2Proof.Source

/-! ### The engine against the source's strings (42_feistel_engine.md R184) -/

namespace Sys2Proof.Machine

/-- The message of a command in progress, `MSG[0..n-1]`: it stands in MSG until the commit
(10_state.md R54 item 7, 42_feistel_engine.md R181). -/
def State.message (s : State) : List Byte := s.msgString 0 s.len.toNat

/-- The source's `A` and `B` before round `ROUND` of an encryption of the message. -/
def State.encryptStrings (s : State) : List Byte × List Byte :=
  Source.encryptStrings s.bc s.radix.toNat s.tl s.tr s.message s.ri.toNat

/-- The source's `A` and `B` before round `ROUND` of a decryption of the message. -/
def State.decryptStrings (s : State) : List Byte × List Byte :=
  Source.decryptStrings s.bc s.radix.toNat s.tl s.tr s.message (7 - s.ri.toNat)

/-- The engine's halves are the integer form of the strings `ab` (42_feistel_engine.md R184), and
what is at the port is the reversed block of the string `x`, or the BC's answer to it (R170
steps 2 and 3). -/
structure State.Agrees (s : State) (ab : List Byte × List Byte) (x : List Byte) : Prop where
  ha : Source.intOfReverse s.radix.toNat ab.1 = s.ha
  la : ab.1.length = s.la
  hb : Source.intOfReverse s.radix.toNat ab.2 = s.hb
  lb : ab.2.length = s.lb
  request : ∀ q, s.port = .req q →
    q = blockOfBytes (Source.roundBlock s.radix.toNat s.tl s.tr s.ri.toNat x).reverse
  response : ∀ z, s.port = .rsp z →
    z = s.bc (blockOfBytes (Source.roundBlock s.radix.toNat s.tl s.tr s.ri.toNat x).reverse)

/-- The invariant with the source's strings: while the rounds run, the message is the one whose
characters passed the check (40_control.md R126, 10_state.md R54 item 7), so that every string has a
value, and the engine agrees with the source's procedure on it (42_feistel_engine.md R184). -/
structure State.SourceInv (s : State) : Prop where
  inv : s.Inv
  chars : s.fsm = .issue ∨ s.fsm = .wait → s.charsOk s.len.toNat
  encrypt : s.fsm = .issue ∨ s.fsm = .wait → decode s.cmd = .ok .encrypt →
    s.Agrees s.encryptStrings s.encryptStrings.2
  decrypt : s.fsm = .issue ∨ s.fsm = .wait → decode s.cmd = .ok .decrypt →
    s.Agrees s.decryptStrings s.decryptStrings.1

end Sys2Proof.Machine
end

