-- ==== Sys2Proof/Certificates/Slice0/Obligations.lean ====
section
/-! DEFINITION. The statements about the machine, for the provers. They say in the spec's own terms
what each command and each agent does, from every state; the sections of the spec they rest on
stand in each docstring. -/

open Sys2Proof Sys2Proof.Machine

/-! ## Encoding -/

/-- 30_encoding.md R102: the command words of the opcode assignment, and OP 0x5 to 0xF reserved. -/
def Obligations.OpcodeAssignmentDecodes : Prop :=
  decode 0x00000000 = .ok .nop ∧ decode 0x00000001 = .ok .encrypt ∧
  decode 0x00000002 = .ok .decrypt ∧ decode 0x00000003 = .ok .str2int ∧
  decode 0x00000004 = .ok .int2str ∧ decode 0x00000005 = .error (.illegal 0x00000005) ∧
  decode 0x0000000F = .error (.illegal 0x0000000F) ∧
  decode 0x00000011 = .error (.illegal 0x00000011) ∧
  decode 0xFFFFFFFF = .error (.illegal 0xFFFFFFFF)

/-- 30_encoding.md R103: decoding a command's word gives the command back, and the decoder on the
table's numbering agrees. -/
def Obligations.DecodeOfEncodeIsTheCommand : Prop :=
  ∀ i : Instr, i.wf = true →
    decode (encode i) = .ok i ∧ decodeTableWord 32 (encode i).toNat = some i

/-- 30_encoding.md R103, R101: decoding is total; the five words are the commands' words, and every
other word is ILLEGAL: one whose OP is 0x5 to 0xF, or whose RSVD is not zero whatever its OP. -/
def Obligations.ExactlyFiveWordsAreLegal : Prop :=
  ∀ w : Word,
    (decode w = .ok .nop ↔ w = 0x00000000) ∧ (decode w = .ok .encrypt ↔ w = 0x00000001) ∧
    (decode w = .ok .decrypt ↔ w = 0x00000002) ∧ (decode w = .ok .str2int ↔ w = 0x00000003) ∧
    (decode w = .ok .int2str ↔ w = 0x00000004) ∧
    (decode w = .error (.illegal w) ↔
      5 ≤ (w.extractLsb' 0 4).toNat ∨ w.extractLsb' 4 28 ≠ 0) ∧
    ((∃ i, decode w = .ok i) ∨ decode w = .error (.illegal w))

/-! ## Steps and turns -/

/-- 40_control.md R123, R132: when the engine has the turn and the accepted word decodes to
command `i`, the step is the meaning of `i` at that state, less the turn. -/
def Obligations.EngineTurnRunsTheDecodedCommand : Prop :=
  ∀ (s : State) (ts : List Turn) (i : Instr), s.turns = .engine :: ts → decode s.cmd = .ok i →
    step s = exec i { s with turns := ts }

/-- A command word placed for the next step is run by it: NOP by the host's CMD write
(40_control.md R120), every other command by the engine's turn from the state acceptance leaves
(R121). The placing is the model's own (assumption log 6). -/
def Obligations.PlacedWordRunsNext : Prop :=
  ∀ (s : State) (i : Instr),
    step (s.withFetchWord 32 (encode i).toNat) =
      if i = .nop then exec i s
      else exec i { s with
        cmd := encode i, done := false, err := false, errcode := 0, fsm := .check,
        port := .empty }

/-- 40_control.md R132: in IDLE, and in WAIT while the BC has not answered, the engine has no step,
whatever the command; the BC has a step only while a request is out. That a turn without a step
answers the same state is the model's choice (DESIGN CHOICE, log entries 1 and 2). -/
def Obligations.NoStepInIdleOrUnansweredWait : Prop :=
  (∀ s : State, s.fsm = .idle ∨ (s.fsm = .wait ∧ ∃ x, s.port = .req x) →
    engineTurn s = .next s) ∧
  (∀ s : State, (∀ x, s.port ≠ .req x) → bcTurn s = s)

/-- 42_feistel_engine.md R176: a BC turn answers the outstanding request with `bc` of it and changes
nothing else. Where no answer is given as data, `bc` is the open function of 00_scope.md R6. -/
def Obligations.BcTurnAnswersTheRequest : Prop :=
  (∀ (s : State) (ts : List Turn) (x : Block), s.turns = .bc :: ts → s.port = .req x →
    step s = .next { s with turns := ts, port := .rsp (s.bc x) }) ∧
  (∀ (s : State) (x : Block), s.bcTable = [] → s.bc x = Config.bc x)

/-- 00_scope.md R6, 70_reset_and_hazards.md R250: the block-cipher function is one fixed function
for a whole run. -/
def Obligations.BcFunctionNeverChanges : Prop :=
  ∀ s t : State, step s = .next t → ∀ x, t.bc x = s.bc x

/-! ## Reset -/

/-- 70_reset_and_hazards.md R240: the reset input in any state. R240 gives the registers, the engine
and the port. The rest is the model's: that each MSG byte is a draw by the count of resets (log
entry 4), that the host's program and reads and the BC's answers stay (DEDUCED, log entry 12), and
that the coming turns stay (log entries 2 and 12). -/
def Obligations.ResetInputClearsTheBlock : Prop :=
  ∀ (s : State) (ts : List Turn), s.turns = .reset :: ts →
    ∃ t, step s = .next t ∧
      (∀ q : Reg, (∀ w, q ≠ .msg w) → t.memRead q.offset = 0) ∧
      (∀ k, t.msgByte k = Config.msgInit (s.draws + 1) k) ∧
      t.fsm = .idle ∧ t.cmd = 0 ∧ t.ri = 0 ∧ t.u = 0 ∧ t.v = 0 ∧ t.ha = 0 ∧ t.hb = 0 ∧
      t.la = 0 ∧ t.lb = 0 ∧ t.port = .empty ∧ t.irq = false ∧
      t.turns = ts ∧ t.program = s.program ∧ t.reads = s.reads ∧ t.bcTable = s.bcTable

/-- 10_state.md R31, 70_reset_and_hazards.md R240, R243: right after reset every register but MSG
reads 0, no interrupt is pending, and neither the engine nor the BC has a step. That a turn without
a step answers the same state is the model's choice (DESIGN CHOICE, log entries 1 and 2). -/
def Obligations.ResetStateIsIdleAndZero : Prop :=
  (∀ q : Reg, (∀ w, q ≠ .msg w) → State.reset.memRead q.offset = 0) ∧
  State.reset.irq = false ∧ State.reset.fsm = .idle ∧ State.reset.port = .empty ∧
  engineTurn State.reset = .next State.reset ∧ bcTurn State.reset = State.reset

/-! ## The invariant -/

/-- The invariant holds right after reset. -/
def Obligations.ResetStateMeetsTheInvariant : Prop := State.reset.Inv

/-- 10_state.md R54 (items 3 to 6), 42_feistel_engine.md R186, and the bounds of R41, R47 and R49:
from every state that meets the invariant, a step of any agent gives one that meets it. -/
def Obligations.EveryStepKeepsTheInvariant : Prop :=
  ∀ s t : State, s.Inv → step s = .next t → t.Inv

/-! ## The host window -/

/-- 20_memory.md R72: a host access of another width, or at an offset that is no multiple of 4, is
a bus error. -/
def Obligations.OtherAccessesAreBusErrors : Prop :=
  ∀ (s : State) (ts : List Turn) (p : List HostOp) (off : Offset) (size : Nat) (v mask : Word),
    s.turns = .host :: ts →
    (size ≠ 4 ∨ off.toNat % 4 ≠ 0 →
      (s.program = .write off size v :: p → step s = .fault (.hostBusError off)) ∧
      (s.program = .read off size :: p → step s = .fault (.hostBusError off))) ∧
    (off.toNat % 4 ≠ 0 → s.program = .poll off mask v :: p →
      step s = .fault (.hostBusError off))

/-- 60_exceptions.md R210, 20_memory.md R72: the only way a step does not give a next state is a
host turn that makes an illegal access. -/
def Obligations.OnlyBusErrorsStop : Prop :=
  ∀ s : State, (∃ t, step s = .next t) ∨
    ∃ off op p, step s = .fault (.hostBusError off) ∧ (nextTurn s).1 = .host ∧
      s.program = op :: p ∧ op.legal = false

/-- A host that makes only legal accesses never meets a fault, and stays such a host: its program
only grows shorter. -/
def Obligations.LegalHostNeverFaults : Prop :=
  ∀ s : State, s.hostLegal = true → ∃ t, step s = .next t ∧ t.hostLegal = true

/-- 20_memory.md R71, R73: a read records the value of the register and changes nothing of the
block, at every aligned offset and in every state. -/
def Obligations.ReadHasNoSideEffect : Prop :=
  ∀ (s : State) (ts : List Turn) (p : List HostOp) (off : Offset),
    s.turns = .host :: ts → s.program = .read off 4 :: p → off.toNat % 4 = 0 →
    step s = .next { s with
      turns := ts, program := p, reads := s.reads ++ [(off, s.memRead off)] }

/-- 10_state.md R31 to R43: what a read of each plain register returns, at its offset. CMD and the
reserved offsets read 0. -/
def Obligations.RegisterMapReads : Prop :=
  ∀ s : State,
    s.memRead 0x000 = 0 ∧
    s.memRead 0x008 = (if s.irqen then 1 else 0) ∧
    s.memRead 0x00C = s.radix ∧ s.memRead 0x010 = s.len ∧ s.memRead 0x014 = s.padlen ∧
    s.memRead 0x018 = s.tl ∧ s.memRead 0x01C = s.tr ∧
    (s.memRead 0x024).toNat = s.outlen.toNat ∧
    (∀ j : Fin 6, s.memRead (BitVec.ofNat 9 (0x040 + 4 * j.val)) = s.vals[j]) ∧
    (∀ (w : Fin 48) (b : Fin 4),
      (s.memRead (BitVec.ofNat 9 (0x100 + 4 * w.val))).extractLsb' (8 * b.val) 8 =
        s.msgByte (4 * w.val + b.val)) ∧
    (∀ off : Offset, (0x028 ≤ off.toNat ∧ off.toNat < 0x040) ∨
      (0x058 ≤ off.toNat ∧ off.toNat < 0x100) ∨ 0x1C0 ≤ off.toNat → s.memRead off = 0)

/-- 10_state.md R33: every field of STATUS as a read returns it, and the effect of a write, in every
engine state. -/
def Obligations.StatusReadAndWrite : Prop :=
  ∀ (s : State) (w : Word),
    ((s.memRead 0x004).getLsbD 0 = true ↔ s.fsm ≠ .idle) ∧
    (s.memRead 0x004).getLsbD 1 = s.done ∧ (s.memRead 0x004).getLsbD 2 = s.err ∧
    (s.memRead 0x004).getLsbD 3 = s.wbusy ∧ (s.memRead 0x004).getLsbD 4 = s.cmdovr ∧
    ((s.memRead 0x004).getLsbD 5 = true ↔ s.fsm = .wait) ∧
    (s.memRead 0x004).extractLsb' 6 2 = 0 ∧ (s.memRead 0x004).extractLsb' 8 4 = s.errcode ∧
    (s.memRead 0x004).extractLsb' 12 4 = 0 ∧ (s.memRead 0x004).extractLsb' 16 3 = s.ri ∧
    (s.memRead 0x004).extractLsb' 19 13 = 0 ∧
    s.memWrite 0x004 w = .next { s with
      done := if w.getLsbD 1 then false else s.done
      err := if w.getLsbD 2 then false else s.err
      errcode := if w.getLsbD 2 then 0 else s.errcode
      wbusy := if w.getLsbD 3 then false else s.wbusy
      cmdovr := if w.getLsbD 4 then false else s.cmdovr }

/-- 10_state.md R40: LIMITS is a function of RADIX in every state, with MINLEN in bits 7:0 and
MAXLEN in bits 15:8; a write to it is ignored; it reads 0 after reset. -/
def Obligations.LimitsRegister : Prop :=
  (∀ (s : State) (v : Word),
    (2 ≤ s.radix.toNat → s.radix.toNat ≤ 36 →
      ∃ lo hi, limitsOf s.radix.toNat = some (lo, hi) ∧ lo < 256 ∧ hi < 256 ∧
        (s.memRead 0x020).toNat = hi * 256 + lo) ∧
    (¬(2 ≤ s.radix.toNat ∧ s.radix.toNat ≤ 36) → s.memRead 0x020 = 0) ∧
    s.memWrite 0x020 v = .next s) ∧
  State.reset.memRead 0x020 = 0

/-- 40_control.md R131: a write to a busy-drop register is stored when idle, and dropped with WBUSY
and nothing else when busy; writes to IRQEN and STATUS are never dropped: each has its effect
(10_state.md R33, R34) in every engine state; writes to LIMITS, OUTLEN and the reserved offsets are
ignored. -/
def Obligations.BusyDropRegisters : Prop :=
  (∀ (s : State) (q : Reg) (v : Word), q.isBusyDrop = true → s.fsm ≠ .idle →
    s.memWrite q.offset v = .next { s with wbusy := true }) ∧
  (∀ (s : State) (q : Reg) (v : Word), q.isBusyDrop = true → s.fsm = .idle →
    ∃ t, s.memWrite q.offset v = .next t ∧ t.memRead q.offset = v ∧ t.wbusy = s.wbusy) ∧
  (∀ (s : State) (v : Word), s.memWrite 0x008 v = .next { s with irqen := v.getLsbD 0 }) ∧
  (∀ (s : State) (v : Word), s.memWrite 0x004 v = .next { s with
    done := if v.getLsbD 1 then false else s.done
    err := if v.getLsbD 2 then false else s.err
    errcode := if v.getLsbD 2 then 0 else s.errcode
    wbusy := if v.getLsbD 3 then false else s.wbusy
    cmdovr := if v.getLsbD 4 then false else s.cmdovr }) ∧
  (∀ (s : State) (v : Word), s.memWrite 0x020 v = .next s ∧ s.memWrite 0x024 v = .next s) ∧
  (∀ (s : State) (off : Offset) (v : Word), (0x028 ≤ off.toNat ∧ off.toNat < 0x040) ∨
    (0x058 ≤ off.toNat ∧ off.toNat < 0x100) ∨ 0x1C0 ≤ off.toNat →
    s.memWrite off v = .next s)

/-- 40_control.md R131, 10_state.md R35 to R43: a write to one busy-drop register while idle leaves
what every other register reads (but LIMITS, a function of RADIX) and the whole engine alone. -/
def Obligations.IdleWriteLeavesOtherRegisters : Prop :=
  ∀ (s : State) (q p : Reg) (v : Word), q.isBusyDrop = true → s.fsm = .idle → p ≠ q →
    p ≠ .limits → ∃ t, s.memWrite q.offset v = .next t ∧
      t.memRead p.offset = s.memRead p.offset ∧ t.fsm = .idle ∧ t.cmd = s.cmd ∧
      t.u = s.u ∧ t.v = s.v ∧ t.ri = s.ri ∧ t.ha = s.ha ∧ t.hb = s.hb ∧ t.la = s.la ∧
      t.lb = s.lb ∧ t.port = s.port

/-- 60_exceptions.md R223, 10_state.md R30, R33: what the host can read, and `irq`, are the same in
two states that differ only in the halves, their lengths, the accepted word and the contents of the
port. -/
def Obligations.ReadsRevealNoHalvesOrBlocks : Prop :=
  ∀ (s : State) (cmd : Word) (u v ha hb la lb : Nat) (port : Port) (off : Offset),
    State.memRead { s with
      cmd := cmd, u := u, v := v, ha := ha, hb := hb, la := la, lb := lb, port := port } off =
      s.memRead off ∧
    State.irq { s with
      cmd := cmd, u := u, v := v, ha := ha, hb := hb, la := la, lb := lb, port := port } = s.irq

/-! ## Commands: acceptance, NOP, ILLEGAL -/

/-- 40_control.md R120, R121, R122: a host write to CMD does exactly one of three things. -/
def Obligations.CmdWriteDoesOneOfThree : Prop :=
  ∀ (s : State) (ts : List Turn) (p : List HostOp) (w : Word),
    s.turns = .host :: ts → s.program = .write 0x000 4 w :: p →
    (w = 0 → step s = .next { s with turns := ts, program := p }) ∧
    (w ≠ 0 → s.fsm = .idle → step s = .next { s with
      turns := ts, program := p, cmd := w, done := false, err := false, errcode := 0,
      fsm := .check }) ∧
    (w ≠ 0 → s.fsm ≠ .idle → step s = .next { s with
      turns := ts, program := p, cmdovr := true })

/-- 40_control.md R129: NOP does nothing, in every engine state: neither its meaning nor a CMD
write of its word. -/
def Obligations.NopDoesNothing : Prop :=
  decode 0x00000000 = .ok .nop ∧
  ∀ s : State, exec .nop s = .next s ∧ s.memWrite 0x000 0x00000000 = .next s

/-- 40_control.md R130: an ILLEGAL word is accepted when idle, its CHECK step fails with code 7 and
no other check runs, and while busy it is dropped with CMDOVR. -/
def Obligations.IllegalCommandFailsWithCode7 : Prop :=
  ∀ (s : State) (w : Word), (∀ i, w ≠ encode i) →
    (s.fsm = .idle → s.memWrite 0x000 w = .next { s with
      cmd := w, done := false, err := false, errcode := 0, fsm := .check }) ∧
    (s.fsm = .check → s.cmd = w → engineTurn s = .next { s with
      errcode := 7, err := true, done := true, fsm := .idle }) ∧
    (s.fsm ≠ .idle → s.memWrite 0x000 w = .next { s with cmdovr := true })

/-- 70_reset_and_hazards.md R248: a STATUS read straight after an accepted CMD write cannot see the
DONE of an earlier command. -/
def Obligations.AcceptedCommandReadsBusyNotDone : Prop :=
  ∀ (s : State) (w : Word), w ≠ 0 → s.fsm = .idle → ∃ t, s.memWrite 0x000 w = .next t ∧
    (t.memRead 0x004).getLsbD 0 = true ∧ (t.memRead 0x004).getLsbD 1 = false ∧
    (t.memRead 0x004).getLsbD 2 = false ∧ (t.memRead 0x004).extractLsb' 8 4 = 0

/-! ## The CHECK step -/

/-- 00_scope.md R7: MINLEN and MAXLEN of every radix, and none outside 2..36. -/
def Obligations.LimitsTableIsExact : Prop :=
  (∀ r, 2 ≤ r → r ≤ 36 → ∃ lo hi k, limitsOf r = some (lo, hi) ∧
    1000000 ≤ r ^ lo ∧ (∀ l, 1000000 ≤ r ^ l → lo ≤ l) ∧
    hi = 2 * k ∧ r ^ k ≤ 2 ^ 96 ∧ (∀ j, r ^ j ≤ 2 ^ 96 → j ≤ k)) ∧
  (∀ r, ¬(2 ≤ r ∧ r ≤ 36) → limitsOf r = none)

/-- 41_radix_codec.md R140 to R142: the character maps and the valid digits of a radix. -/
def Obligations.CharacterMaps : Prop :=
  (∀ k, k < 10 → digit (BitVec.ofNat 8 (0x30 + k)) = some k) ∧
  (∀ k, k < 26 → digit (BitVec.ofNat 8 (0x61 + k)) = some (10 + k) ∧
    digit (BitVec.ofNat 8 (0x41 + k)) = some (10 + k)) ∧
  (∀ b : Byte, ¬(0x30 ≤ b.toNat ∧ b.toNat ≤ 0x39) → ¬(0x61 ≤ b.toNat ∧ b.toNat ≤ 0x7A) →
    ¬(0x41 ≤ b.toNat ∧ b.toNat ≤ 0x5A) → digit b = none) ∧
  (∀ e, e < 10 → chr e = BitVec.ofNat 8 (0x30 + e)) ∧
  (∀ e, e < 26 → chr (10 + e) = BitVec.ofNat 8 (0x61 + e)) ∧
  (∀ e, e < 36 → digit (chr e) = some e) ∧
  (∀ (b : Byte) (r : Nat), validChar b r = true ↔ ∃ e, digit b = some e ∧ e < r)

/-- 40_control.md R123 to R127, 60_exceptions.md R212: ENCRYPT and DECRYPT in CHECK report the first
failing check, and change nothing but ERRCODE, ERR, DONE and the engine's state. -/
def Obligations.FeistelCheckReportsFirstFailure : Prop :=
  ∀ (s : State) (i : Instr), i = .encrypt ∨ i = .decrypt → s.fsm = .check →
    (¬(2 ≤ s.radix.toNat ∧ s.radix.toNat ≤ 36) → exec i s = .next { s with
      errcode := 2, err := true, done := true, fsm := .idle }) ∧
    (∀ lo hi, limitsOf s.radix.toNat = some (lo, hi) →
      ¬(lo ≤ s.len.toNat ∧ s.len.toNat ≤ hi) → exec i s = .next { s with
        errcode := 4, err := true, done := true, fsm := .idle }) ∧
    (∀ lo hi, limitsOf s.radix.toNat = some (lo, hi) → lo ≤ s.len.toNat → s.len.toNat ≤ hi →
      (∃ k, k < s.len.toNat ∧ validChar (s.msgByte k) s.radix.toNat = false) →
      exec i s = .next { s with errcode := 6, err := true, done := true, fsm := .idle })

/-- 40_control.md R123 to R127, 41_radix_codec.md R148: the same for STR2INT. -/
def Obligations.Str2intCheckReportsFirstFailure : Prop :=
  ∀ s : State, s.fsm = .check →
    (¬(2 ≤ s.radix.toNat ∧ s.radix.toNat ≤ 36) → exec .str2int s = .next { s with
      errcode := 2, err := true, done := true, fsm := .idle }) ∧
    (∀ lo hi, limitsOf s.radix.toNat = some (lo, hi) →
      s.len.toNat = 0 ∨ hi < s.len.toNat → exec .str2int s = .next { s with
        errcode := 4, err := true, done := true, fsm := .idle }) ∧
    (∀ lo hi, limitsOf s.radix.toNat = some (lo, hi) → 1 ≤ s.len.toNat → s.len.toNat ≤ hi →
      (∃ k, k < s.len.toNat ∧ validChar (s.msgByte k) s.radix.toNat = false) →
      exec .str2int s = .next { s with errcode := 6, err := true, done := true, fsm := .idle })

/-- 40_control.md R123 to R127, 41_radix_codec.md R149: the same for INT2STR, which reads no
character and not LEN. -/
def Obligations.Int2strCheckReportsFirstFailure : Prop :=
  ∀ s : State, s.fsm = .check →
    (¬(2 ≤ s.radix.toNat ∧ s.radix.toNat ≤ 36) → exec .int2str s = .next { s with
      errcode := 2, err := true, done := true, fsm := .idle }) ∧
    (2 ≤ s.radix.toNat → s.radix.toNat ≤ 36 → 192 < s.padlen.toNat →
      exec .int2str s = .next { s with errcode := 4, err := true, done := true, fsm := .idle })

/-- 40_control.md R127, 60_exceptions.md R210, R213: ERR is set by a CHECK step only; that step also
sets DONE, idles the engine, and leaves every operand, every result, the round state and the port
as they were. -/
def Obligations.ErrorsComeFromTheCheckStep : Prop :=
  ∀ s t : State, step s = .next t → s.err = false → t.err = true →
    (nextTurn s).1 = .engine ∧ s.fsm = .check ∧ t.done = true ∧ t.fsm = .idle ∧
    (t.errcode = 2 ∨ t.errcode = 4 ∨ t.errcode = 6 ∨ t.errcode = 7) ∧
    t.msg = s.msg ∧ t.draws = s.draws ∧ t.vals = s.vals ∧ t.outlen = s.outlen ∧ t.ri = s.ri ∧
    t.u = s.u ∧ t.v = s.v ∧ t.ha = s.ha ∧ t.hb = s.hb ∧ t.la = s.la ∧ t.lb = s.lb ∧
    t.port = s.port ∧ t.radix = s.radix ∧ t.len = s.len ∧ t.padlen = s.padlen ∧ t.tl = s.tl ∧
    t.tr = s.tr

/-! ## The codec commands -/

/-- 41_radix_codec.md R148: STR2INT on valid operands completes, and VAL is
`sum of d(MSG[j]) * r^(n-1-j)` (00_scope.md R12), whole (R150). Nothing else changes but DONE and the
engine's state. -/
def Obligations.Str2intWritesTheValue : Prop :=
  ∀ (s : State) (lo hi : Nat), s.fsm = .check →
    limitsOf s.radix.toNat = some (lo, hi) → 1 ≤ s.len.toNat → s.len.toNat ≤ hi →
    (∀ k, k < s.len.toNat → validChar (s.msgByte k) s.radix.toNat = true) →
    ∃ t, exec .str2int s = .next t ∧
      t = { s with vals := t.vals, done := true, fsm := .idle } ∧
      t.valInt = ∑ j ∈ Finset.range s.len.toNat,
        s.digitOf j * s.radix.toNat ^ (s.len.toNat - 1 - j) ∧
      ∀ j : Fin 6, t.vals[j].toNat = t.valInt / 2 ^ (32 * j.val) % 2 ^ 32

/-- 41_radix_codec.md R149, R144, R145, R151: INT2STR on valid operands completes; it writes
`max(PADLEN, nd)` characters, at most 192, least significant digit first, where `nd` is the number
of digits of VAL, and OUTLEN holds that count. Nothing else changes but DONE and the engine's
state. -/
def Obligations.Int2strWritesTheDigits : Prop :=
  ∀ (s : State) (nd : Nat), s.fsm = .check → 2 ≤ s.radix.toNat → s.radix.toNat ≤ 36 →
    s.padlen.toNat ≤ 192 →
    1 ≤ nd → s.valInt < s.radix.toNat ^ nd →
    (∀ k, 1 ≤ k → s.valInt < s.radix.toNat ^ k → nd ≤ k) →
    max s.padlen.toNat nd ≤ 192 ∧
    ∃ t, exec .int2str s = .next t ∧
      t = { s with msg := t.msg, outlen := t.outlen, done := true, fsm := .idle } ∧
      t.outlen.toNat = max s.padlen.toNat nd ∧
      (∀ j, j < max s.padlen.toNat nd →
        t.msgByte j = chr (s.valInt / s.radix.toNat ^ j % s.radix.toNat)) ∧
      (∀ j, max s.padlen.toNat nd ≤ j → t.msgByte j = s.msgByte j)

/-- 41_radix_codec.md R146: the two primitives are inverse through one reversal, in the three forms
(a), (b) and (c). -/
def Obligations.CodecPrimitivesInverseThroughReversal : Prop :=
  ∀ r, 2 ≤ r → r ≤ 36 →
    (∀ n l, stringToInt (intToPaddedReversed n r l).reverse r = some n) ∧
    (∀ x : List Byte, x ≠ [] → (∀ b ∈ x, validChar b r = true) →
      (stringToInt x.reverse r).map (fun n => intToPaddedReversed n r x.length) =
        some (x.map lowerChar)) ∧
    (∀ x : List Byte, x ≠ [] → (∀ b ∈ x, validChar b r = true) →
      (stringToInt x r).map (fun n => intToPaddedReversed n r x.length) =
        some (x.map lowerChar).reverse)

/-- 30_encoding.md R105, 41_radix_codec.md R148, R149: what the codec commands leave unchanged
whenever they give a next state, in every engine state and on every path. STR2INT stores no byte of
MSG; INT2STR stores at most its output's bytes, from MSG[0] on. Outside CHECK the state stays: in
IDLE the engine has no step (40_control.md R132), and that a turn without one, and a codec word in
ISSUE or WAIT, where no run comes, repeat the state is the model's choice (DESIGN CHOICE, log
entry 1). -/
def Obligations.CodecFrame : Prop :=
  ∀ (s t : State) (i : Instr), i = .str2int ∨ i = .int2str → exec i s = .next t →
    t.radix = s.radix ∧ t.len = s.len ∧ t.padlen = s.padlen ∧ t.tl = s.tl ∧ t.tr = s.tr ∧
    t.irqen = s.irqen ∧ t.wbusy = s.wbusy ∧ t.cmdovr = s.cmdovr ∧ t.cmd = s.cmd ∧
    t.u = s.u ∧ t.v = s.v ∧ t.ri = s.ri ∧ t.ha = s.ha ∧ t.hb = s.hb ∧ t.la = s.la ∧
    t.lb = s.lb ∧ t.port = s.port ∧ t.draws = s.draws ∧ t.program = s.program ∧
    t.reads = s.reads ∧ t.bcTable = s.bcTable ∧ t.turns = s.turns ∧ t.ticks = s.ticks ∧
    (s.fsm ≠ .check → t = s) ∧
    (t.err = s.err ∧ t.errcode = s.errcode ∨
      t.err = true ∧ (t.errcode = 2 ∨ t.errcode = 4 ∨ t.errcode = 6)) ∧
    (i = .str2int → t.outlen = s.outlen ∧ ∀ k, t.msgByte k = s.msgByte k) ∧
    (i = .int2str → t.vals = s.vals ∧
      ∀ k, (intToPaddedReversed s.valInt s.radix.toNat s.padlen.toNat).length ≤ k →
        t.msgByte k = s.msgByte k) ∧
    (s.fsm ≠ .check ∨ t.err = true ∧ s.err = false →
      t.vals = s.vals ∧ t.outlen = s.outlen ∧ ∀ k, t.msgByte k = s.msgByte k)

/-! ## The Feistel engine -/

/-- 42_feistel_engine.md R172: the CHECK step of ENCRYPT and DECRYPT that passes every check starts
the rounds and changes nothing else. -/
def Obligations.FeistelCheckStartsTheRounds : Prop :=
  ∀ (s : State) (i : Instr) (lo hi : Nat), i = .encrypt ∨ i = .decrypt → s.fsm = .check →
    limitsOf s.radix.toNat = some (lo, hi) → lo ≤ s.len.toNat → s.len.toNat ≤ hi →
    (∀ k, k < s.len.toNat → validChar (s.msgByte k) s.radix.toNat = true) →
    exec i s = .next { s with
      u := (s.len.toNat + 1) / 2
      v := s.len.toNat - (s.len.toNat + 1) / 2
      ha := ∑ j ∈ Finset.range ((s.len.toNat + 1) / 2), s.digitOf j * s.radix.toNat ^ j
      hb := ∑ j ∈ Finset.range (s.len.toNat - (s.len.toNat + 1) / 2),
        s.digitOf ((s.len.toNat + 1) / 2 + j) * s.radix.toNat ^ j
      la := (s.len.toNat + 1) / 2
      lb := s.len.toNat - (s.len.toNat + 1) / 2
      ri := if i = .encrypt then 0 else 7
      fsm := .issue }

/-- 42_feistel_engine.md R173, R174, R175, 20_memory.md R77, R78: the ISSUE step sends the bytes of
the round block in reverse order, built from TR on even rounds and TL on odd ones, from half B for
ENCRYPT and half A for DECRYPT, and writes nothing else. Byte `j` of the port vector is bits
`127-8j : 120-8j`. -/
def Obligations.IssueSendsTheReversedRoundBlock : Prop :=
  ∀ (s : State) (i : Instr) (x : Nat) (w : Word), s.fsm = .issue →
    (i = .encrypt ∧ x = s.hb ∨ i = .decrypt ∧ x = s.ha) → x < 2 ^ 96 →
    w = (if s.ri.toNat % 2 = 0 then s.tr else s.tl) →
    ∃ q : Block, exec i s = .next { s with port := .req q, fsm := .wait } ∧
      (∀ j, j < 3 → q.extractLsb' (120 - 8 * (15 - j)) 8 = w.extractLsb' (24 - 8 * j) 8) ∧
      q.extractLsb' (120 - 8 * (15 - 3)) 8 = w.extractLsb' 0 8 ^^^ s.ri.setWidth 8 ∧
      (∀ j, 4 ≤ j → j < 16 →
        (q.extractLsb' (120 - 8 * (15 - j)) 8).toNat = x / 256 ^ (15 - j) % 256)

/-- 42_feistel_engine.md R177, R178, R180, 20_memory.md R79: the WAIT step of ENCRYPT in rounds 0 to
6. `y` is the response read little-endian. -/
def Obligations.EncryptRoundCombinesAndAdvances : Prop :=
  ∀ (s : State) (z : Block) (m y : Nat), s.fsm = .wait → s.port = .rsp z → s.ri ≠ 7 →
    m = (if s.ri.toNat % 2 = 0 then s.u else s.v) →
    y = ∑ j ∈ Finset.range 16, (z.extractLsb' (120 - 8 * j) 8).toNat * 256 ^ j →
    exec .encrypt s = .next { s with
      port := .empty
      ha := s.hb
      la := s.lb
      hb := (s.ha + y) % s.radix.toNat ^ m
      lb := m
      ri := s.ri + 1
      fsm := .issue }

/-- 42_feistel_engine.md R177, R179, R180, 20_memory.md R79: the WAIT step of DECRYPT in rounds 7 to
1. The new half is the non-negative remainder of the whole difference (90_conflicts.md C7): below
the modulus and congruent to it. -/
def Obligations.DecryptRoundCombinesAndAdvances : Prop :=
  ∀ (s : State) (z : Block) (m y : Nat), s.fsm = .wait → s.port = .rsp z → s.ri ≠ 0 →
    1 ≤ s.radix.toNat →
    m = (if s.ri.toNat % 2 = 0 then s.u else s.v) →
    y = ∑ j ∈ Finset.range 16, (z.extractLsb' (120 - 8 * j) 8).toNat * 256 ^ j →
    ∃ c, c < s.radix.toNat ^ m ∧ (c + y) % s.radix.toNat ^ m = s.hb % s.radix.toNat ^ m ∧
      exec .decrypt s = .next { s with
        port := .empty
        ha := c
        la := m
        hb := s.ha
        lb := s.la
        ri := s.ri - 1
        fsm := .issue }

/-- 42_feistel_engine.md R178, R181: the WAIT step of ENCRYPT's last round commits both halves as
characters, least significant digit first, over MSG[0..u+v-1], and completes. -/
def Obligations.EncryptLastRoundCommits : Prop :=
  ∀ (s : State) (z : Block) (y c : Nat), s.fsm = .wait → s.port = .rsp z → s.ri = 7 →
    s.u + s.v ≤ 192 →
    y = ∑ j ∈ Finset.range 16, (z.extractLsb' (120 - 8 * j) 8).toNat * 256 ^ j →
    c = (s.ha + y) % s.radix.toNat ^ s.v →
    ∃ t, exec .encrypt s = .next t ∧
      t = { s with
        port := .empty, ha := s.hb, la := s.lb, hb := c, lb := s.v, msg := t.msg,
        done := true, fsm := .idle } ∧
      (∀ j, j < s.u → t.msgByte j = chr (s.hb / s.radix.toNat ^ j % s.radix.toNat)) ∧
      (∀ j, j < s.v → t.msgByte (s.u + j) = chr (c / s.radix.toNat ^ j % s.radix.toNat)) ∧
      (∀ k, s.u + s.v ≤ k → t.msgByte k = s.msgByte k)

/-- 42_feistel_engine.md R179, R181: the WAIT step of DECRYPT's last round, the same way. -/
def Obligations.DecryptLastRoundCommits : Prop :=
  ∀ (s : State) (z : Block) (y : Nat), s.fsm = .wait → s.port = .rsp z → s.ri = 0 →
    s.u + s.v ≤ 192 → 1 ≤ s.radix.toNat →
    y = ∑ j ∈ Finset.range 16, (z.extractLsb' (120 - 8 * j) 8).toNat * 256 ^ j →
    ∃ t c, exec .decrypt s = .next t ∧ c < s.radix.toNat ^ s.u ∧
      (c + y) % s.radix.toNat ^ s.u = s.hb % s.radix.toNat ^ s.u ∧
      t = { s with
        port := .empty, ha := c, la := s.u, hb := s.ha, lb := s.la, msg := t.msg,
        done := true, fsm := .idle } ∧
      (∀ j, j < s.u → t.msgByte j = chr (c / s.radix.toNat ^ j % s.radix.toNat)) ∧
      (∀ j, j < s.v → t.msgByte (s.u + j) = chr (s.ha / s.radix.toNat ^ j % s.radix.toNat)) ∧
      (∀ k, s.u + s.v ≤ k → t.msgByte k = s.msgByte k)

/-- 30_encoding.md R105, 42_feistel_engine.md R172 to R181: what ENCRYPT and DECRYPT leave unchanged
whenever they give a next state, in every engine state and on every path. Bytes of MSG change in the
commit only, and there only below `u + v`. In IDLE the engine has no step (40_control.md R132); that
such a turn repeats the state is the model's choice (DESIGN CHOICE, log entry 1). -/
def Obligations.FeistelFrame : Prop :=
  ∀ (s t : State) (i : Instr), i = .encrypt ∨ i = .decrypt → exec i s = .next t →
    t.radix = s.radix ∧ t.len = s.len ∧ t.padlen = s.padlen ∧ t.tl = s.tl ∧ t.tr = s.tr ∧
    t.irqen = s.irqen ∧ t.wbusy = s.wbusy ∧ t.cmdovr = s.cmdovr ∧ t.cmd = s.cmd ∧
    t.vals = s.vals ∧ t.outlen = s.outlen ∧ t.draws = s.draws ∧ t.program = s.program ∧
    t.reads = s.reads ∧ t.bcTable = s.bcTable ∧ t.turns = s.turns ∧ t.ticks = s.ticks ∧
    (s.fsm = .idle → t = s) ∧
    (t.err = s.err ∧ t.errcode = s.errcode ∨
      t.err = true ∧ (t.errcode = 2 ∨ t.errcode = 4 ∨ t.errcode = 6)) ∧
    (s.fsm ≠ .check → t.u = s.u ∧ t.v = s.v ∧ t.err = s.err ∧ t.errcode = s.errcode) ∧
    (∀ k, s.u + s.v ≤ k → t.msgByte k = s.msgByte k) ∧
    (s.fsm ≠ .wait ∨ t.fsm ≠ .idle → ∀ k, t.msgByte k = s.msgByte k)

/-- 42_feistel_engine.md R184, R170, from any state and under every interleaving: a step of any agent
keeps the engine in agreement with the source's strings `A` and `B`, and an engine turn that ends
the rounds leaves the source's result in MSG, for every block-cipher function. That MSG, the
operands and `bc` stay while the rounds run is part of it, as the strings are read from them. The
message has valid characters throughout, so every string has a value (log entry 18). -/
def Obligations.EveryStepKeepsTheSourceStrings : Prop :=
  ∀ s t : State, s.SourceInv → step s = .next t →
    t.SourceInv ∧
    ((nextTurn s).1 = .engine → s.fsm = .wait → t.fsm = .idle →
      (decode s.cmd = .ok .encrypt → t.msgString 0 s.len.toNat =
        Source.encrypt s.bc s.radix.toNat s.tl s.tr s.message) ∧
      (decode s.cmd = .ok .decrypt → t.msgString 0 s.len.toNat =
        Source.decrypt s.bc s.radix.toNat s.tl s.tr s.message))

/-- 42_feistel_engine.md R184: the agreement with the source's strings holds right after reset. -/
def Obligations.ResetStateMeetsTheSourceInvariant : Prop := State.reset.SourceInv

/-- 42_feistel_engine.md R170, R171, R184: the whole run of ENCRYPT, 17 engine and 8 BC turns, leaves
in MSG exactly the string of the source's procedure, for every block-cipher function. One schedule,
`commandTurns`; `EveryStepKeepsTheSourceStrings` covers every interleaving. -/
def Obligations.EncryptRunComputesTheSourceProcedure : Prop :=
  ∀ (s : State) (ts : List Turn), s.feistelReady → s.cmd = 0x00000001 →
    s.turns = commandTurns ++ ts →
    ∃ t, runSteps 25 s = .next t ∧
      t.msgString 0 s.len.toNat =
        Source.encrypt s.bc s.radix.toNat s.tl s.tr (s.msgString 0 s.len.toNat) ∧
      (∀ k, s.len.toNat ≤ k → t.msgByte k = s.msgByte k) ∧
      t.done = true ∧ t.err = s.err ∧ t.errcode = s.errcode ∧ t.fsm = .idle ∧ t.ri = 7 ∧
      t.port = .empty ∧ t.turns = ts ∧ t.vals = s.vals ∧ t.outlen = s.outlen

/-- 42_feistel_engine.md R170, R171, R184: the same for DECRYPT. -/
def Obligations.DecryptRunComputesTheSourceProcedure : Prop :=
  ∀ (s : State) (ts : List Turn), s.feistelReady → s.cmd = 0x00000002 →
    s.turns = commandTurns ++ ts →
    ∃ t, runSteps 25 s = .next t ∧
      t.msgString 0 s.len.toNat =
        Source.decrypt s.bc s.radix.toNat s.tl s.tr (s.msgString 0 s.len.toNat) ∧
      (∀ k, s.len.toNat ≤ k → t.msgByte k = s.msgByte k) ∧
      t.done = true ∧ t.err = s.err ∧ t.errcode = s.errcode ∧ t.fsm = .idle ∧ t.ri = 0 ∧
      t.port = .empty ∧ t.turns = ts ∧ t.vals = s.vals ∧ t.outlen = s.outlen

/-- 42_feistel_engine.md R187: for every function `bc`, DECRYPT after ENCRYPT gives the lowercase
message back. -/
def Obligations.DecryptAfterEncryptGivesLowercase : Prop :=
  ∀ (s : State) (ts : List Turn) (p : List HostOp), s.feistelReady → s.cmd = 0x00000001 →
    s.turns = commandTurns ++ .host :: (commandTurns ++ ts) →
    s.program = .write 0x000 4 0x00000002 :: p →
    ∃ t, runSteps 51 s = .next t ∧
      (∀ k, k < s.len.toNat → t.msgByte k = lowerChar (s.msgByte k)) ∧
      (∀ k, s.len.toNat ≤ k → t.msgByte k = s.msgByte k) ∧
      t.done = true ∧ t.err = false ∧ t.errcode = 0 ∧ t.fsm = .idle ∧ t.turns = ts ∧
      t.program = p

/-- 42_feistel_engine.md R188: a successful ENCRYPT or DECRYPT writes exactly `n` characters, each
canonical with value below the radix. -/
def Obligations.OutputKeepsLengthAndAlphabet : Prop :=
  ∀ (s : State) (ts : List Turn), s.feistelReady →
    s.cmd = 0x00000001 ∨ s.cmd = 0x00000002 → s.turns = commandTurns ++ ts →
    ∃ t, runSteps 25 s = .next t ∧ t.done = true ∧ t.fsm = .idle ∧
      (∀ k, k < s.len.toNat → ∃ e, e < s.radix.toNat ∧ t.msgByte k = chr e) ∧
      (∀ k, s.len.toNat ≤ k → t.msgByte k = s.msgByte k)

/-- 42_feistel_engine.md R171, 70_reset_and_hazards.md R252: every enabled engine or BC step of an
ENCRYPT or DECRYPT brings it one step nearer its end, 25 from CHECK, under every interleaving; the
count is 0 exactly when the engine is idle. -/
def Obligations.EnabledStepsCountDownToCompletion : Prop :=
  ∀ (s : State) (i : Instr), i = .encrypt ∨ i = .decrypt → s.cmd = encode i →
    (s.feistelReady ∨ s.fsm = .issue ∨ (s.fsm = .wait ∧ ∃ z, s.port = .rsp z) →
      ∃ t, engineTurn s = .next t ∧ t.cmd = s.cmd ∧ t.stepsLeft i + 1 = s.stepsLeft i) ∧
    (s.fsm = .wait → (∃ x, s.port = .req x) →
      (bcTurn s).cmd = s.cmd ∧ (bcTurn s).fsm = .wait ∧
        (bcTurn s).stepsLeft i + 1 = s.stepsLeft i) ∧
    (s.fsm = .check → s.stepsLeft i = 25) ∧
    (s.stepsLeft i = 0 ↔ s.fsm = .idle)

/-- 42_feistel_engine.md R189: a command issues its requests in its ISSUE steps only, one each, and
eight in all. -/
def Obligations.EightRequestsOnePerRound : Prop :=
  ∀ (s t : State) (i : Instr), i = .encrypt ∨ i = .decrypt → s.cmd = encode i →
    (s.fsm = .check → s.feistelReady) → engineTurn s = .next t →
    (s.fsm = .check → s.requestsLeft i = 8) ∧
    (s.fsm = .issue → t.requestsLeft i + 1 = s.requestsLeft i ∧ ∃ x, t.port = .req x) ∧
    (s.fsm ≠ .issue → t.requestsLeft i = s.requestsLeft i ∧
      (t.port = s.port ∨ t.port = .empty))

/-! ## A command in progress, and completion -/

/-- 40_control.md R122, R131, 10_state.md R54 item 7: a host turn never disturbs a command in
progress: the engine, the port, the operands and the results stay. -/
def Obligations.HostTurnLeavesRunningCommandAlone : Prop :=
  ∀ s t : State, s.fsm ≠ .idle → hostTurn s = .next t →
    t.fsm = s.fsm ∧ t.cmd = s.cmd ∧ t.port = s.port ∧ t.ri = s.ri ∧ t.u = s.u ∧ t.v = s.v ∧
    t.ha = s.ha ∧ t.hb = s.hb ∧ t.la = s.la ∧ t.lb = s.lb ∧ t.radix = s.radix ∧
    t.len = s.len ∧ t.padlen = s.padlen ∧ t.tl = s.tl ∧ t.tr = s.tr ∧ t.vals = s.vals ∧
    t.msg = s.msg ∧ t.draws = s.draws ∧ t.outlen = s.outlen

/-- 20_memory.md R82, 70_reset_and_hazards.md R246, 10_state.md R54 item 7: a step that leaves the
block busy leaves every operand and every result as it was: no partial result is ever seen. -/
def Obligations.NoPartialResultWhileBusy : Prop :=
  ∀ s t : State, step s = .next t → s.fsm ≠ .idle → t.fsm ≠ .idle →
    t.msg = s.msg ∧ t.draws = s.draws ∧ t.vals = s.vals ∧ t.outlen = s.outlen ∧
    t.radix = s.radix ∧ t.len = s.len ∧ t.padlen = s.padlen ∧ t.tl = s.tl ∧ t.tr = s.tr

/-- 60_exceptions.md R218: `irq` is the level of IRQEN.EN and STATUS.DONE, as the host reads them;
every completion sets DONE; writing 1 to DONE and accepting a command clear it; writing EN = 0
masks it and leaves DONE. -/
def Obligations.IrqIsEnableAndDone : Prop :=
  ∀ s : State,
    s.irq = ((s.memRead 0x008).getLsbD 0 && (s.memRead 0x004).getLsbD 1) ∧
    (∀ t, engineTurn s = .next t → s.fsm ≠ .idle → t.fsm = .idle → t.done = true) ∧
    (∀ w : Word, w.getLsbD 1 = true → ∃ t, s.memWrite 0x004 w = .next t ∧ t.irq = false) ∧
    (∀ w : Word, w ≠ 0 → s.fsm = .idle → ∃ t, s.memWrite 0x000 w = .next t ∧ t.irq = false) ∧
    (∀ w : Word, w.getLsbD 0 = false →
      ∃ t, s.memWrite 0x008 w = .next t ∧ t.irq = false ∧ t.done = s.done)

/-- 60_exceptions.md R217, R218: `irq` rises only when the engine completes a command or the host
sets IRQEN.EN over a DONE that is already 1. -/
def Obligations.IrqRisesOnlyByCompletionOrEnable : Prop :=
  ∀ s t : State, step s = .next t → s.irq = false → t.irq = true →
    ((nextTurn s).1 = .engine ∧ s.fsm ≠ .idle ∧ t.fsm = .idle ∧ t.irqen = s.irqen) ∨
    ((nextTurn s).1 = .host ∧ s.irqen = false ∧ t.irqen = true ∧ s.done = true)

/-! ## Host programs -/

/-- 30_encoding.md R106: a poll line advances exactly when the masked value matches, and changes
nothing else either way. -/
def Obligations.PollAdvancesExactlyOnMatch : Prop :=
  ∀ (s : State) (ts : List Turn) (p : List HostOp) (off : Offset) (mask val : Word),
    s.turns = .host :: ts → s.program = .poll off mask val :: p → off.toNat % 4 = 0 →
    (s.memRead off &&& mask = val → step s = .next { s with turns := ts, program := p }) ∧
    (s.memRead off &&& mask ≠ val → step s = .next { s with turns := ts })

/-- 30_encoding.md R107, 20_memory.md R74: the bus transactions of `ldmsg`, performed by an idle
block, leave the string in MSG, 0x00 in the unused lanes of its last word, and every other byte as
it was. -/
def Obligations.LdmsgWritesTheString : Prop :=
  ∀ (s : State) (x : List Byte) (p : List HostOp) (ts : List Turn), s.fsm = .idle →
    x.length ≤ 192 → s.program = HostLine.encode (.ldmsg x) ++ p →
    s.turns = List.replicate ((x.length + 3) / 4) .host ++ ts →
    ∃ t, runSteps ((x.length + 3) / 4) s = .next t ∧ t.program = p ∧ t.turns = ts ∧
      t.fsm = .idle ∧ t.msgString 0 x.length = x ∧
      (∀ k, x.length ≤ k → k < 4 * ((x.length + 3) / 4) → t.msgByte k = 0) ∧
      (∀ k, 4 * ((x.length + 3) / 4) ≤ k → t.msgByte k = s.msgByte k)

/-- 30_encoding.md R107, 20_memory.md R75: the bus transactions of `ldval`, performed by an idle
block, leave the number in VAL and nothing else changed. -/
def Obligations.LdvalWritesTheNumber : Prop :=
  ∀ (s : State) (n : Nat) (p : List HostOp) (ts : List Turn), s.fsm = .idle → n < 2 ^ 192 →
    s.program = HostLine.encode (.ldval n) ++ p → s.turns = List.replicate 6 .host ++ ts →
    ∃ t, runSteps 6 s = .next t ∧ t.valInt = n ∧
      t = { s with vals := t.vals, program := p, turns := ts }
end

