-- ==== Sys2Proof/Laws/State.lean ====
section
/-! SUPPORT. What every named update of State leaves in every field, each true by unfolding, so
that no later proof unfolds a record update. -/

namespace Sys2Proof.Machine.State

variable (s : State)

/-! ### IRQEN.EN -/

@[simp] theorem setIrqen_done (b : Bool) : (s.setIrqen b).done = s.done := rfl
@[simp] theorem setIrqen_err (b : Bool) : (s.setIrqen b).err = s.err := rfl
@[simp] theorem setIrqen_wbusy (b : Bool) : (s.setIrqen b).wbusy = s.wbusy := rfl
@[simp] theorem setIrqen_cmdovr (b : Bool) : (s.setIrqen b).cmdovr = s.cmdovr := rfl
@[simp] theorem setIrqen_errcode (b : Bool) : (s.setIrqen b).errcode = s.errcode := rfl
@[simp] theorem setIrqen_irqen (b : Bool) : (s.setIrqen b).irqen = b := rfl
@[simp] theorem setIrqen_radix (b : Bool) : (s.setIrqen b).radix = s.radix := rfl
@[simp] theorem setIrqen_len (b : Bool) : (s.setIrqen b).len = s.len := rfl
@[simp] theorem setIrqen_padlen (b : Bool) : (s.setIrqen b).padlen = s.padlen := rfl
@[simp] theorem setIrqen_tl (b : Bool) : (s.setIrqen b).tl = s.tl := rfl
@[simp] theorem setIrqen_tr (b : Bool) : (s.setIrqen b).tr = s.tr := rfl
@[simp] theorem setIrqen_outlen (b : Bool) : (s.setIrqen b).outlen = s.outlen := rfl
@[simp] theorem setIrqen_vals (b : Bool) : (s.setIrqen b).vals = s.vals := rfl
@[simp] theorem setIrqen_msg (b : Bool) : (s.setIrqen b).msg = s.msg := rfl
@[simp] theorem setIrqen_fsm (b : Bool) : (s.setIrqen b).fsm = s.fsm := rfl
@[simp] theorem setIrqen_cmd (b : Bool) : (s.setIrqen b).cmd = s.cmd := rfl
@[simp] theorem setIrqen_u (b : Bool) : (s.setIrqen b).u = s.u := rfl
@[simp] theorem setIrqen_v (b : Bool) : (s.setIrqen b).v = s.v := rfl
@[simp] theorem setIrqen_ri (b : Bool) : (s.setIrqen b).ri = s.ri := rfl
@[simp] theorem setIrqen_ha (b : Bool) : (s.setIrqen b).ha = s.ha := rfl
@[simp] theorem setIrqen_hb (b : Bool) : (s.setIrqen b).hb = s.hb := rfl
@[simp] theorem setIrqen_la (b : Bool) : (s.setIrqen b).la = s.la := rfl
@[simp] theorem setIrqen_lb (b : Bool) : (s.setIrqen b).lb = s.lb := rfl
@[simp] theorem setIrqen_port (b : Bool) : (s.setIrqen b).port = s.port := rfl
@[simp] theorem setIrqen_draws (b : Bool) : (s.setIrqen b).draws = s.draws := rfl
@[simp] theorem setIrqen_bcTable (b : Bool) : (s.setIrqen b).bcTable = s.bcTable := rfl
@[simp] theorem setIrqen_turns (b : Bool) : (s.setIrqen b).turns = s.turns := rfl
@[simp] theorem setIrqen_ticks (b : Bool) : (s.setIrqen b).ticks = s.ticks := rfl
@[simp] theorem setIrqen_program (b : Bool) : (s.setIrqen b).program = s.program := rfl
@[simp] theorem setIrqen_reads (b : Bool) : (s.setIrqen b).reads = s.reads := rfl

/-! ### RADIX -/

@[simp] theorem setRadix_done (x : Word) : (s.setRadix x).done = s.done := rfl
@[simp] theorem setRadix_err (x : Word) : (s.setRadix x).err = s.err := rfl
@[simp] theorem setRadix_wbusy (x : Word) : (s.setRadix x).wbusy = s.wbusy := rfl
@[simp] theorem setRadix_cmdovr (x : Word) : (s.setRadix x).cmdovr = s.cmdovr := rfl
@[simp] theorem setRadix_errcode (x : Word) : (s.setRadix x).errcode = s.errcode := rfl
@[simp] theorem setRadix_irqen (x : Word) : (s.setRadix x).irqen = s.irqen := rfl
@[simp] theorem setRadix_radix (x : Word) : (s.setRadix x).radix = x := rfl
@[simp] theorem setRadix_len (x : Word) : (s.setRadix x).len = s.len := rfl
@[simp] theorem setRadix_padlen (x : Word) : (s.setRadix x).padlen = s.padlen := rfl
@[simp] theorem setRadix_tl (x : Word) : (s.setRadix x).tl = s.tl := rfl
@[simp] theorem setRadix_tr (x : Word) : (s.setRadix x).tr = s.tr := rfl
@[simp] theorem setRadix_outlen (x : Word) : (s.setRadix x).outlen = s.outlen := rfl
@[simp] theorem setRadix_vals (x : Word) : (s.setRadix x).vals = s.vals := rfl
@[simp] theorem setRadix_msg (x : Word) : (s.setRadix x).msg = s.msg := rfl
@[simp] theorem setRadix_fsm (x : Word) : (s.setRadix x).fsm = s.fsm := rfl
@[simp] theorem setRadix_cmd (x : Word) : (s.setRadix x).cmd = s.cmd := rfl
@[simp] theorem setRadix_u (x : Word) : (s.setRadix x).u = s.u := rfl
@[simp] theorem setRadix_v (x : Word) : (s.setRadix x).v = s.v := rfl
@[simp] theorem setRadix_ri (x : Word) : (s.setRadix x).ri = s.ri := rfl
@[simp] theorem setRadix_ha (x : Word) : (s.setRadix x).ha = s.ha := rfl
@[simp] theorem setRadix_hb (x : Word) : (s.setRadix x).hb = s.hb := rfl
@[simp] theorem setRadix_la (x : Word) : (s.setRadix x).la = s.la := rfl
@[simp] theorem setRadix_lb (x : Word) : (s.setRadix x).lb = s.lb := rfl
@[simp] theorem setRadix_port (x : Word) : (s.setRadix x).port = s.port := rfl
@[simp] theorem setRadix_draws (x : Word) : (s.setRadix x).draws = s.draws := rfl
@[simp] theorem setRadix_bcTable (x : Word) : (s.setRadix x).bcTable = s.bcTable := rfl
@[simp] theorem setRadix_turns (x : Word) : (s.setRadix x).turns = s.turns := rfl
@[simp] theorem setRadix_ticks (x : Word) : (s.setRadix x).ticks = s.ticks := rfl
@[simp] theorem setRadix_program (x : Word) : (s.setRadix x).program = s.program := rfl
@[simp] theorem setRadix_reads (x : Word) : (s.setRadix x).reads = s.reads := rfl

/-! ### LEN -/

@[simp] theorem setLen_done (x : Word) : (s.setLen x).done = s.done := rfl
@[simp] theorem setLen_err (x : Word) : (s.setLen x).err = s.err := rfl
@[simp] theorem setLen_wbusy (x : Word) : (s.setLen x).wbusy = s.wbusy := rfl
@[simp] theorem setLen_cmdovr (x : Word) : (s.setLen x).cmdovr = s.cmdovr := rfl
@[simp] theorem setLen_errcode (x : Word) : (s.setLen x).errcode = s.errcode := rfl
@[simp] theorem setLen_irqen (x : Word) : (s.setLen x).irqen = s.irqen := rfl
@[simp] theorem setLen_radix (x : Word) : (s.setLen x).radix = s.radix := rfl
@[simp] theorem setLen_len (x : Word) : (s.setLen x).len = x := rfl
@[simp] theorem setLen_padlen (x : Word) : (s.setLen x).padlen = s.padlen := rfl
@[simp] theorem setLen_tl (x : Word) : (s.setLen x).tl = s.tl := rfl
@[simp] theorem setLen_tr (x : Word) : (s.setLen x).tr = s.tr := rfl
@[simp] theorem setLen_outlen (x : Word) : (s.setLen x).outlen = s.outlen := rfl
@[simp] theorem setLen_vals (x : Word) : (s.setLen x).vals = s.vals := rfl
@[simp] theorem setLen_msg (x : Word) : (s.setLen x).msg = s.msg := rfl
@[simp] theorem setLen_fsm (x : Word) : (s.setLen x).fsm = s.fsm := rfl
@[simp] theorem setLen_cmd (x : Word) : (s.setLen x).cmd = s.cmd := rfl
@[simp] theorem setLen_u (x : Word) : (s.setLen x).u = s.u := rfl
@[simp] theorem setLen_v (x : Word) : (s.setLen x).v = s.v := rfl
@[simp] theorem setLen_ri (x : Word) : (s.setLen x).ri = s.ri := rfl
@[simp] theorem setLen_ha (x : Word) : (s.setLen x).ha = s.ha := rfl
@[simp] theorem setLen_hb (x : Word) : (s.setLen x).hb = s.hb := rfl
@[simp] theorem setLen_la (x : Word) : (s.setLen x).la = s.la := rfl
@[simp] theorem setLen_lb (x : Word) : (s.setLen x).lb = s.lb := rfl
@[simp] theorem setLen_port (x : Word) : (s.setLen x).port = s.port := rfl
@[simp] theorem setLen_draws (x : Word) : (s.setLen x).draws = s.draws := rfl
@[simp] theorem setLen_bcTable (x : Word) : (s.setLen x).bcTable = s.bcTable := rfl
@[simp] theorem setLen_turns (x : Word) : (s.setLen x).turns = s.turns := rfl
@[simp] theorem setLen_ticks (x : Word) : (s.setLen x).ticks = s.ticks := rfl
@[simp] theorem setLen_program (x : Word) : (s.setLen x).program = s.program := rfl
@[simp] theorem setLen_reads (x : Word) : (s.setLen x).reads = s.reads := rfl

/-! ### PADLEN -/

@[simp] theorem setPadlen_done (x : Word) : (s.setPadlen x).done = s.done := rfl
@[simp] theorem setPadlen_err (x : Word) : (s.setPadlen x).err = s.err := rfl
@[simp] theorem setPadlen_wbusy (x : Word) : (s.setPadlen x).wbusy = s.wbusy := rfl
@[simp] theorem setPadlen_cmdovr (x : Word) : (s.setPadlen x).cmdovr = s.cmdovr := rfl
@[simp] theorem setPadlen_errcode (x : Word) : (s.setPadlen x).errcode = s.errcode := rfl
@[simp] theorem setPadlen_irqen (x : Word) : (s.setPadlen x).irqen = s.irqen := rfl
@[simp] theorem setPadlen_radix (x : Word) : (s.setPadlen x).radix = s.radix := rfl
@[simp] theorem setPadlen_len (x : Word) : (s.setPadlen x).len = s.len := rfl
@[simp] theorem setPadlen_padlen (x : Word) : (s.setPadlen x).padlen = x := rfl
@[simp] theorem setPadlen_tl (x : Word) : (s.setPadlen x).tl = s.tl := rfl
@[simp] theorem setPadlen_tr (x : Word) : (s.setPadlen x).tr = s.tr := rfl
@[simp] theorem setPadlen_outlen (x : Word) : (s.setPadlen x).outlen = s.outlen := rfl
@[simp] theorem setPadlen_vals (x : Word) : (s.setPadlen x).vals = s.vals := rfl
@[simp] theorem setPadlen_msg (x : Word) : (s.setPadlen x).msg = s.msg := rfl
@[simp] theorem setPadlen_fsm (x : Word) : (s.setPadlen x).fsm = s.fsm := rfl
@[simp] theorem setPadlen_cmd (x : Word) : (s.setPadlen x).cmd = s.cmd := rfl
@[simp] theorem setPadlen_u (x : Word) : (s.setPadlen x).u = s.u := rfl
@[simp] theorem setPadlen_v (x : Word) : (s.setPadlen x).v = s.v := rfl
@[simp] theorem setPadlen_ri (x : Word) : (s.setPadlen x).ri = s.ri := rfl
@[simp] theorem setPadlen_ha (x : Word) : (s.setPadlen x).ha = s.ha := rfl
@[simp] theorem setPadlen_hb (x : Word) : (s.setPadlen x).hb = s.hb := rfl
@[simp] theorem setPadlen_la (x : Word) : (s.setPadlen x).la = s.la := rfl
@[simp] theorem setPadlen_lb (x : Word) : (s.setPadlen x).lb = s.lb := rfl
@[simp] theorem setPadlen_port (x : Word) : (s.setPadlen x).port = s.port := rfl
@[simp] theorem setPadlen_draws (x : Word) : (s.setPadlen x).draws = s.draws := rfl
@[simp] theorem setPadlen_bcTable (x : Word) : (s.setPadlen x).bcTable = s.bcTable := rfl
@[simp] theorem setPadlen_turns (x : Word) : (s.setPadlen x).turns = s.turns := rfl
@[simp] theorem setPadlen_ticks (x : Word) : (s.setPadlen x).ticks = s.ticks := rfl
@[simp] theorem setPadlen_program (x : Word) : (s.setPadlen x).program = s.program := rfl
@[simp] theorem setPadlen_reads (x : Word) : (s.setPadlen x).reads = s.reads := rfl

/-! ### TL -/

@[simp] theorem setTl_done (x : Word) : (s.setTl x).done = s.done := rfl
@[simp] theorem setTl_err (x : Word) : (s.setTl x).err = s.err := rfl
@[simp] theorem setTl_wbusy (x : Word) : (s.setTl x).wbusy = s.wbusy := rfl
@[simp] theorem setTl_cmdovr (x : Word) : (s.setTl x).cmdovr = s.cmdovr := rfl
@[simp] theorem setTl_errcode (x : Word) : (s.setTl x).errcode = s.errcode := rfl
@[simp] theorem setTl_irqen (x : Word) : (s.setTl x).irqen = s.irqen := rfl
@[simp] theorem setTl_radix (x : Word) : (s.setTl x).radix = s.radix := rfl
@[simp] theorem setTl_len (x : Word) : (s.setTl x).len = s.len := rfl
@[simp] theorem setTl_padlen (x : Word) : (s.setTl x).padlen = s.padlen := rfl
@[simp] theorem setTl_tl (x : Word) : (s.setTl x).tl = x := rfl
@[simp] theorem setTl_tr (x : Word) : (s.setTl x).tr = s.tr := rfl
@[simp] theorem setTl_outlen (x : Word) : (s.setTl x).outlen = s.outlen := rfl
@[simp] theorem setTl_vals (x : Word) : (s.setTl x).vals = s.vals := rfl
@[simp] theorem setTl_msg (x : Word) : (s.setTl x).msg = s.msg := rfl
@[simp] theorem setTl_fsm (x : Word) : (s.setTl x).fsm = s.fsm := rfl
@[simp] theorem setTl_cmd (x : Word) : (s.setTl x).cmd = s.cmd := rfl
@[simp] theorem setTl_u (x : Word) : (s.setTl x).u = s.u := rfl
@[simp] theorem setTl_v (x : Word) : (s.setTl x).v = s.v := rfl
@[simp] theorem setTl_ri (x : Word) : (s.setTl x).ri = s.ri := rfl
@[simp] theorem setTl_ha (x : Word) : (s.setTl x).ha = s.ha := rfl
@[simp] theorem setTl_hb (x : Word) : (s.setTl x).hb = s.hb := rfl
@[simp] theorem setTl_la (x : Word) : (s.setTl x).la = s.la := rfl
@[simp] theorem setTl_lb (x : Word) : (s.setTl x).lb = s.lb := rfl
@[simp] theorem setTl_port (x : Word) : (s.setTl x).port = s.port := rfl
@[simp] theorem setTl_draws (x : Word) : (s.setTl x).draws = s.draws := rfl
@[simp] theorem setTl_bcTable (x : Word) : (s.setTl x).bcTable = s.bcTable := rfl
@[simp] theorem setTl_turns (x : Word) : (s.setTl x).turns = s.turns := rfl
@[simp] theorem setTl_ticks (x : Word) : (s.setTl x).ticks = s.ticks := rfl
@[simp] theorem setTl_program (x : Word) : (s.setTl x).program = s.program := rfl
@[simp] theorem setTl_reads (x : Word) : (s.setTl x).reads = s.reads := rfl

/-! ### TR -/

@[simp] theorem setTr_done (x : Word) : (s.setTr x).done = s.done := rfl
@[simp] theorem setTr_err (x : Word) : (s.setTr x).err = s.err := rfl
@[simp] theorem setTr_wbusy (x : Word) : (s.setTr x).wbusy = s.wbusy := rfl
@[simp] theorem setTr_cmdovr (x : Word) : (s.setTr x).cmdovr = s.cmdovr := rfl
@[simp] theorem setTr_errcode (x : Word) : (s.setTr x).errcode = s.errcode := rfl
@[simp] theorem setTr_irqen (x : Word) : (s.setTr x).irqen = s.irqen := rfl
@[simp] theorem setTr_radix (x : Word) : (s.setTr x).radix = s.radix := rfl
@[simp] theorem setTr_len (x : Word) : (s.setTr x).len = s.len := rfl
@[simp] theorem setTr_padlen (x : Word) : (s.setTr x).padlen = s.padlen := rfl
@[simp] theorem setTr_tl (x : Word) : (s.setTr x).tl = s.tl := rfl
@[simp] theorem setTr_tr (x : Word) : (s.setTr x).tr = x := rfl
@[simp] theorem setTr_outlen (x : Word) : (s.setTr x).outlen = s.outlen := rfl
@[simp] theorem setTr_vals (x : Word) : (s.setTr x).vals = s.vals := rfl
@[simp] theorem setTr_msg (x : Word) : (s.setTr x).msg = s.msg := rfl
@[simp] theorem setTr_fsm (x : Word) : (s.setTr x).fsm = s.fsm := rfl
@[simp] theorem setTr_cmd (x : Word) : (s.setTr x).cmd = s.cmd := rfl
@[simp] theorem setTr_u (x : Word) : (s.setTr x).u = s.u := rfl
@[simp] theorem setTr_v (x : Word) : (s.setTr x).v = s.v := rfl
@[simp] theorem setTr_ri (x : Word) : (s.setTr x).ri = s.ri := rfl
@[simp] theorem setTr_ha (x : Word) : (s.setTr x).ha = s.ha := rfl
@[simp] theorem setTr_hb (x : Word) : (s.setTr x).hb = s.hb := rfl
@[simp] theorem setTr_la (x : Word) : (s.setTr x).la = s.la := rfl
@[simp] theorem setTr_lb (x : Word) : (s.setTr x).lb = s.lb := rfl
@[simp] theorem setTr_port (x : Word) : (s.setTr x).port = s.port := rfl
@[simp] theorem setTr_draws (x : Word) : (s.setTr x).draws = s.draws := rfl
@[simp] theorem setTr_bcTable (x : Word) : (s.setTr x).bcTable = s.bcTable := rfl
@[simp] theorem setTr_turns (x : Word) : (s.setTr x).turns = s.turns := rfl
@[simp] theorem setTr_ticks (x : Word) : (s.setTr x).ticks = s.ticks := rfl
@[simp] theorem setTr_program (x : Word) : (s.setTr x).program = s.program := rfl
@[simp] theorem setTr_reads (x : Word) : (s.setTr x).reads = s.reads := rfl

/-! ### VAL -/

@[simp] theorem setVals_done (vs : Vector Word 6) : (s.setVals vs).done = s.done := rfl
@[simp] theorem setVals_err (vs : Vector Word 6) : (s.setVals vs).err = s.err := rfl
@[simp] theorem setVals_wbusy (vs : Vector Word 6) : (s.setVals vs).wbusy = s.wbusy := rfl
@[simp] theorem setVals_cmdovr (vs : Vector Word 6) : (s.setVals vs).cmdovr = s.cmdovr := rfl
@[simp] theorem setVals_errcode (vs : Vector Word 6) : (s.setVals vs).errcode = s.errcode := rfl
@[simp] theorem setVals_irqen (vs : Vector Word 6) : (s.setVals vs).irqen = s.irqen := rfl
@[simp] theorem setVals_radix (vs : Vector Word 6) : (s.setVals vs).radix = s.radix := rfl
@[simp] theorem setVals_len (vs : Vector Word 6) : (s.setVals vs).len = s.len := rfl
@[simp] theorem setVals_padlen (vs : Vector Word 6) : (s.setVals vs).padlen = s.padlen := rfl
@[simp] theorem setVals_tl (vs : Vector Word 6) : (s.setVals vs).tl = s.tl := rfl
@[simp] theorem setVals_tr (vs : Vector Word 6) : (s.setVals vs).tr = s.tr := rfl
@[simp] theorem setVals_outlen (vs : Vector Word 6) : (s.setVals vs).outlen = s.outlen := rfl
@[simp] theorem setVals_vals (vs : Vector Word 6) : (s.setVals vs).vals = vs := rfl
@[simp] theorem setVals_msg (vs : Vector Word 6) : (s.setVals vs).msg = s.msg := rfl
@[simp] theorem setVals_fsm (vs : Vector Word 6) : (s.setVals vs).fsm = s.fsm := rfl
@[simp] theorem setVals_cmd (vs : Vector Word 6) : (s.setVals vs).cmd = s.cmd := rfl
@[simp] theorem setVals_u (vs : Vector Word 6) : (s.setVals vs).u = s.u := rfl
@[simp] theorem setVals_v (vs : Vector Word 6) : (s.setVals vs).v = s.v := rfl
@[simp] theorem setVals_ri (vs : Vector Word 6) : (s.setVals vs).ri = s.ri := rfl
@[simp] theorem setVals_ha (vs : Vector Word 6) : (s.setVals vs).ha = s.ha := rfl
@[simp] theorem setVals_hb (vs : Vector Word 6) : (s.setVals vs).hb = s.hb := rfl
@[simp] theorem setVals_la (vs : Vector Word 6) : (s.setVals vs).la = s.la := rfl
@[simp] theorem setVals_lb (vs : Vector Word 6) : (s.setVals vs).lb = s.lb := rfl
@[simp] theorem setVals_port (vs : Vector Word 6) : (s.setVals vs).port = s.port := rfl
@[simp] theorem setVals_draws (vs : Vector Word 6) : (s.setVals vs).draws = s.draws := rfl
@[simp] theorem setVals_bcTable (vs : Vector Word 6) : (s.setVals vs).bcTable = s.bcTable := rfl
@[simp] theorem setVals_turns (vs : Vector Word 6) : (s.setVals vs).turns = s.turns := rfl
@[simp] theorem setVals_ticks (vs : Vector Word 6) : (s.setVals vs).ticks = s.ticks := rfl
@[simp] theorem setVals_program (vs : Vector Word 6) : (s.setVals vs).program = s.program := rfl
@[simp] theorem setVals_reads (vs : Vector Word 6) : (s.setVals vs).reads = s.reads := rfl

/-! ### OUTLEN -/

@[simp] theorem setOutlen_done (n : Byte) : (s.setOutlen n).done = s.done := rfl
@[simp] theorem setOutlen_err (n : Byte) : (s.setOutlen n).err = s.err := rfl
@[simp] theorem setOutlen_wbusy (n : Byte) : (s.setOutlen n).wbusy = s.wbusy := rfl
@[simp] theorem setOutlen_cmdovr (n : Byte) : (s.setOutlen n).cmdovr = s.cmdovr := rfl
@[simp] theorem setOutlen_errcode (n : Byte) : (s.setOutlen n).errcode = s.errcode := rfl
@[simp] theorem setOutlen_irqen (n : Byte) : (s.setOutlen n).irqen = s.irqen := rfl
@[simp] theorem setOutlen_radix (n : Byte) : (s.setOutlen n).radix = s.radix := rfl
@[simp] theorem setOutlen_len (n : Byte) : (s.setOutlen n).len = s.len := rfl
@[simp] theorem setOutlen_padlen (n : Byte) : (s.setOutlen n).padlen = s.padlen := rfl
@[simp] theorem setOutlen_tl (n : Byte) : (s.setOutlen n).tl = s.tl := rfl
@[simp] theorem setOutlen_tr (n : Byte) : (s.setOutlen n).tr = s.tr := rfl
@[simp] theorem setOutlen_outlen (n : Byte) : (s.setOutlen n).outlen = n := rfl
@[simp] theorem setOutlen_vals (n : Byte) : (s.setOutlen n).vals = s.vals := rfl
@[simp] theorem setOutlen_msg (n : Byte) : (s.setOutlen n).msg = s.msg := rfl
@[simp] theorem setOutlen_fsm (n : Byte) : (s.setOutlen n).fsm = s.fsm := rfl
@[simp] theorem setOutlen_cmd (n : Byte) : (s.setOutlen n).cmd = s.cmd := rfl
@[simp] theorem setOutlen_u (n : Byte) : (s.setOutlen n).u = s.u := rfl
@[simp] theorem setOutlen_v (n : Byte) : (s.setOutlen n).v = s.v := rfl
@[simp] theorem setOutlen_ri (n : Byte) : (s.setOutlen n).ri = s.ri := rfl
@[simp] theorem setOutlen_ha (n : Byte) : (s.setOutlen n).ha = s.ha := rfl
@[simp] theorem setOutlen_hb (n : Byte) : (s.setOutlen n).hb = s.hb := rfl
@[simp] theorem setOutlen_la (n : Byte) : (s.setOutlen n).la = s.la := rfl
@[simp] theorem setOutlen_lb (n : Byte) : (s.setOutlen n).lb = s.lb := rfl
@[simp] theorem setOutlen_port (n : Byte) : (s.setOutlen n).port = s.port := rfl
@[simp] theorem setOutlen_draws (n : Byte) : (s.setOutlen n).draws = s.draws := rfl
@[simp] theorem setOutlen_bcTable (n : Byte) : (s.setOutlen n).bcTable = s.bcTable := rfl
@[simp] theorem setOutlen_turns (n : Byte) : (s.setOutlen n).turns = s.turns := rfl
@[simp] theorem setOutlen_ticks (n : Byte) : (s.setOutlen n).ticks = s.ticks := rfl
@[simp] theorem setOutlen_program (n : Byte) : (s.setOutlen n).program = s.program := rfl
@[simp] theorem setOutlen_reads (n : Byte) : (s.setOutlen n).reads = s.reads := rfl

/-! ### The port -/

@[simp] theorem setPort_done (p : Port) : (s.setPort p).done = s.done := rfl
@[simp] theorem setPort_err (p : Port) : (s.setPort p).err = s.err := rfl
@[simp] theorem setPort_wbusy (p : Port) : (s.setPort p).wbusy = s.wbusy := rfl
@[simp] theorem setPort_cmdovr (p : Port) : (s.setPort p).cmdovr = s.cmdovr := rfl
@[simp] theorem setPort_errcode (p : Port) : (s.setPort p).errcode = s.errcode := rfl
@[simp] theorem setPort_irqen (p : Port) : (s.setPort p).irqen = s.irqen := rfl
@[simp] theorem setPort_radix (p : Port) : (s.setPort p).radix = s.radix := rfl
@[simp] theorem setPort_len (p : Port) : (s.setPort p).len = s.len := rfl
@[simp] theorem setPort_padlen (p : Port) : (s.setPort p).padlen = s.padlen := rfl
@[simp] theorem setPort_tl (p : Port) : (s.setPort p).tl = s.tl := rfl
@[simp] theorem setPort_tr (p : Port) : (s.setPort p).tr = s.tr := rfl
@[simp] theorem setPort_outlen (p : Port) : (s.setPort p).outlen = s.outlen := rfl
@[simp] theorem setPort_vals (p : Port) : (s.setPort p).vals = s.vals := rfl
@[simp] theorem setPort_msg (p : Port) : (s.setPort p).msg = s.msg := rfl
@[simp] theorem setPort_fsm (p : Port) : (s.setPort p).fsm = s.fsm := rfl
@[simp] theorem setPort_cmd (p : Port) : (s.setPort p).cmd = s.cmd := rfl
@[simp] theorem setPort_u (p : Port) : (s.setPort p).u = s.u := rfl
@[simp] theorem setPort_v (p : Port) : (s.setPort p).v = s.v := rfl
@[simp] theorem setPort_ri (p : Port) : (s.setPort p).ri = s.ri := rfl
@[simp] theorem setPort_ha (p : Port) : (s.setPort p).ha = s.ha := rfl
@[simp] theorem setPort_hb (p : Port) : (s.setPort p).hb = s.hb := rfl
@[simp] theorem setPort_la (p : Port) : (s.setPort p).la = s.la := rfl
@[simp] theorem setPort_lb (p : Port) : (s.setPort p).lb = s.lb := rfl
@[simp] theorem setPort_port (p : Port) : (s.setPort p).port = p := rfl
@[simp] theorem setPort_draws (p : Port) : (s.setPort p).draws = s.draws := rfl
@[simp] theorem setPort_bcTable (p : Port) : (s.setPort p).bcTable = s.bcTable := rfl
@[simp] theorem setPort_turns (p : Port) : (s.setPort p).turns = s.turns := rfl
@[simp] theorem setPort_ticks (p : Port) : (s.setPort p).ticks = s.ticks := rfl
@[simp] theorem setPort_program (p : Port) : (s.setPort p).program = s.program := rfl
@[simp] theorem setPort_reads (p : Port) : (s.setPort p).reads = s.reads := rfl

/-! ### The schedule -/

@[simp] theorem setTurns_done (ts : List Turn) (n : Nat) : (s.setTurns ts n).done = s.done := rfl
@[simp] theorem setTurns_err (ts : List Turn) (n : Nat) : (s.setTurns ts n).err = s.err := rfl
@[simp] theorem setTurns_wbusy (ts : List Turn) (n : Nat) : (s.setTurns ts n).wbusy = s.wbusy := rfl
@[simp] theorem setTurns_cmdovr (ts : List Turn) (n : Nat) :
    (s.setTurns ts n).cmdovr = s.cmdovr := rfl
@[simp] theorem setTurns_errcode (ts : List Turn) (n : Nat) :
    (s.setTurns ts n).errcode = s.errcode := rfl
@[simp] theorem setTurns_irqen (ts : List Turn) (n : Nat) : (s.setTurns ts n).irqen = s.irqen := rfl
@[simp] theorem setTurns_radix (ts : List Turn) (n : Nat) : (s.setTurns ts n).radix = s.radix := rfl
@[simp] theorem setTurns_len (ts : List Turn) (n : Nat) : (s.setTurns ts n).len = s.len := rfl
@[simp] theorem setTurns_padlen (ts : List Turn) (n : Nat) :
    (s.setTurns ts n).padlen = s.padlen := rfl
@[simp] theorem setTurns_tl (ts : List Turn) (n : Nat) : (s.setTurns ts n).tl = s.tl := rfl
@[simp] theorem setTurns_tr (ts : List Turn) (n : Nat) : (s.setTurns ts n).tr = s.tr := rfl
@[simp] theorem setTurns_outlen (ts : List Turn) (n : Nat) :
    (s.setTurns ts n).outlen = s.outlen := rfl
@[simp] theorem setTurns_vals (ts : List Turn) (n : Nat) : (s.setTurns ts n).vals = s.vals := rfl
@[simp] theorem setTurns_msg (ts : List Turn) (n : Nat) : (s.setTurns ts n).msg = s.msg := rfl
@[simp] theorem setTurns_fsm (ts : List Turn) (n : Nat) : (s.setTurns ts n).fsm = s.fsm := rfl
@[simp] theorem setTurns_cmd (ts : List Turn) (n : Nat) : (s.setTurns ts n).cmd = s.cmd := rfl
@[simp] theorem setTurns_u (ts : List Turn) (n : Nat) : (s.setTurns ts n).u = s.u := rfl
@[simp] theorem setTurns_v (ts : List Turn) (n : Nat) : (s.setTurns ts n).v = s.v := rfl
@[simp] theorem setTurns_ri (ts : List Turn) (n : Nat) : (s.setTurns ts n).ri = s.ri := rfl
@[simp] theorem setTurns_ha (ts : List Turn) (n : Nat) : (s.setTurns ts n).ha = s.ha := rfl
@[simp] theorem setTurns_hb (ts : List Turn) (n : Nat) : (s.setTurns ts n).hb = s.hb := rfl
@[simp] theorem setTurns_la (ts : List Turn) (n : Nat) : (s.setTurns ts n).la = s.la := rfl
@[simp] theorem setTurns_lb (ts : List Turn) (n : Nat) : (s.setTurns ts n).lb = s.lb := rfl
@[simp] theorem setTurns_port (ts : List Turn) (n : Nat) : (s.setTurns ts n).port = s.port := rfl
@[simp] theorem setTurns_draws (ts : List Turn) (n : Nat) : (s.setTurns ts n).draws = s.draws := rfl
@[simp] theorem setTurns_bcTable (ts : List Turn) (n : Nat) :
    (s.setTurns ts n).bcTable = s.bcTable := rfl
@[simp] theorem setTurns_turns (ts : List Turn) (n : Nat) : (s.setTurns ts n).turns = ts := rfl
@[simp] theorem setTurns_ticks (ts : List Turn) (n : Nat) : (s.setTurns ts n).ticks = n := rfl
@[simp] theorem setTurns_program (ts : List Turn) (n : Nat) :
    (s.setTurns ts n).program = s.program := rfl
@[simp] theorem setTurns_reads (ts : List Turn) (n : Nat) : (s.setTurns ts n).reads = s.reads := rfl

/-! ### The host -/

@[simp] theorem setHost_done (p : List HostOp) (rs : List (Offset × Word)) :
    (s.setHost p rs).done = s.done := rfl
@[simp] theorem setHost_err (p : List HostOp) (rs : List (Offset × Word)) :
    (s.setHost p rs).err = s.err := rfl
@[simp] theorem setHost_wbusy (p : List HostOp) (rs : List (Offset × Word)) :
    (s.setHost p rs).wbusy = s.wbusy := rfl
@[simp] theorem setHost_cmdovr (p : List HostOp) (rs : List (Offset × Word)) :
    (s.setHost p rs).cmdovr = s.cmdovr := rfl
@[simp] theorem setHost_errcode (p : List HostOp) (rs : List (Offset × Word)) :
    (s.setHost p rs).errcode = s.errcode := rfl
@[simp] theorem setHost_irqen (p : List HostOp) (rs : List (Offset × Word)) :
    (s.setHost p rs).irqen = s.irqen := rfl
@[simp] theorem setHost_radix (p : List HostOp) (rs : List (Offset × Word)) :
    (s.setHost p rs).radix = s.radix := rfl
@[simp] theorem setHost_len (p : List HostOp) (rs : List (Offset × Word)) :
    (s.setHost p rs).len = s.len := rfl
@[simp] theorem setHost_padlen (p : List HostOp) (rs : List (Offset × Word)) :
    (s.setHost p rs).padlen = s.padlen := rfl
@[simp] theorem setHost_tl (p : List HostOp) (rs : List (Offset × Word)) :
    (s.setHost p rs).tl = s.tl := rfl
@[simp] theorem setHost_tr (p : List HostOp) (rs : List (Offset × Word)) :
    (s.setHost p rs).tr = s.tr := rfl
@[simp] theorem setHost_outlen (p : List HostOp) (rs : List (Offset × Word)) :
    (s.setHost p rs).outlen = s.outlen := rfl
@[simp] theorem setHost_vals (p : List HostOp) (rs : List (Offset × Word)) :
    (s.setHost p rs).vals = s.vals := rfl
@[simp] theorem setHost_msg (p : List HostOp) (rs : List (Offset × Word)) :
    (s.setHost p rs).msg = s.msg := rfl
@[simp] theorem setHost_fsm (p : List HostOp) (rs : List (Offset × Word)) :
    (s.setHost p rs).fsm = s.fsm := rfl
@[simp] theorem setHost_cmd (p : List HostOp) (rs : List (Offset × Word)) :
    (s.setHost p rs).cmd = s.cmd := rfl
@[simp] theorem setHost_u (p : List HostOp) (rs : List (Offset × Word)) :
    (s.setHost p rs).u = s.u := rfl
@[simp] theorem setHost_v (p : List HostOp) (rs : List (Offset × Word)) :
    (s.setHost p rs).v = s.v := rfl
@[simp] theorem setHost_ri (p : List HostOp) (rs : List (Offset × Word)) :
    (s.setHost p rs).ri = s.ri := rfl
@[simp] theorem setHost_ha (p : List HostOp) (rs : List (Offset × Word)) :
    (s.setHost p rs).ha = s.ha := rfl
@[simp] theorem setHost_hb (p : List HostOp) (rs : List (Offset × Word)) :
    (s.setHost p rs).hb = s.hb := rfl
@[simp] theorem setHost_la (p : List HostOp) (rs : List (Offset × Word)) :
    (s.setHost p rs).la = s.la := rfl
@[simp] theorem setHost_lb (p : List HostOp) (rs : List (Offset × Word)) :
    (s.setHost p rs).lb = s.lb := rfl
@[simp] theorem setHost_port (p : List HostOp) (rs : List (Offset × Word)) :
    (s.setHost p rs).port = s.port := rfl
@[simp] theorem setHost_draws (p : List HostOp) (rs : List (Offset × Word)) :
    (s.setHost p rs).draws = s.draws := rfl
@[simp] theorem setHost_bcTable (p : List HostOp) (rs : List (Offset × Word)) :
    (s.setHost p rs).bcTable = s.bcTable := rfl
@[simp] theorem setHost_turns (p : List HostOp) (rs : List (Offset × Word)) :
    (s.setHost p rs).turns = s.turns := rfl
@[simp] theorem setHost_ticks (p : List HostOp) (rs : List (Offset × Word)) :
    (s.setHost p rs).ticks = s.ticks := rfl
@[simp] theorem setHost_program (p : List HostOp) (rs : List (Offset × Word)) :
    (s.setHost p rs).program = p := rfl
@[simp] theorem setHost_reads (p : List HostOp) (rs : List (Offset × Word)) :
    (s.setHost p rs).reads = rs := rfl

/-! ### The next round (42_feistel_engine.md R180) -/

@[simp] theorem nextRound_done (i : BitVec 3) : (s.nextRound i).done = s.done := rfl
@[simp] theorem nextRound_err (i : BitVec 3) : (s.nextRound i).err = s.err := rfl
@[simp] theorem nextRound_wbusy (i : BitVec 3) : (s.nextRound i).wbusy = s.wbusy := rfl
@[simp] theorem nextRound_cmdovr (i : BitVec 3) : (s.nextRound i).cmdovr = s.cmdovr := rfl
@[simp] theorem nextRound_errcode (i : BitVec 3) : (s.nextRound i).errcode = s.errcode := rfl
@[simp] theorem nextRound_irqen (i : BitVec 3) : (s.nextRound i).irqen = s.irqen := rfl
@[simp] theorem nextRound_radix (i : BitVec 3) : (s.nextRound i).radix = s.radix := rfl
@[simp] theorem nextRound_len (i : BitVec 3) : (s.nextRound i).len = s.len := rfl
@[simp] theorem nextRound_padlen (i : BitVec 3) : (s.nextRound i).padlen = s.padlen := rfl
@[simp] theorem nextRound_tl (i : BitVec 3) : (s.nextRound i).tl = s.tl := rfl
@[simp] theorem nextRound_tr (i : BitVec 3) : (s.nextRound i).tr = s.tr := rfl
@[simp] theorem nextRound_outlen (i : BitVec 3) : (s.nextRound i).outlen = s.outlen := rfl
@[simp] theorem nextRound_vals (i : BitVec 3) : (s.nextRound i).vals = s.vals := rfl
@[simp] theorem nextRound_msg (i : BitVec 3) : (s.nextRound i).msg = s.msg := rfl
@[simp] theorem nextRound_fsm (i : BitVec 3) : (s.nextRound i).fsm = .issue := rfl
@[simp] theorem nextRound_cmd (i : BitVec 3) : (s.nextRound i).cmd = s.cmd := rfl
@[simp] theorem nextRound_u (i : BitVec 3) : (s.nextRound i).u = s.u := rfl
@[simp] theorem nextRound_v (i : BitVec 3) : (s.nextRound i).v = s.v := rfl
@[simp] theorem nextRound_ri (i : BitVec 3) : (s.nextRound i).ri = i := rfl
@[simp] theorem nextRound_ha (i : BitVec 3) : (s.nextRound i).ha = s.ha := rfl
@[simp] theorem nextRound_hb (i : BitVec 3) : (s.nextRound i).hb = s.hb := rfl
@[simp] theorem nextRound_la (i : BitVec 3) : (s.nextRound i).la = s.la := rfl
@[simp] theorem nextRound_lb (i : BitVec 3) : (s.nextRound i).lb = s.lb := rfl
@[simp] theorem nextRound_port (i : BitVec 3) : (s.nextRound i).port = s.port := rfl
@[simp] theorem nextRound_draws (i : BitVec 3) : (s.nextRound i).draws = s.draws := rfl
@[simp] theorem nextRound_bcTable (i : BitVec 3) : (s.nextRound i).bcTable = s.bcTable := rfl
@[simp] theorem nextRound_turns (i : BitVec 3) : (s.nextRound i).turns = s.turns := rfl
@[simp] theorem nextRound_ticks (i : BitVec 3) : (s.nextRound i).ticks = s.ticks := rfl
@[simp] theorem nextRound_program (i : BitVec 3) : (s.nextRound i).program = s.program := rfl
@[simp] theorem nextRound_reads (i : BitVec 3) : (s.nextRound i).reads = s.reads := rfl

/-! ### Accepting a command (40_control.md R121) -/

@[simp] theorem accept_done (w : Word) : (s.accept w).done = false := rfl
@[simp] theorem accept_err (w : Word) : (s.accept w).err = false := rfl
@[simp] theorem accept_wbusy (w : Word) : (s.accept w).wbusy = s.wbusy := rfl
@[simp] theorem accept_cmdovr (w : Word) : (s.accept w).cmdovr = s.cmdovr := rfl
@[simp] theorem accept_errcode (w : Word) : (s.accept w).errcode = 0 := rfl
@[simp] theorem accept_irqen (w : Word) : (s.accept w).irqen = s.irqen := rfl
@[simp] theorem accept_radix (w : Word) : (s.accept w).radix = s.radix := rfl
@[simp] theorem accept_len (w : Word) : (s.accept w).len = s.len := rfl
@[simp] theorem accept_padlen (w : Word) : (s.accept w).padlen = s.padlen := rfl
@[simp] theorem accept_tl (w : Word) : (s.accept w).tl = s.tl := rfl
@[simp] theorem accept_tr (w : Word) : (s.accept w).tr = s.tr := rfl
@[simp] theorem accept_outlen (w : Word) : (s.accept w).outlen = s.outlen := rfl
@[simp] theorem accept_vals (w : Word) : (s.accept w).vals = s.vals := rfl
@[simp] theorem accept_msg (w : Word) : (s.accept w).msg = s.msg := rfl
@[simp] theorem accept_fsm (w : Word) : (s.accept w).fsm = .check := rfl
@[simp] theorem accept_cmd (w : Word) : (s.accept w).cmd = w := rfl
@[simp] theorem accept_u (w : Word) : (s.accept w).u = s.u := rfl
@[simp] theorem accept_v (w : Word) : (s.accept w).v = s.v := rfl
@[simp] theorem accept_ri (w : Word) : (s.accept w).ri = s.ri := rfl
@[simp] theorem accept_ha (w : Word) : (s.accept w).ha = s.ha := rfl
@[simp] theorem accept_hb (w : Word) : (s.accept w).hb = s.hb := rfl
@[simp] theorem accept_la (w : Word) : (s.accept w).la = s.la := rfl
@[simp] theorem accept_lb (w : Word) : (s.accept w).lb = s.lb := rfl
@[simp] theorem accept_port (w : Word) : (s.accept w).port = s.port := rfl
@[simp] theorem accept_draws (w : Word) : (s.accept w).draws = s.draws := rfl
@[simp] theorem accept_bcTable (w : Word) : (s.accept w).bcTable = s.bcTable := rfl
@[simp] theorem accept_turns (w : Word) : (s.accept w).turns = s.turns := rfl
@[simp] theorem accept_ticks (w : Word) : (s.accept w).ticks = s.ticks := rfl
@[simp] theorem accept_program (w : Word) : (s.accept w).program = s.program := rfl
@[simp] theorem accept_reads (w : Word) : (s.accept w).reads = s.reads := rfl

/-! ### Taking an error (40_control.md R127) -/

@[simp] theorem fail_done (c : ErrCode) : (s.fail c).done = true := rfl
@[simp] theorem fail_err (c : ErrCode) : (s.fail c).err = true := rfl
@[simp] theorem fail_wbusy (c : ErrCode) : (s.fail c).wbusy = s.wbusy := rfl
@[simp] theorem fail_cmdovr (c : ErrCode) : (s.fail c).cmdovr = s.cmdovr := rfl
@[simp] theorem fail_errcode (c : ErrCode) : (s.fail c).errcode = c.bits := rfl
@[simp] theorem fail_irqen (c : ErrCode) : (s.fail c).irqen = s.irqen := rfl
@[simp] theorem fail_radix (c : ErrCode) : (s.fail c).radix = s.radix := rfl
@[simp] theorem fail_len (c : ErrCode) : (s.fail c).len = s.len := rfl
@[simp] theorem fail_padlen (c : ErrCode) : (s.fail c).padlen = s.padlen := rfl
@[simp] theorem fail_tl (c : ErrCode) : (s.fail c).tl = s.tl := rfl
@[simp] theorem fail_tr (c : ErrCode) : (s.fail c).tr = s.tr := rfl
@[simp] theorem fail_outlen (c : ErrCode) : (s.fail c).outlen = s.outlen := rfl
@[simp] theorem fail_vals (c : ErrCode) : (s.fail c).vals = s.vals := rfl
@[simp] theorem fail_msg (c : ErrCode) : (s.fail c).msg = s.msg := rfl
@[simp] theorem fail_fsm (c : ErrCode) : (s.fail c).fsm = .idle := rfl
@[simp] theorem fail_cmd (c : ErrCode) : (s.fail c).cmd = s.cmd := rfl
@[simp] theorem fail_u (c : ErrCode) : (s.fail c).u = s.u := rfl
@[simp] theorem fail_v (c : ErrCode) : (s.fail c).v = s.v := rfl
@[simp] theorem fail_ri (c : ErrCode) : (s.fail c).ri = s.ri := rfl
@[simp] theorem fail_ha (c : ErrCode) : (s.fail c).ha = s.ha := rfl
@[simp] theorem fail_hb (c : ErrCode) : (s.fail c).hb = s.hb := rfl
@[simp] theorem fail_la (c : ErrCode) : (s.fail c).la = s.la := rfl
@[simp] theorem fail_lb (c : ErrCode) : (s.fail c).lb = s.lb := rfl
@[simp] theorem fail_port (c : ErrCode) : (s.fail c).port = s.port := rfl
@[simp] theorem fail_draws (c : ErrCode) : (s.fail c).draws = s.draws := rfl
@[simp] theorem fail_bcTable (c : ErrCode) : (s.fail c).bcTable = s.bcTable := rfl
@[simp] theorem fail_turns (c : ErrCode) : (s.fail c).turns = s.turns := rfl
@[simp] theorem fail_ticks (c : ErrCode) : (s.fail c).ticks = s.ticks := rfl
@[simp] theorem fail_program (c : ErrCode) : (s.fail c).program = s.program := rfl
@[simp] theorem fail_reads (c : ErrCode) : (s.fail c).reads = s.reads := rfl

/-! ### Completing (40_control.md R128) -/

@[simp] theorem complete_done : (s.complete).done = true := rfl
@[simp] theorem complete_err : (s.complete).err = s.err := rfl
@[simp] theorem complete_wbusy : (s.complete).wbusy = s.wbusy := rfl
@[simp] theorem complete_cmdovr : (s.complete).cmdovr = s.cmdovr := rfl
@[simp] theorem complete_errcode : (s.complete).errcode = s.errcode := rfl
@[simp] theorem complete_irqen : (s.complete).irqen = s.irqen := rfl
@[simp] theorem complete_radix : (s.complete).radix = s.radix := rfl
@[simp] theorem complete_len : (s.complete).len = s.len := rfl
@[simp] theorem complete_padlen : (s.complete).padlen = s.padlen := rfl
@[simp] theorem complete_tl : (s.complete).tl = s.tl := rfl
@[simp] theorem complete_tr : (s.complete).tr = s.tr := rfl
@[simp] theorem complete_outlen : (s.complete).outlen = s.outlen := rfl
@[simp] theorem complete_vals : (s.complete).vals = s.vals := rfl
@[simp] theorem complete_msg : (s.complete).msg = s.msg := rfl
@[simp] theorem complete_fsm : (s.complete).fsm = .idle := rfl
@[simp] theorem complete_cmd : (s.complete).cmd = s.cmd := rfl
@[simp] theorem complete_u : (s.complete).u = s.u := rfl
@[simp] theorem complete_v : (s.complete).v = s.v := rfl
@[simp] theorem complete_ri : (s.complete).ri = s.ri := rfl
@[simp] theorem complete_ha : (s.complete).ha = s.ha := rfl
@[simp] theorem complete_hb : (s.complete).hb = s.hb := rfl
@[simp] theorem complete_la : (s.complete).la = s.la := rfl
@[simp] theorem complete_lb : (s.complete).lb = s.lb := rfl
@[simp] theorem complete_port : (s.complete).port = s.port := rfl
@[simp] theorem complete_draws : (s.complete).draws = s.draws := rfl
@[simp] theorem complete_bcTable : (s.complete).bcTable = s.bcTable := rfl
@[simp] theorem complete_turns : (s.complete).turns = s.turns := rfl
@[simp] theorem complete_ticks : (s.complete).ticks = s.ticks := rfl
@[simp] theorem complete_program : (s.complete).program = s.program := rfl
@[simp] theorem complete_reads : (s.complete).reads = s.reads := rfl

/-! ### A write to STATUS (10_state.md R33) -/

@[simp] theorem clearStatus_done (w : Word) :
    (s.clearStatus w).done = (s.done && !w.getLsbD 1) := rfl
@[simp] theorem clearStatus_err (w : Word) : (s.clearStatus w).err = (s.err && !w.getLsbD 2) := rfl
@[simp] theorem clearStatus_wbusy (w : Word) :
    (s.clearStatus w).wbusy = (s.wbusy && !w.getLsbD 3) := rfl
@[simp] theorem clearStatus_cmdovr (w : Word) :
    (s.clearStatus w).cmdovr = (s.cmdovr && !w.getLsbD 4) := rfl
@[simp] theorem clearStatus_errcode (w : Word) :
    (s.clearStatus w).errcode = (if w.getLsbD 2 then 0 else s.errcode) := rfl
@[simp] theorem clearStatus_irqen (w : Word) : (s.clearStatus w).irqen = s.irqen := rfl
@[simp] theorem clearStatus_radix (w : Word) : (s.clearStatus w).radix = s.radix := rfl
@[simp] theorem clearStatus_len (w : Word) : (s.clearStatus w).len = s.len := rfl
@[simp] theorem clearStatus_padlen (w : Word) : (s.clearStatus w).padlen = s.padlen := rfl
@[simp] theorem clearStatus_tl (w : Word) : (s.clearStatus w).tl = s.tl := rfl
@[simp] theorem clearStatus_tr (w : Word) : (s.clearStatus w).tr = s.tr := rfl
@[simp] theorem clearStatus_outlen (w : Word) : (s.clearStatus w).outlen = s.outlen := rfl
@[simp] theorem clearStatus_vals (w : Word) : (s.clearStatus w).vals = s.vals := rfl
@[simp] theorem clearStatus_msg (w : Word) : (s.clearStatus w).msg = s.msg := rfl
@[simp] theorem clearStatus_fsm (w : Word) : (s.clearStatus w).fsm = s.fsm := rfl
@[simp] theorem clearStatus_cmd (w : Word) : (s.clearStatus w).cmd = s.cmd := rfl
@[simp] theorem clearStatus_u (w : Word) : (s.clearStatus w).u = s.u := rfl
@[simp] theorem clearStatus_v (w : Word) : (s.clearStatus w).v = s.v := rfl
@[simp] theorem clearStatus_ri (w : Word) : (s.clearStatus w).ri = s.ri := rfl
@[simp] theorem clearStatus_ha (w : Word) : (s.clearStatus w).ha = s.ha := rfl
@[simp] theorem clearStatus_hb (w : Word) : (s.clearStatus w).hb = s.hb := rfl
@[simp] theorem clearStatus_la (w : Word) : (s.clearStatus w).la = s.la := rfl
@[simp] theorem clearStatus_lb (w : Word) : (s.clearStatus w).lb = s.lb := rfl
@[simp] theorem clearStatus_port (w : Word) : (s.clearStatus w).port = s.port := rfl
@[simp] theorem clearStatus_draws (w : Word) : (s.clearStatus w).draws = s.draws := rfl
@[simp] theorem clearStatus_bcTable (w : Word) : (s.clearStatus w).bcTable = s.bcTable := rfl
@[simp] theorem clearStatus_turns (w : Word) : (s.clearStatus w).turns = s.turns := rfl
@[simp] theorem clearStatus_ticks (w : Word) : (s.clearStatus w).ticks = s.ticks := rfl
@[simp] theorem clearStatus_program (w : Word) : (s.clearStatus w).program = s.program := rfl
@[simp] theorem clearStatus_reads (w : Word) : (s.clearStatus w).reads = s.reads := rfl

/-! ### A dropped write (40_control.md R131) -/

@[simp] theorem writeDropped_done : (s.writeDropped).done = s.done := rfl
@[simp] theorem writeDropped_err : (s.writeDropped).err = s.err := rfl
@[simp] theorem writeDropped_wbusy : (s.writeDropped).wbusy = true := rfl
@[simp] theorem writeDropped_cmdovr : (s.writeDropped).cmdovr = s.cmdovr := rfl
@[simp] theorem writeDropped_errcode : (s.writeDropped).errcode = s.errcode := rfl
@[simp] theorem writeDropped_irqen : (s.writeDropped).irqen = s.irqen := rfl
@[simp] theorem writeDropped_radix : (s.writeDropped).radix = s.radix := rfl
@[simp] theorem writeDropped_len : (s.writeDropped).len = s.len := rfl
@[simp] theorem writeDropped_padlen : (s.writeDropped).padlen = s.padlen := rfl
@[simp] theorem writeDropped_tl : (s.writeDropped).tl = s.tl := rfl
@[simp] theorem writeDropped_tr : (s.writeDropped).tr = s.tr := rfl
@[simp] theorem writeDropped_outlen : (s.writeDropped).outlen = s.outlen := rfl
@[simp] theorem writeDropped_vals : (s.writeDropped).vals = s.vals := rfl
@[simp] theorem writeDropped_msg : (s.writeDropped).msg = s.msg := rfl
@[simp] theorem writeDropped_fsm : (s.writeDropped).fsm = s.fsm := rfl
@[simp] theorem writeDropped_cmd : (s.writeDropped).cmd = s.cmd := rfl
@[simp] theorem writeDropped_u : (s.writeDropped).u = s.u := rfl
@[simp] theorem writeDropped_v : (s.writeDropped).v = s.v := rfl
@[simp] theorem writeDropped_ri : (s.writeDropped).ri = s.ri := rfl
@[simp] theorem writeDropped_ha : (s.writeDropped).ha = s.ha := rfl
@[simp] theorem writeDropped_hb : (s.writeDropped).hb = s.hb := rfl
@[simp] theorem writeDropped_la : (s.writeDropped).la = s.la := rfl
@[simp] theorem writeDropped_lb : (s.writeDropped).lb = s.lb := rfl
@[simp] theorem writeDropped_port : (s.writeDropped).port = s.port := rfl
@[simp] theorem writeDropped_draws : (s.writeDropped).draws = s.draws := rfl
@[simp] theorem writeDropped_bcTable : (s.writeDropped).bcTable = s.bcTable := rfl
@[simp] theorem writeDropped_turns : (s.writeDropped).turns = s.turns := rfl
@[simp] theorem writeDropped_ticks : (s.writeDropped).ticks = s.ticks := rfl
@[simp] theorem writeDropped_program : (s.writeDropped).program = s.program := rfl
@[simp] theorem writeDropped_reads : (s.writeDropped).reads = s.reads := rfl

/-! ### A dropped command (40_control.md R122) -/

@[simp] theorem cmdOverrun_done : (s.cmdOverrun).done = s.done := rfl
@[simp] theorem cmdOverrun_err : (s.cmdOverrun).err = s.err := rfl
@[simp] theorem cmdOverrun_wbusy : (s.cmdOverrun).wbusy = s.wbusy := rfl
@[simp] theorem cmdOverrun_cmdovr : (s.cmdOverrun).cmdovr = true := rfl
@[simp] theorem cmdOverrun_errcode : (s.cmdOverrun).errcode = s.errcode := rfl
@[simp] theorem cmdOverrun_irqen : (s.cmdOverrun).irqen = s.irqen := rfl
@[simp] theorem cmdOverrun_radix : (s.cmdOverrun).radix = s.radix := rfl
@[simp] theorem cmdOverrun_len : (s.cmdOverrun).len = s.len := rfl
@[simp] theorem cmdOverrun_padlen : (s.cmdOverrun).padlen = s.padlen := rfl
@[simp] theorem cmdOverrun_tl : (s.cmdOverrun).tl = s.tl := rfl
@[simp] theorem cmdOverrun_tr : (s.cmdOverrun).tr = s.tr := rfl
@[simp] theorem cmdOverrun_outlen : (s.cmdOverrun).outlen = s.outlen := rfl
@[simp] theorem cmdOverrun_vals : (s.cmdOverrun).vals = s.vals := rfl
@[simp] theorem cmdOverrun_msg : (s.cmdOverrun).msg = s.msg := rfl
@[simp] theorem cmdOverrun_fsm : (s.cmdOverrun).fsm = s.fsm := rfl
@[simp] theorem cmdOverrun_cmd : (s.cmdOverrun).cmd = s.cmd := rfl
@[simp] theorem cmdOverrun_u : (s.cmdOverrun).u = s.u := rfl
@[simp] theorem cmdOverrun_v : (s.cmdOverrun).v = s.v := rfl
@[simp] theorem cmdOverrun_ri : (s.cmdOverrun).ri = s.ri := rfl
@[simp] theorem cmdOverrun_ha : (s.cmdOverrun).ha = s.ha := rfl
@[simp] theorem cmdOverrun_hb : (s.cmdOverrun).hb = s.hb := rfl
@[simp] theorem cmdOverrun_la : (s.cmdOverrun).la = s.la := rfl
@[simp] theorem cmdOverrun_lb : (s.cmdOverrun).lb = s.lb := rfl
@[simp] theorem cmdOverrun_port : (s.cmdOverrun).port = s.port := rfl
@[simp] theorem cmdOverrun_draws : (s.cmdOverrun).draws = s.draws := rfl
@[simp] theorem cmdOverrun_bcTable : (s.cmdOverrun).bcTable = s.bcTable := rfl
@[simp] theorem cmdOverrun_turns : (s.cmdOverrun).turns = s.turns := rfl
@[simp] theorem cmdOverrun_ticks : (s.cmdOverrun).ticks = s.ticks := rfl
@[simp] theorem cmdOverrun_program : (s.cmdOverrun).program = s.program := rfl
@[simp] theorem cmdOverrun_reads : (s.cmdOverrun).reads = s.reads := rfl

/-! ### Writing bytes of MSG -/

@[simp] theorem storeBytes_done (base : Nat) (bs : List Byte) :
    (s.storeBytes base bs).done = s.done := rfl
@[simp] theorem storeBytes_err (base : Nat) (bs : List Byte) :
    (s.storeBytes base bs).err = s.err := rfl
@[simp] theorem storeBytes_wbusy (base : Nat) (bs : List Byte) :
    (s.storeBytes base bs).wbusy = s.wbusy := rfl
@[simp] theorem storeBytes_cmdovr (base : Nat) (bs : List Byte) :
    (s.storeBytes base bs).cmdovr = s.cmdovr := rfl
@[simp] theorem storeBytes_errcode (base : Nat) (bs : List Byte) :
    (s.storeBytes base bs).errcode = s.errcode := rfl
@[simp] theorem storeBytes_irqen (base : Nat) (bs : List Byte) :
    (s.storeBytes base bs).irqen = s.irqen := rfl
@[simp] theorem storeBytes_radix (base : Nat) (bs : List Byte) :
    (s.storeBytes base bs).radix = s.radix := rfl
@[simp] theorem storeBytes_len (base : Nat) (bs : List Byte) :
    (s.storeBytes base bs).len = s.len := rfl
@[simp] theorem storeBytes_padlen (base : Nat) (bs : List Byte) :
    (s.storeBytes base bs).padlen = s.padlen := rfl
@[simp] theorem storeBytes_tl (base : Nat) (bs : List Byte) :
    (s.storeBytes base bs).tl = s.tl := rfl
@[simp] theorem storeBytes_tr (base : Nat) (bs : List Byte) :
    (s.storeBytes base bs).tr = s.tr := rfl
@[simp] theorem storeBytes_outlen (base : Nat) (bs : List Byte) :
    (s.storeBytes base bs).outlen = s.outlen := rfl
@[simp] theorem storeBytes_vals (base : Nat) (bs : List Byte) :
    (s.storeBytes base bs).vals = s.vals := rfl
@[simp] theorem storeBytes_msg (base : Nat) (bs : List Byte) :
    (s.storeBytes base bs).msg = Memory.writeBytes s.msg base bs := rfl
@[simp] theorem storeBytes_fsm (base : Nat) (bs : List Byte) :
    (s.storeBytes base bs).fsm = s.fsm := rfl
@[simp] theorem storeBytes_cmd (base : Nat) (bs : List Byte) :
    (s.storeBytes base bs).cmd = s.cmd := rfl
@[simp] theorem storeBytes_u (base : Nat) (bs : List Byte) : (s.storeBytes base bs).u = s.u := rfl
@[simp] theorem storeBytes_v (base : Nat) (bs : List Byte) : (s.storeBytes base bs).v = s.v := rfl
@[simp] theorem storeBytes_ri (base : Nat) (bs : List Byte) :
    (s.storeBytes base bs).ri = s.ri := rfl
@[simp] theorem storeBytes_ha (base : Nat) (bs : List Byte) :
    (s.storeBytes base bs).ha = s.ha := rfl
@[simp] theorem storeBytes_hb (base : Nat) (bs : List Byte) :
    (s.storeBytes base bs).hb = s.hb := rfl
@[simp] theorem storeBytes_la (base : Nat) (bs : List Byte) :
    (s.storeBytes base bs).la = s.la := rfl
@[simp] theorem storeBytes_lb (base : Nat) (bs : List Byte) :
    (s.storeBytes base bs).lb = s.lb := rfl
@[simp] theorem storeBytes_port (base : Nat) (bs : List Byte) :
    (s.storeBytes base bs).port = s.port := rfl
@[simp] theorem storeBytes_draws (base : Nat) (bs : List Byte) :
    (s.storeBytes base bs).draws = s.draws := rfl
@[simp] theorem storeBytes_bcTable (base : Nat) (bs : List Byte) :
    (s.storeBytes base bs).bcTable = s.bcTable := rfl
@[simp] theorem storeBytes_turns (base : Nat) (bs : List Byte) :
    (s.storeBytes base bs).turns = s.turns := rfl
@[simp] theorem storeBytes_ticks (base : Nat) (bs : List Byte) :
    (s.storeBytes base bs).ticks = s.ticks := rfl
@[simp] theorem storeBytes_program (base : Nat) (bs : List Byte) :
    (s.storeBytes base bs).program = s.program := rfl
@[simp] theorem storeBytes_reads (base : Nat) (bs : List Byte) :
    (s.storeBytes base bs).reads = s.reads := rfl

/-! ### The commit (42_feistel_engine.md R181) -/

@[simp] theorem commit_done : (s.commit).done = true := rfl
@[simp] theorem commit_err : (s.commit).err = s.err := rfl
@[simp] theorem commit_wbusy : (s.commit).wbusy = s.wbusy := rfl
@[simp] theorem commit_cmdovr : (s.commit).cmdovr = s.cmdovr := rfl
@[simp] theorem commit_errcode : (s.commit).errcode = s.errcode := rfl
@[simp] theorem commit_irqen : (s.commit).irqen = s.irqen := rfl
@[simp] theorem commit_radix : (s.commit).radix = s.radix := rfl
@[simp] theorem commit_len : (s.commit).len = s.len := rfl
@[simp] theorem commit_padlen : (s.commit).padlen = s.padlen := rfl
@[simp] theorem commit_tl : (s.commit).tl = s.tl := rfl
@[simp] theorem commit_tr : (s.commit).tr = s.tr := rfl
@[simp] theorem commit_outlen : (s.commit).outlen = s.outlen := rfl
@[simp] theorem commit_vals : (s.commit).vals = s.vals := rfl
@[simp] theorem commit_msg :
    (s.commit).msg = Memory.writeBytes (Memory.writeBytes s.msg 0 (revString s.radix.toNat s.u s.ha)) s.u
        (revString s.radix.toNat s.v s.hb) := rfl
@[simp] theorem commit_fsm : (s.commit).fsm = .idle := rfl
@[simp] theorem commit_cmd : (s.commit).cmd = s.cmd := rfl
@[simp] theorem commit_u : (s.commit).u = s.u := rfl
@[simp] theorem commit_v : (s.commit).v = s.v := rfl
@[simp] theorem commit_ri : (s.commit).ri = s.ri := rfl
@[simp] theorem commit_ha : (s.commit).ha = s.ha := rfl
@[simp] theorem commit_hb : (s.commit).hb = s.hb := rfl
@[simp] theorem commit_la : (s.commit).la = s.la := rfl
@[simp] theorem commit_lb : (s.commit).lb = s.lb := rfl
@[simp] theorem commit_port : (s.commit).port = s.port := rfl
@[simp] theorem commit_draws : (s.commit).draws = s.draws := rfl
@[simp] theorem commit_bcTable : (s.commit).bcTable = s.bcTable := rfl
@[simp] theorem commit_turns : (s.commit).turns = s.turns := rfl
@[simp] theorem commit_ticks : (s.commit).ticks = s.ticks := rfl
@[simp] theorem commit_program : (s.commit).program = s.program := rfl
@[simp] theorem commit_reads : (s.commit).reads = s.reads := rfl

/-! ### The reset input (70_reset_and_hazards.md R240) -/

@[simp] theorem resetBlock_done : (s.resetBlock).done = State.reset.done := rfl
@[simp] theorem resetBlock_err : (s.resetBlock).err = State.reset.err := rfl
@[simp] theorem resetBlock_wbusy : (s.resetBlock).wbusy = State.reset.wbusy := rfl
@[simp] theorem resetBlock_cmdovr : (s.resetBlock).cmdovr = State.reset.cmdovr := rfl
@[simp] theorem resetBlock_errcode : (s.resetBlock).errcode = State.reset.errcode := rfl
@[simp] theorem resetBlock_irqen : (s.resetBlock).irqen = State.reset.irqen := rfl
@[simp] theorem resetBlock_radix : (s.resetBlock).radix = State.reset.radix := rfl
@[simp] theorem resetBlock_len : (s.resetBlock).len = State.reset.len := rfl
@[simp] theorem resetBlock_padlen : (s.resetBlock).padlen = State.reset.padlen := rfl
@[simp] theorem resetBlock_tl : (s.resetBlock).tl = State.reset.tl := rfl
@[simp] theorem resetBlock_tr : (s.resetBlock).tr = State.reset.tr := rfl
@[simp] theorem resetBlock_outlen : (s.resetBlock).outlen = State.reset.outlen := rfl
@[simp] theorem resetBlock_vals : (s.resetBlock).vals = State.reset.vals := rfl
@[simp] theorem resetBlock_msg : (s.resetBlock).msg = State.reset.msg := rfl
@[simp] theorem resetBlock_fsm : (s.resetBlock).fsm = State.reset.fsm := rfl
@[simp] theorem resetBlock_cmd : (s.resetBlock).cmd = State.reset.cmd := rfl
@[simp] theorem resetBlock_u : (s.resetBlock).u = State.reset.u := rfl
@[simp] theorem resetBlock_v : (s.resetBlock).v = State.reset.v := rfl
@[simp] theorem resetBlock_ri : (s.resetBlock).ri = State.reset.ri := rfl
@[simp] theorem resetBlock_ha : (s.resetBlock).ha = State.reset.ha := rfl
@[simp] theorem resetBlock_hb : (s.resetBlock).hb = State.reset.hb := rfl
@[simp] theorem resetBlock_la : (s.resetBlock).la = State.reset.la := rfl
@[simp] theorem resetBlock_lb : (s.resetBlock).lb = State.reset.lb := rfl
@[simp] theorem resetBlock_port : (s.resetBlock).port = State.reset.port := rfl
@[simp] theorem resetBlock_draws : (s.resetBlock).draws = s.draws + 1 := rfl
@[simp] theorem resetBlock_bcTable : (s.resetBlock).bcTable = s.bcTable := rfl
@[simp] theorem resetBlock_turns : (s.resetBlock).turns = s.turns := rfl
@[simp] theorem resetBlock_ticks : (s.resetBlock).ticks = s.ticks := rfl
@[simp] theorem resetBlock_program : (s.resetBlock).program = s.program := rfl
@[simp] theorem resetBlock_reads : (s.resetBlock).reads = s.reads := rfl

/-! ### The start of the rounds (42_feistel_engine.md R172) -/

@[simp] theorem startRounds_done (ds : List Nat) (i : BitVec 3) :
    (s.startRounds ds i).done = s.done := rfl
@[simp] theorem startRounds_err (ds : List Nat) (i : BitVec 3) :
    (s.startRounds ds i).err = s.err := rfl
@[simp] theorem startRounds_wbusy (ds : List Nat) (i : BitVec 3) :
    (s.startRounds ds i).wbusy = s.wbusy := rfl
@[simp] theorem startRounds_cmdovr (ds : List Nat) (i : BitVec 3) :
    (s.startRounds ds i).cmdovr = s.cmdovr := rfl
@[simp] theorem startRounds_errcode (ds : List Nat) (i : BitVec 3) :
    (s.startRounds ds i).errcode = s.errcode := rfl
@[simp] theorem startRounds_irqen (ds : List Nat) (i : BitVec 3) :
    (s.startRounds ds i).irqen = s.irqen := rfl
@[simp] theorem startRounds_radix (ds : List Nat) (i : BitVec 3) :
    (s.startRounds ds i).radix = s.radix := rfl
@[simp] theorem startRounds_len (ds : List Nat) (i : BitVec 3) :
    (s.startRounds ds i).len = s.len := rfl
@[simp] theorem startRounds_padlen (ds : List Nat) (i : BitVec 3) :
    (s.startRounds ds i).padlen = s.padlen := rfl
@[simp] theorem startRounds_tl (ds : List Nat) (i : BitVec 3) :
    (s.startRounds ds i).tl = s.tl := rfl
@[simp] theorem startRounds_tr (ds : List Nat) (i : BitVec 3) :
    (s.startRounds ds i).tr = s.tr := rfl
@[simp] theorem startRounds_outlen (ds : List Nat) (i : BitVec 3) :
    (s.startRounds ds i).outlen = s.outlen := rfl
@[simp] theorem startRounds_vals (ds : List Nat) (i : BitVec 3) :
    (s.startRounds ds i).vals = s.vals := rfl
@[simp] theorem startRounds_msg (ds : List Nat) (i : BitVec 3) :
    (s.startRounds ds i).msg = s.msg := rfl
@[simp] theorem startRounds_fsm (ds : List Nat) (i : BitVec 3) :
    (s.startRounds ds i).fsm = .issue := rfl
@[simp] theorem startRounds_cmd (ds : List Nat) (i : BitVec 3) :
    (s.startRounds ds i).cmd = s.cmd := rfl
@[simp] theorem startRounds_u (ds : List Nat) (i : BitVec 3) :
    (s.startRounds ds i).u = (s.len.toNat + 1) / 2 := rfl
@[simp] theorem startRounds_v (ds : List Nat) (i : BitVec 3) :
    (s.startRounds ds i).v = s.len.toNat - (s.len.toNat + 1) / 2 := rfl
@[simp] theorem startRounds_ri (ds : List Nat) (i : BitVec 3) : (s.startRounds ds i).ri = i := rfl
@[simp] theorem startRounds_ha (ds : List Nat) (i : BitVec 3) :
    (s.startRounds ds i).ha = numRev s.radix.toNat (ds.take ((s.len.toNat + 1) / 2)) := rfl
@[simp] theorem startRounds_hb (ds : List Nat) (i : BitVec 3) :
    (s.startRounds ds i).hb = numRev s.radix.toNat (ds.drop ((s.len.toNat + 1) / 2)) := rfl
@[simp] theorem startRounds_la (ds : List Nat) (i : BitVec 3) :
    (s.startRounds ds i).la = (s.len.toNat + 1) / 2 := rfl
@[simp] theorem startRounds_lb (ds : List Nat) (i : BitVec 3) :
    (s.startRounds ds i).lb = s.len.toNat - (s.len.toNat + 1) / 2 := rfl
@[simp] theorem startRounds_port (ds : List Nat) (i : BitVec 3) :
    (s.startRounds ds i).port = s.port := rfl
@[simp] theorem startRounds_draws (ds : List Nat) (i : BitVec 3) :
    (s.startRounds ds i).draws = s.draws := rfl
@[simp] theorem startRounds_bcTable (ds : List Nat) (i : BitVec 3) :
    (s.startRounds ds i).bcTable = s.bcTable := rfl
@[simp] theorem startRounds_turns (ds : List Nat) (i : BitVec 3) :
    (s.startRounds ds i).turns = s.turns := rfl
@[simp] theorem startRounds_ticks (ds : List Nat) (i : BitVec 3) :
    (s.startRounds ds i).ticks = s.ticks := rfl
@[simp] theorem startRounds_program (ds : List Nat) (i : BitVec 3) :
    (s.startRounds ds i).program = s.program := rfl
@[simp] theorem startRounds_reads (ds : List Nat) (i : BitVec 3) :
    (s.startRounds ds i).reads = s.reads := rfl

/-! ### The ISSUE step (42_feistel_engine.md R175) -/

@[simp] theorem issueRound_done (x : Nat) : (s.issueRound x).done = s.done := rfl
@[simp] theorem issueRound_err (x : Nat) : (s.issueRound x).err = s.err := rfl
@[simp] theorem issueRound_wbusy (x : Nat) : (s.issueRound x).wbusy = s.wbusy := rfl
@[simp] theorem issueRound_cmdovr (x : Nat) : (s.issueRound x).cmdovr = s.cmdovr := rfl
@[simp] theorem issueRound_errcode (x : Nat) : (s.issueRound x).errcode = s.errcode := rfl
@[simp] theorem issueRound_irqen (x : Nat) : (s.issueRound x).irqen = s.irqen := rfl
@[simp] theorem issueRound_radix (x : Nat) : (s.issueRound x).radix = s.radix := rfl
@[simp] theorem issueRound_len (x : Nat) : (s.issueRound x).len = s.len := rfl
@[simp] theorem issueRound_padlen (x : Nat) : (s.issueRound x).padlen = s.padlen := rfl
@[simp] theorem issueRound_tl (x : Nat) : (s.issueRound x).tl = s.tl := rfl
@[simp] theorem issueRound_tr (x : Nat) : (s.issueRound x).tr = s.tr := rfl
@[simp] theorem issueRound_outlen (x : Nat) : (s.issueRound x).outlen = s.outlen := rfl
@[simp] theorem issueRound_vals (x : Nat) : (s.issueRound x).vals = s.vals := rfl
@[simp] theorem issueRound_msg (x : Nat) : (s.issueRound x).msg = s.msg := rfl
@[simp] theorem issueRound_fsm (x : Nat) : (s.issueRound x).fsm = .wait := rfl
@[simp] theorem issueRound_cmd (x : Nat) : (s.issueRound x).cmd = s.cmd := rfl
@[simp] theorem issueRound_u (x : Nat) : (s.issueRound x).u = s.u := rfl
@[simp] theorem issueRound_v (x : Nat) : (s.issueRound x).v = s.v := rfl
@[simp] theorem issueRound_ri (x : Nat) : (s.issueRound x).ri = s.ri := rfl
@[simp] theorem issueRound_ha (x : Nat) : (s.issueRound x).ha = s.ha := rfl
@[simp] theorem issueRound_hb (x : Nat) : (s.issueRound x).hb = s.hb := rfl
@[simp] theorem issueRound_la (x : Nat) : (s.issueRound x).la = s.la := rfl
@[simp] theorem issueRound_lb (x : Nat) : (s.issueRound x).lb = s.lb := rfl
@[simp] theorem issueRound_port (x : Nat) :
    (s.issueRound x).port = .req (bswap128 (s.roundBlock x)) := rfl
@[simp] theorem issueRound_draws (x : Nat) : (s.issueRound x).draws = s.draws := rfl
@[simp] theorem issueRound_bcTable (x : Nat) : (s.issueRound x).bcTable = s.bcTable := rfl
@[simp] theorem issueRound_turns (x : Nat) : (s.issueRound x).turns = s.turns := rfl
@[simp] theorem issueRound_ticks (x : Nat) : (s.issueRound x).ticks = s.ticks := rfl
@[simp] theorem issueRound_program (x : Nat) : (s.issueRound x).program = s.program := rfl
@[simp] theorem issueRound_reads (x : Nat) : (s.issueRound x).reads = s.reads := rfl

/-! ### The combine of ENCRYPT (42_feistel_engine.md R178) -/

@[simp] theorem encryptCombine_done (y : Nat) : (s.encryptCombine y).done = s.done := rfl
@[simp] theorem encryptCombine_err (y : Nat) : (s.encryptCombine y).err = s.err := rfl
@[simp] theorem encryptCombine_wbusy (y : Nat) : (s.encryptCombine y).wbusy = s.wbusy := rfl
@[simp] theorem encryptCombine_cmdovr (y : Nat) : (s.encryptCombine y).cmdovr = s.cmdovr := rfl
@[simp] theorem encryptCombine_errcode (y : Nat) : (s.encryptCombine y).errcode = s.errcode := rfl
@[simp] theorem encryptCombine_irqen (y : Nat) : (s.encryptCombine y).irqen = s.irqen := rfl
@[simp] theorem encryptCombine_radix (y : Nat) : (s.encryptCombine y).radix = s.radix := rfl
@[simp] theorem encryptCombine_len (y : Nat) : (s.encryptCombine y).len = s.len := rfl
@[simp] theorem encryptCombine_padlen (y : Nat) : (s.encryptCombine y).padlen = s.padlen := rfl
@[simp] theorem encryptCombine_tl (y : Nat) : (s.encryptCombine y).tl = s.tl := rfl
@[simp] theorem encryptCombine_tr (y : Nat) : (s.encryptCombine y).tr = s.tr := rfl
@[simp] theorem encryptCombine_outlen (y : Nat) : (s.encryptCombine y).outlen = s.outlen := rfl
@[simp] theorem encryptCombine_vals (y : Nat) : (s.encryptCombine y).vals = s.vals := rfl
@[simp] theorem encryptCombine_msg (y : Nat) : (s.encryptCombine y).msg = s.msg := rfl
@[simp] theorem encryptCombine_fsm (y : Nat) : (s.encryptCombine y).fsm = s.fsm := rfl
@[simp] theorem encryptCombine_cmd (y : Nat) : (s.encryptCombine y).cmd = s.cmd := rfl
@[simp] theorem encryptCombine_u (y : Nat) : (s.encryptCombine y).u = s.u := rfl
@[simp] theorem encryptCombine_v (y : Nat) : (s.encryptCombine y).v = s.v := rfl
@[simp] theorem encryptCombine_ri (y : Nat) : (s.encryptCombine y).ri = s.ri := rfl
@[simp] theorem encryptCombine_ha (y : Nat) : (s.encryptCombine y).ha = s.hb := rfl
@[simp] theorem encryptCombine_hb (y : Nat) :
    (s.encryptCombine y).hb = (s.ha + y) % s.roundModulus := rfl
@[simp] theorem encryptCombine_la (y : Nat) : (s.encryptCombine y).la = s.lb := rfl
@[simp] theorem encryptCombine_lb (y : Nat) : (s.encryptCombine y).lb = s.roundLen := rfl
@[simp] theorem encryptCombine_port (y : Nat) : (s.encryptCombine y).port = s.port := rfl
@[simp] theorem encryptCombine_draws (y : Nat) : (s.encryptCombine y).draws = s.draws := rfl
@[simp] theorem encryptCombine_bcTable (y : Nat) : (s.encryptCombine y).bcTable = s.bcTable := rfl
@[simp] theorem encryptCombine_turns (y : Nat) : (s.encryptCombine y).turns = s.turns := rfl
@[simp] theorem encryptCombine_ticks (y : Nat) : (s.encryptCombine y).ticks = s.ticks := rfl
@[simp] theorem encryptCombine_program (y : Nat) : (s.encryptCombine y).program = s.program := rfl
@[simp] theorem encryptCombine_reads (y : Nat) : (s.encryptCombine y).reads = s.reads := rfl

/-! ### The combine of DECRYPT (42_feistel_engine.md R179) -/

@[simp] theorem decryptCombine_done (y : Nat) : (s.decryptCombine y).done = s.done := rfl
@[simp] theorem decryptCombine_err (y : Nat) : (s.decryptCombine y).err = s.err := rfl
@[simp] theorem decryptCombine_wbusy (y : Nat) : (s.decryptCombine y).wbusy = s.wbusy := rfl
@[simp] theorem decryptCombine_cmdovr (y : Nat) : (s.decryptCombine y).cmdovr = s.cmdovr := rfl
@[simp] theorem decryptCombine_errcode (y : Nat) : (s.decryptCombine y).errcode = s.errcode := rfl
@[simp] theorem decryptCombine_irqen (y : Nat) : (s.decryptCombine y).irqen = s.irqen := rfl
@[simp] theorem decryptCombine_radix (y : Nat) : (s.decryptCombine y).radix = s.radix := rfl
@[simp] theorem decryptCombine_len (y : Nat) : (s.decryptCombine y).len = s.len := rfl
@[simp] theorem decryptCombine_padlen (y : Nat) : (s.decryptCombine y).padlen = s.padlen := rfl
@[simp] theorem decryptCombine_tl (y : Nat) : (s.decryptCombine y).tl = s.tl := rfl
@[simp] theorem decryptCombine_tr (y : Nat) : (s.decryptCombine y).tr = s.tr := rfl
@[simp] theorem decryptCombine_outlen (y : Nat) : (s.decryptCombine y).outlen = s.outlen := rfl
@[simp] theorem decryptCombine_vals (y : Nat) : (s.decryptCombine y).vals = s.vals := rfl
@[simp] theorem decryptCombine_msg (y : Nat) : (s.decryptCombine y).msg = s.msg := rfl
@[simp] theorem decryptCombine_fsm (y : Nat) : (s.decryptCombine y).fsm = s.fsm := rfl
@[simp] theorem decryptCombine_cmd (y : Nat) : (s.decryptCombine y).cmd = s.cmd := rfl
@[simp] theorem decryptCombine_u (y : Nat) : (s.decryptCombine y).u = s.u := rfl
@[simp] theorem decryptCombine_v (y : Nat) : (s.decryptCombine y).v = s.v := rfl
@[simp] theorem decryptCombine_ri (y : Nat) : (s.decryptCombine y).ri = s.ri := rfl
@[simp] theorem decryptCombine_ha (y : Nat) :
    (s.decryptCombine y).ha = (((s.hb : Int) - (y : Int)) % (s.roundModulus : Int)).toNat := rfl
@[simp] theorem decryptCombine_hb (y : Nat) : (s.decryptCombine y).hb = s.ha := rfl
@[simp] theorem decryptCombine_la (y : Nat) : (s.decryptCombine y).la = s.roundLen := rfl
@[simp] theorem decryptCombine_lb (y : Nat) : (s.decryptCombine y).lb = s.la := rfl
@[simp] theorem decryptCombine_port (y : Nat) : (s.decryptCombine y).port = s.port := rfl
@[simp] theorem decryptCombine_draws (y : Nat) : (s.decryptCombine y).draws = s.draws := rfl
@[simp] theorem decryptCombine_bcTable (y : Nat) : (s.decryptCombine y).bcTable = s.bcTable := rfl
@[simp] theorem decryptCombine_turns (y : Nat) : (s.decryptCombine y).turns = s.turns := rfl
@[simp] theorem decryptCombine_ticks (y : Nat) : (s.decryptCombine y).ticks = s.ticks := rfl
@[simp] theorem decryptCombine_program (y : Nat) : (s.decryptCombine y).program = s.program := rfl
@[simp] theorem decryptCombine_reads (y : Nat) : (s.decryptCombine y).reads = s.reads := rfl

end Sys2Proof.Machine.State
end

