-- ==== Sys2Proof/Laws/Memory.lean ====
section
/-! SUPPORT. The laws of the message buffer: a read after a write, the canonical form, and the same
laws one level up, on the bytes and words of MSG in a state. -/

namespace Sys2Proof.Machine

/-! ### The list of bytes -/

theorem Memory.lookup_insert (m : Memory) (k j : Nat) (b : Byte) :
    Memory.lookup (Memory.insert k b m) j = if k = j then some b else Memory.lookup m j := by
  induction m with
  | nil => simp [Memory.insert, Memory.lookup]
  | cons e m ih =>
    obtain ⟨a, c⟩ := e
    simp only [Memory.insert]
    split
    · simp [Memory.lookup]
    · split
      · next h => subst h; by_cases hj : k = j <;> simp [Memory.lookup, hj]
      · next h =>
        by_cases ha : a = j
        · have : k ≠ j := fun e => h (e.trans ha.symm)
          simp [Memory.lookup, ha, this]
        · simp [Memory.lookup, ha, ih]

theorem Memory.lookup_write (m : Memory) (k j : Nat) (b : Byte) :
    Memory.lookup (Memory.write m k b) j =
      if k = j ∧ k < Config.msgCapacity then some b else Memory.lookup m j := by
  by_cases h : k < Config.msgCapacity <;> simp [Memory.write, h, Memory.lookup_insert]

/-- What every index holds after a string has been written. -/
theorem Memory.lookup_writeBytes (bs : List Byte) (m : Memory) (base j : Nat) :
    Memory.lookup (Memory.writeBytes m base bs) j =
      if base ≤ j ∧ j < Config.msgCapacity then (bs[j - base]?).or (Memory.lookup m j)
      else Memory.lookup m j := by
  induction bs generalizing m base with
  | nil => simp [Memory.writeBytes]
  | cons b bs ih =>
    rw [Memory.writeBytes, ih, Memory.lookup_write]
    by_cases hj : j < Config.msgCapacity
    · rcases Nat.lt_trichotomy base j with h | h | h
      · have e : j - base = (j - (base + 1)) + 1 := by omega
        simp [hj, Nat.le_of_lt h, Nat.succ_le_of_lt h, e, Nat.ne_of_lt h]
      · subst h; simp [hj]
      · simp [Nat.not_le_of_lt h, Nat.ne_of_gt h]
        omega
    · have : ¬(base = j ∧ base < Config.msgCapacity) := by omega
      simp [hj, this]

/-! ### The canonical form -/

theorem Memory.wfFrom_insert {m : Memory} {lo k : Nat} (b : Byte) (hlo : lo ≤ k)
    (hk : k < Config.msgCapacity) (h : Memory.wfFrom lo m = true) :
    Memory.wfFrom lo (Memory.insert k b m) = true := by
  induction m generalizing lo with
  | nil => simp [Memory.insert, Memory.wfFrom, hlo, hk]
  | cons e m ih =>
    obtain ⟨a, c⟩ := e
    simp only [Memory.wfFrom, Bool.and_eq_true, decide_eq_true_eq] at h
    obtain ⟨⟨h1, h2⟩, h3⟩ := h
    simp only [Memory.insert]
    split
    · next hka =>
      simp only [Memory.wfFrom, Bool.and_eq_true, decide_eq_true_eq]
      exact ⟨⟨hlo, hk⟩, ⟨hka, h2⟩, h3⟩
    · split
      · next hka =>
        subst hka
        simp only [Memory.wfFrom, Bool.and_eq_true, decide_eq_true_eq]
        exact ⟨⟨hlo, hk⟩, h3⟩
      · simp only [Memory.wfFrom, Bool.and_eq_true, decide_eq_true_eq]
        exact ⟨⟨h1, h2⟩, ih (by omega) h3⟩

theorem Memory.wf_write {m : Memory} (k : Nat) (b : Byte) (h : Memory.wf m = true) :
    Memory.wf (Memory.write m k b) = true := by
  unfold Memory.write
  split
  · next hk => exact Memory.wfFrom_insert b (Nat.zero_le k) hk h
  · exact h

/-- Every write of a string keeps the canonical form. -/
theorem Memory.wf_writeBytes (bs : List Byte) {m : Memory} (base : Nat)
    (h : Memory.wf m = true) : Memory.wf (Memory.writeBytes m base bs) = true := by
  induction bs generalizing m base with
  | nil => exact h
  | cons b bs ih => exact ih (base + 1) (Memory.wf_write base b h)

/-- Reset memory, which lists nothing, is canonical. -/
theorem Memory.wf_reset : Memory.wf State.reset.msg = true := rfl

/-! ### Bytes and words of MSG in a state -/

/-- A byte of MSG depends on the listed bytes and the draw only. -/
theorem State.msgByte_congr {s t : State} (hm : t.msg = s.msg) (hd : t.draws = s.draws)
    (k : Nat) : t.msgByte k = s.msgByte k := by
  simp [State.msgByte, hm, hd]

/-- What every byte of MSG holds after a string has been stored. -/
theorem State.msgByte_storeBytes (s : State) (base : Nat) (bs : List Byte) (k : Nat) :
    (s.storeBytes base bs).msgByte k =
      if base ≤ k ∧ k < Config.msgCapacity then (bs[k - base]?).getD (s.msgByte k)
      else s.msgByte k := by
  by_cases h : base ≤ k ∧ k < Config.msgCapacity
  · cases hb : bs[k - base]? <;>
      simp [State.msgByte, Memory.lookup_writeBytes, h, hb]
  · simp [State.msgByte, Memory.lookup_writeBytes, h]

/-- A string read back where it was stored. -/
theorem State.msgByte_storeBytes_of_lt {s : State} {base k : Nat} {bs : List Byte}
    (hk : k < bs.length) (hcap : base + k < Config.msgCapacity) :
    (s.storeBytes base bs).msgByte (base + k) = bs[k] := by
  simp [State.msgByte_storeBytes, hcap, hk]

/-- A byte outside a stored string is left alone. -/
theorem State.msgByte_storeBytes_other {s : State} {base k : Nat} {bs : List Byte}
    (h : k < base ∨ base + bs.length ≤ k) :
    (s.storeBytes base bs).msgByte k = s.msgByte k := by
  rw [State.msgByte_storeBytes]
  split
  · next hk =>
    have : bs.length ≤ k - base := by omega
    simp [List.getElem?_eq_none this]
  · rfl

@[simp] theorem State.msgString_length (s : State) (base n : Nat) :
    (s.msgString base n).length = n := by simp [State.msgString]

@[simp] theorem State.msgString_getElem (s : State) (base n k : Nat)
    (h : k < (s.msgString base n).length) : (s.msgString base n)[k] = s.msgByte (base + k) := by
  simp [State.msgString]

/-- The bytes a word store leaves (20_memory.md R74). -/
theorem State.msgByte_storeMsgWord (s : State) (w k : Nat) (v : Word) (hw : w < 48) :
    (s.storeMsgWord w v).msgByte k =
      if k / 4 = w then lane v (k % 4) else s.msgByte k := by
  have hcap : Config.msgCapacity = 192 := rfl
  rw [State.storeMsgWord, State.msgByte_storeBytes, hcap]
  by_cases h : k / 4 = w
  · have hk : 4 * w ≤ k ∧ k < 192 := by omega
    rw [if_pos h, if_pos hk]
    have : k % 4 < 4 := Nat.mod_lt _ (by decide)
    have e : k - 4 * w = k % 4 := by omega
    rw [e]
    generalize k % 4 = q at this
    rcases (by omega : q = 0 ∨ q = 1 ∨ q = 2 ∨ q = 3) with h | h | h | h <;> subst h <;> rfl
  · rw [if_neg h]
    split
    · next hk =>
      have : 4 ≤ k - 4 * w := by omega
      rw [List.getElem?_eq_none (by simpa using this)]
      rfl
    · rfl

/-- The lanes of a word make up the word. -/
theorem lanes_append (v : Word) : lane v 3 ++ lane v 2 ++ lane v 1 ++ lane v 0 = v := by
  ext i hi
  simp only [lane, BitVec.getElem_append, BitVec.getElem_extractLsb', BitVec.getLsbD_eq_getElem?_getD]
  repeat' split
  all_goals
    rw [BitVec.getElem?_eq_getElem (by omega)]
    simp only [Option.getD_some]
    congr 1
    omega

/-- Reading a register MSG`j` after a store to MSG`w` (20_memory.md R74). -/
theorem State.msgWord_storeMsgWord (s : State) (w j : Nat) (v : Word) (hw : w < 48) :
    (s.storeMsgWord w v).msgWord j = if j = w then v else s.msgWord j := by
  have e : ∀ b, b < 4 → (4 * j + b) / 4 = j ∧ (4 * j + b) % 4 = b := by omega
  have e0 : 4 * j / 4 = j ∧ 4 * j % 4 = 0 := by omega
  unfold State.msgWord
  simp only [State.msgByte_storeMsgWord s w _ v hw, (e 3 (by omega)).1, (e 3 (by omega)).2,
    (e 2 (by omega)).1, (e 2 (by omega)).2, (e 1 (by omega)).1, (e 1 (by omega)).2, e0.1, e0.2]
  split
  · exact lanes_append v
  · rfl

end Sys2Proof.Machine
end

