-- ==== Sys2Proof/Laws/Codec.lean ====
section
/-! SUPPORT. The laws of the radix codec: the character maps are inverse, the parse succeeds
exactly on valid strings, the two readings of a digit string, the emitted digits, and VAL. -/

namespace Sys2Proof.Machine

/-! ### Characters -/

/-- `d(chr(e)) = e` (41_radix_codec.md R141). -/
theorem digit_chr {e : Nat} (h : e < 36) : digit (chr e) = some e := by
  revert e; decide

theorem digit_lt {b : Byte} {e : Nat} (h : digit b = some e) : e < 36 := by
  simp only [digit] at h
  split at h
  · cases h; omega
  · split at h
    · cases h; omega
    · split at h
      · cases h; omega
      · cases h

theorem validChar_iff {b : Byte} {r : Nat} :
    validChar b r = true ↔ ∃ e, digit b = some e ∧ e < r := by
  unfold validChar; cases digit b <;> simp

/-! ### The parse of a string -/

/-- The parse gives one digit a character. -/
theorem digits?_eq_some {r : Nat} {bs : List Byte} {ds : List Nat} :
    digits? r bs = some ds ↔ bs.map digit = ds.map some ∧ ∀ d ∈ ds, d < r := by
  induction bs generalizing ds with
  | nil =>
    cases ds with
    | nil => simp [digits?]
    | cons d ds => simp [digits?]
  | cons b bs ih =>
    simp only [digits?]
    cases hb : digit b with
    | none => cases ds <;> simp [hb]
    | some e =>
      cases ds with
      | nil => split <;> simp
      | cons d ds =>
        by_cases he : e < r
        · simp only [he, if_true, Option.map_eq_some_iff, List.cons.injEq, List.map_cons, hb,
            Option.some.injEq, List.mem_cons, forall_eq_or_imp]
          constructor
          · rintro ⟨a, ha, rfl, rfl⟩
            exact ⟨⟨rfl, (ih.mp ha).1⟩, he, (ih.mp ha).2⟩
          · rintro ⟨⟨rfl, h1⟩, _, h2⟩
            exact ⟨ds, ih.mpr ⟨h1, h2⟩, rfl, rfl⟩
        · simp only [he, if_false, reduceCtorEq, false_iff, not_and, List.map_cons, hb,
            List.cons.injEq, Option.some.injEq, List.mem_cons, forall_eq_or_imp]
          rintro ⟨rfl, -⟩ h
          exact absurd h he

theorem digits?_isSome {r : Nat} {bs : List Byte} :
    (digits? r bs).isSome = true ↔ ∀ b ∈ bs, validChar b r = true := by
  induction bs with
  | nil => simp [digits?]
  | cons b bs ih =>
    simp only [digits?, List.mem_cons, forall_eq_or_imp, validChar]
    cases digit b with
    | none => simp
    | some e => by_cases he : e < r <;> simp [he, ih, validChar]

theorem digits?_length {r : Nat} {bs : List Byte} {ds : List Nat}
    (h : digits? r bs = some ds) : ds.length = bs.length := by
  simpa using (congrArg List.length (digits?_eq_some.mp h).1).symm

/-- Digit values that are those of the string, one by one. -/
theorem digits?_of_valid {r : Nat} {bs : List Byte} (h : ∀ b ∈ bs, validChar b r = true) :
    digits? r bs = some (bs.map fun b => (digit b).getD 0) := by
  rw [digits?_eq_some]
  constructor
  · rw [List.map_map]
    refine List.map_congr_left fun b hb => ?_
    obtain ⟨e, he, -⟩ := validChar_iff.mp (h b hb)
    simp [he]
  · intro d hd
    obtain ⟨b, hb, rfl⟩ := List.mem_map.mp hd
    obtain ⟨e, he, hr⟩ := validChar_iff.mp (h b hb)
    simpa [he] using hr

/-! ### The two readings of a digit string -/

@[simp] theorem numRev_nil (r : Nat) : numRev r [] = 0 := rfl

@[simp] theorem numRev_cons (r d : Nat) (ds : List Nat) :
    numRev r (d :: ds) = d + r * numRev r ds := rfl

/-- `NUM_r(REV(X))` two ways (00_scope.md R14). -/
theorem num_reverse (r : Nat) (ds : List Nat) : num r ds.reverse = numRev r ds := by
  simp [num, numRev, List.foldl_reverse, Nat.add_comm, Nat.mul_comm]

theorem num_eq_numRev (r : Nat) (ds : List Nat) : num r ds = numRev r ds.reverse := by
  rw [← num_reverse, List.reverse_reverse]

theorem numRev_append (r : Nat) (ds es : List Nat) :
    numRev r (ds ++ es) = numRev r ds + r ^ ds.length * numRev r es := by
  induction ds with
  | nil => simp
  | cons d ds ih => simp [ih, Nat.pow_succ]; ring

/-- A number of `k` digits is below `r^k`. -/
theorem numRev_lt {r : Nat} {ds : List Nat} (h : ∀ d ∈ ds, d < r) :
    numRev r ds < r ^ ds.length := by
  induction ds with
  | nil => simp
  | cons d ds ih =>
    have hd := h d (by simp)
    have := ih fun e he => h e (by simp [he])
    rw [numRev_cons, List.length_cons, Nat.pow_succ]
    nlinarith

/-- `NUM_r(REV(X)) = sum of d(X[j]) * r^j` (00_scope.md R14). -/
theorem numRev_eq_sum (r : Nat) (ds : List Nat) :
    numRev r ds = ∑ j ∈ Finset.range ds.length, ds.getD j 0 * r ^ j := by
  induction ds with
  | nil => simp
  | cons d ds ih =>
    rw [numRev_cons, ih, List.length_cons, Finset.sum_range_succ', Finset.mul_sum, Nat.add_comm]
    congr 1
    · refine Finset.sum_congr rfl fun j _ => ?_
      simp [Nat.pow_succ]; ring
    · simp

/-- Digit `j` of a digit string's value. -/
theorem digitAt_numRev {r : Nat} {ds : List Nat} (h : ∀ d ∈ ds, d < r) (j : Nat) :
    digitAt r (numRev r ds) j = ds.getD j 0 := by
  induction ds generalizing j with
  | nil => simp [digitAt]
  | cons d ds ih =>
    have hd := h d (by simp)
    have hr : 0 < r := by omega
    have hds := fun e he => h e (List.mem_cons_of_mem d he)
    cases j with
    | zero => simp [digitAt, Nat.mod_eq_of_lt hd]
    | succ j =>
      have : (d + r * numRev r ds) / r = numRev r ds := by
        rw [Nat.add_mul_div_left _ _ hr, Nat.div_eq_of_lt hd, Nat.zero_add]
      have e := ih hds j
      simp only [digitAt] at e ⊢
      rw [numRev_cons, Nat.pow_succ, Nat.mul_comm (r ^ j), ← Nat.div_div_eq_div_mul, this, e]
      simp

/-! ### Emitting digits -/

/-- Characters `j < m` of a half (42_feistel_engine.md R181). -/
@[simp] theorem revString_length (r m c : Nat) : (revString r m c).length = m := by
  simp [revString]

@[simp] theorem revString_getElem (r m c j : Nat) (h : j < (revString r m c).length) :
    (revString r m c)[j] = chr (digitAt r c j) := by
  simp [revString]

/-- Emitted digits are digits. -/
theorem emitDigits_lt {r : Nat} (hr : 0 < r) (f n : Nat) : ∀ d ∈ emitDigits r f n, d < r := by
  induction f generalizing n with
  | zero => simp [emitDigits]
  | succ f ih =>
    intro d hd
    simp only [emitDigits, List.mem_cons] at hd
    rcases hd with rfl | hd
    · exact Nat.mod_lt _ hr
    · split at hd
      · simp at hd
      · exact ih _ d hd

/-- With divisions enough, the emitted digits have the number's value: the loop of
41_radix_codec.md R144. -/
theorem numRev_emitDigits {r : Nat} (hr : 2 ≤ r) {f n : Nat} (h : n < 2 ^ f) :
    numRev r (emitDigits r f n) = n := by
  induction f generalizing n with
  | zero => simp [emitDigits]; omega
  | succ f ih =>
    simp only [emitDigits, numRev_cons]
    split
    · next h0 =>
      have : n < r := by rcases Nat.div_eq_zero_iff.mp h0 with h | h <;> omega
      simp [Nat.mod_eq_of_lt this]
    · rw [ih, Nat.mod_add_div]
      rw [Nat.pow_succ] at h
      exact Nat.lt_of_le_of_lt (Nat.div_le_div_left hr (by decide)) (by omega)

/-- How many digits are emitted: `nd_r(n)` (41_radix_codec.md R145), for a length `k` that holds
the number. -/
theorem emitDigits_length_le {r : Nat} (hr : 2 ≤ r) {f n k : Nat} (hk : 1 ≤ k) (h : n < r ^ k) :
    (emitDigits r f n).length ≤ k := by
  induction f generalizing n k with
  | zero => simp [emitDigits]
  | succ f ih =>
    simp only [emitDigits, List.length_cons]
    split
    · simpa using hk
    · next h0 =>
      obtain ⟨k, rfl⟩ : ∃ i, k = i + 1 := ⟨k - 1, by omega⟩
      have hn : n / r < r ^ k := by
        rw [Nat.div_lt_iff_lt_mul (by omega)]
        rwa [Nat.pow_succ] at h
      have hk : 1 ≤ k := by
        rcases Nat.eq_zero_or_pos k with rfl | hk
        · exact absurd (Nat.lt_one_iff.mp (by simpa using hn)) h0
        · exact hk
      have := ih hk hn
      omega

theorem emitDigits_length_pos {r f n : Nat} : 1 ≤ (emitDigits r (f + 1) n).length := by
  simp [emitDigits]

/-- The digits the codec emits for a number. -/
theorem numRev_emit {r : Nat} (hr : 2 ≤ r) (n : Nat) :
    numRev r (emitDigits r (n.log2 + 1) n) = n :=
  numRev_emitDigits hr Nat.lt_log2_self

/-- The number of emitted digits is the least length that holds the number (41_radix_codec.md
R145). -/
theorem emit_length {r : Nat} (hr : 2 ≤ r) {n k : Nat} (hk : 1 ≤ k) (h : n < r ^ k)
    (hmin : ∀ j, 1 ≤ j → n < r ^ j → k ≤ j) :
    (emitDigits r (n.log2 + 1) n).length = k := by
  refine Nat.le_antisymm (emitDigits_length_le hr hk h) (hmin _ emitDigits_length_pos ?_)
  have := numRev_lt (emitDigits_lt (by omega : 0 < r) (n.log2 + 1) n)
  rwa [numRev_emit hr] at this

/-- `|int_to_padded_reversed_string(n, r, l)|` (41_radix_codec.md R144). -/
theorem intToPaddedReversed_length (n r l : Nat) :
    (intToPaddedReversed n r l).length = max l (emitDigits r (n.log2 + 1) n).length := by
  simp [intToPaddedReversed]; omega

/-- Character `j` of the output (41_radix_codec.md R144). -/
theorem intToPaddedReversed_getElem {r : Nat} (hr : 2 ≤ r) (n l j : Nat)
    (h : j < (intToPaddedReversed n r l).length) :
    (intToPaddedReversed n r l)[j] = chr (digitAt r n j) := by
  have hd := digitAt_numRev (emitDigits_lt (by omega : 0 < r) (n.log2 + 1) n) j
  rw [numRev_emit hr] at hd
  simp only [intToPaddedReversed, List.getElem_map, hd]
  congr 1
  rw [List.getElem_append]
  split
  · next hj => simp [List.getElem?_eq_getElem hj]
  · next hj => simp [List.getElem?_eq_none (Nat.le_of_not_lt hj)]

/-- Inside the engine the output is the half itself (41_radix_codec.md R147). -/
theorem intToPaddedReversed_eq_revString {r : Nat} (hr : 2 ≤ r) {c m : Nat} (hm : 1 ≤ m)
    (h : c < r ^ m) : intToPaddedReversed c r m = revString r m c := by
  have hl : (intToPaddedReversed c r m).length = m := by
    rw [intToPaddedReversed_length]
    exact max_eq_left (emitDigits_length_le hr hm h)
  refine List.ext_getElem (by simp [hl]) fun j h1 h2 => ?_
  rw [intToPaddedReversed_getElem hr, revString_getElem]

/-- The digits of a half, read back (41_radix_codec.md R147). -/
theorem digits?_revString {r : Nat} (h2 : 2 ≤ r) (h36 : r ≤ 36) (m c : Nat) :
    digits? r (revString r m c) = some ((List.range m).map (digitAt r c)) := by
  rw [digits?_eq_some]
  have hlt : ∀ j, digitAt r c j < r := fun j => Nat.mod_lt _ (by omega)
  constructor
  · simp only [revString, List.map_map]
    refine List.map_congr_left fun j _ => ?_
    simpa using digit_chr (by have := hlt j; omega)
  · intro d hd
    obtain ⟨j, -, rfl⟩ := List.mem_map.mp hd
    exact hlt j

/-- The value of the first `m` digits of a number below `r^m`. -/
theorem numRev_digits {r : Nat} (hr : 0 < r) {m c : Nat} (h : c < r ^ m) :
    numRev r ((List.range m).map (digitAt r c)) = c := by
  induction m generalizing c with
  | zero => simp at h ⊢; omega
  | succ m ih =>
    have hc : c / r < r ^ m := by
      rw [Nat.div_lt_iff_lt_mul hr]; rwa [Nat.pow_succ] at h
    have e : (List.range m).map (fun j => digitAt r c (j + 1)) =
        (List.range m).map (digitAt r (c / r)) := by
      refine List.map_congr_left fun j _ => ?_
      simp only [digitAt]
      rw [Nat.pow_succ, Nat.mul_comm (r ^ j), ← Nat.div_div_eq_div_mul]
    rw [List.range_succ_eq_map, List.map_cons, List.map_map, numRev_cons]
    have e' : (digitAt r c ∘ Nat.succ) = fun j => digitAt r c (j + 1) := rfl
    rw [e', e, ih hc]
    simp [digitAt, Nat.mod_add_div]

/-! ### VAL -/

/-- `VAL < 2^192` (10_state.md R42). -/
theorem State.valInt_lt (s : State) : s.valInt < 2 ^ 192 := by
  have h : ∀ l : List Word,
      l.foldr (fun w acc => w.toNat + 2 ^ 32 * acc) 0 < 2 ^ (32 * l.length) := by
    intro l
    induction l with
    | nil => simp
    | cons w l ih =>
      have := w.isLt
      rw [List.foldr_cons, List.length_cons, Nat.mul_succ, Nat.pow_add]
      omega
  simpa [State.valInt] using h s.vals.toList

/-- The six words of a number below `2^192` hold it (41_radix_codec.md R148, R150). -/
theorem foldr_wordsOf {n : Nat} (h : n < 2 ^ 192) :
    (wordsOf n).toList.foldr (fun w acc => w.toNat + 2 ^ 32 * acc) 0 = n := by
  have e : (wordsOf n).toList =
      [BitVec.ofNat 32 (n >>> 0), BitVec.ofNat 32 (n >>> 32), BitVec.ofNat 32 (n >>> 64),
        BitVec.ofNat 32 (n >>> 96), BitVec.ofNat 32 (n >>> 128), BitVec.ofNat 32 (n >>> 160)] :=
    rfl
  rw [e]
  simp only [List.foldr_cons, List.foldr_nil, BitVec.toNat_ofNat, Nat.shiftRight_eq_div_pow]
  omega

end Sys2Proof.Machine
end

