-- ==== Sys2Proof/Laws/Blocks.lean ====
section
/-! SUPPORT. The byte order of a block (20_memory.md R77 to R79): its bytes and its integer in both
directions, the reversal, and the bytes of the round block. -/

namespace Sys2Proof.Machine

open Sys2Proof.Source

@[simp] theorem blockBytes_length (q : Block) : (blockBytes q).length = 16 := rfl

theorem blockBytes_getElem (q : Block) (j : Nat) (h : j < (blockBytes q).length) :
    (blockBytes q)[j] = q.extractLsb' (120 - 8 * j) 8 := by
  simp [blockBytes]

/-- The big-endian integer of bytes, one byte more. -/
theorem beInt_append_one (bs : List Byte) (b : Byte) :
    beInt (bs ++ [b]) = beInt bs * 256 + b.toNat := by simp [beInt]

theorem beInt_lt (bs : List Byte) : beInt bs < 256 ^ bs.length := by
  induction bs using List.reverseRecOn with
  | nil => simp [beInt]
  | append_singleton bs b ih =>
    have := b.isLt
    rw [beInt_append_one, List.length_append, List.length_singleton, Nat.pow_succ]
    omega

/-- `BE(Q)` (00_scope.md R11): the vector of 16 bytes is their big-endian integer. -/
theorem blockOfBytes_toNat {bs : List Byte} (h : bs.length ≤ 16) :
    (blockOfBytes bs).toNat = beInt bs := by
  induction bs using List.reverseRecOn with
  | nil => rfl
  | append_singleton bs b ih =>
    rw [List.length_append, List.length_singleton] at h
    have ih := ih (by omega)
    have hlt := beInt_lt bs
    have hp : 256 ^ bs.length ≤ 256 ^ 15 := Nat.pow_le_pow_right (by decide) (by omega)
    have hb := b.isLt
    have e : blockOfBytes (bs ++ [b]) = blockOfBytes bs <<< 8 ||| b.setWidth 128 := by
      simp [blockOfBytes]
    rw [e, beInt_append_one, BitVec.toNat_or, BitVec.toNat_shiftLeft, ih, BitVec.toNat_setWidth,
      Nat.mod_eq_of_lt (by omega : b.toNat < 2 ^ 128), Nat.shiftLeft_eq,
      Nat.mod_eq_of_lt (by omega : beInt bs * 2 ^ 8 < 2 ^ 128), Nat.mul_comm]
    rw [← Nat.two_pow_add_eq_or_of_lt hb]
    omega

/-- The bytes of a vector, from its integer. -/
theorem toNat_blockByte (q : Block) (j : Nat) :
    (q.extractLsb' (120 - 8 * j) 8).toNat = q.toNat / 256 ^ (15 - j) % 256 := by
  have e : 120 - 8 * j = 8 * (15 - j) := by omega
  rw [e, BitVec.extractLsb'_toNat, Nat.shiftRight_eq_div_pow, Nat.pow_mul]

/-- Digit `k` from the right of a big-endian integer. -/
theorem beInt_digit (bs : List Byte) (k : Nat) (h : k < bs.length) :
    beInt bs / 256 ^ k % 256 = bs[bs.length - 1 - k].toNat := by
  induction bs using List.reverseRecOn generalizing k with
  | nil => simp at h
  | append_singleton bs b ih =>
    have hb := b.isLt
    rw [beInt_append_one]
    cases k with
    | zero => simp; omega
    | succ k =>
      simp only [List.length_append, List.length_singleton] at h
      have hk : k < bs.length := by omega
      have e : (beInt bs * 256 + b.toNat) / 256 = beInt bs := by omega
      rw [Nat.pow_succ, Nat.mul_comm (256 ^ k), ← Nat.div_div_eq_div_mul, e, ih k hk]
      congr 1
      rw [List.getElem_append_left (by simp; omega)]
      congr 1
      simp; omega

/-- The bytes of a block made of 16 bytes are those bytes (20_memory.md R78). -/
theorem blockBytes_blockOfBytes {bs : List Byte} (h : bs.length = 16) :
    blockBytes (blockOfBytes bs) = bs := by
  refine List.ext_getElem (by simp [h]) fun j h1 h2 => ?_
  rw [blockBytes_getElem]
  apply BitVec.eq_of_toNat_eq
  rw [toNat_blockByte, blockOfBytes_toNat (by omega), beInt_digit _ _ (by omega)]
  congr 2
  omega

/-- A block's integer is the big-endian integer of its bytes. -/
theorem beInt_blockBytes (q : Block) : beInt (blockBytes q) = q.toNat := by
  have h1 : beInt (blockBytes q) < 256 ^ 16 := by simpa using beInt_lt (blockBytes q)
  have h2 : q.toNat < 256 ^ 16 := q.isLt
  rw [← numRev_digits (by decide) h1, ← numRev_digits (by decide) h2]
  congr 1
  refine List.map_congr_left fun k hk => ?_
  have hk := List.mem_range.mp hk
  have e : 15 - (16 - 1 - k) = k := by omega
  rw [digitAt, digitAt, beInt_digit _ _ (by simpa using hk), blockBytes_getElem, toNat_blockByte,
    blockBytes_length, e]

/-- `y` of a response is the big-endian integer of its reversed bytes (20_memory.md R79). -/
theorem responseInt_eq_beInt (z : Block) : responseInt z = beInt (blockBytes z).reverse := by
  rw [responseInt, bswap128, blockOfBytes_toNat (by simp)]

/-- The bytes of `bswap128`, in reverse order (42_feistel_engine.md R175). -/
theorem blockBytes_bswap128 (q : Block) : blockBytes (bswap128 q) = (blockBytes q).reverse :=
  blockBytes_blockOfBytes (by simp)

/-- `bswap128` undoes itself. -/
theorem bswap128_bswap128 (q : Block) : bswap128 (bswap128 q) = q := by
  apply BitVec.eq_of_toNat_eq
  rw [← beInt_blockBytes, ← beInt_blockBytes q, blockBytes_bswap128, blockBytes_bswap128,
    List.reverse_reverse]

theorem beInt_foldr (bs : List Byte) :
    beInt bs.reverse = bs.foldr (fun b acc => b.toNat + 256 * acc) 0 := by
  simp [beInt, List.foldl_reverse, Nat.add_comm, Nat.mul_comm]

/-- `y = sum of Z[j] * 256^j` (20_memory.md R79): the response read little-endian. -/
theorem responseInt_eq_sum (z : Block) :
    responseInt z = ∑ j ∈ Finset.range 16, (z.extractLsb' (120 - 8 * j) 8).toNat * 256 ^ j := by
  have l : ∀ bs : List Byte, bs.foldr (fun b acc => b.toNat + 256 * acc) 0 =
      ∑ j ∈ Finset.range bs.length, (bs.getD j 0).toNat * 256 ^ j := by
    intro bs
    induction bs with
    | nil => simp
    | cons b bs ih =>
      rw [List.foldr_cons, ih, List.length_cons, Finset.sum_range_succ', Finset.mul_sum,
        Nat.add_comm]
      congr 1
      · refine Finset.sum_congr rfl fun j _ => ?_
        simp [Nat.pow_succ]; ring
      · simp
  rw [responseInt_eq_beInt, beInt_foldr, l, blockBytes_length]
  refine Finset.sum_congr rfl fun j hj => ?_
  have hj : j < (blockBytes z).length := Finset.mem_range.mp hj
  rw [List.getD_eq_getElem?_getD, List.getElem?_eq_getElem hj, Option.getD_some,
    blockBytes_getElem]

/-! ### The round block -/

/-- The round block as an integer (42_feistel_engine.md R174). -/
theorem State.roundBlock_toNat (s : State) {x : Nat} (hx : x < 2 ^ 96) :
    (s.roundBlock x).toNat = (s.roundTweak ^^^ s.ri.setWidth 32).toNat * 2 ^ 96 + x := by
  have : (BitVec.ofNat 96 x).toNat = x := by
    rw [BitVec.toNat_ofNat, Nat.mod_eq_of_lt hx]
  rw [State.roundBlock, BitVec.toNat_append, this, Nat.shiftLeft_eq, Nat.mul_comm,
    ← Nat.two_pow_add_eq_or_of_lt hx]

end Sys2Proof.Machine
end

