-- ==== Sys2Proof/Laws/Checks.lean ====
section
/-! SUPPORT. The length bounds (00_scope.md R7) and, for each command, everything its checks can
answer (40_control.md R123 to R126). -/

namespace Sys2Proof.Machine

/-! ### The length bounds -/

theorem limitsIn_mem {t : List (Nat × Nat × Nat)} {r lo hi : Nat}
    (h : limitsIn t r = some (lo, hi)) : (r, lo, hi) ∈ t := by
  induction t with
  | nil => simp [limitsIn] at h
  | cons e t ih =>
    obtain ⟨q, a, b⟩ := e
    simp only [limitsIn] at h
    split at h
    · next hq => cases h; simp [hq]
    · exact List.mem_cons_of_mem _ (ih h)

/-- What every row of the table says (00_scope.md R7, R8, R9). -/
theorem limitsOf_bounds {r lo hi : Nat} (h : limitsOf r = some (lo, hi)) :
    2 ≤ r ∧ r ≤ 36 ∧ 4 ≤ lo ∧ lo < hi ∧ hi ≤ 192 ∧ hi % 2 = 0 ∧ r ^ (hi / 2) ≤ 2 ^ 96 := by
  have all : ∀ e ∈ limitsTable, 2 ≤ e.1 ∧ e.1 ≤ 36 ∧ 4 ≤ e.2.1 ∧ e.2.1 < e.2.2 ∧ e.2.2 ≤ 192 ∧
      e.2.2 % 2 = 0 ∧ e.1 ^ (e.2.2 / 2) ≤ 2 ^ 96 := by decide
  exact all _ (limitsIn_mem h)

theorem limitsOf_isSome {r : Nat} (h2 : 2 ≤ r) (h36 : r ≤ 36) :
    ∃ lo hi, limitsOf r = some (lo, hi) := by
  have all : ∀ r : Fin 37, 2 ≤ r.val → (limitsOf r.val).isSome = true := by decide
  have := all ⟨r, by omega⟩ h2
  obtain ⟨⟨lo, hi⟩, h⟩ := Option.isSome_iff_exists.mp this
  exact ⟨lo, hi, h⟩

theorem limitsOf_none {r : Nat} (h : ¬(2 ≤ r ∧ r ≤ 36)) : limitsOf r = none := by
  cases e : limitsOf r with
  | none => rfl
  | some p =>
    have := limitsOf_bounds (r := r) (lo := p.1) (hi := p.2) e
    omega

theorem validRadix_iff {r : Nat} : validRadix r = true ↔ 2 ≤ r ∧ r ≤ 36 := by
  simp [validRadix]

theorem lenOkFeistel_iff {r n : Nat} :
    lenOkFeistel r n = true ↔ ∃ lo hi, limitsOf r = some (lo, hi) ∧ lo ≤ n ∧ n ≤ hi := by
  unfold lenOkFeistel
  cases h : limitsOf r with
  | none => simp
  | some p => obtain ⟨lo, hi⟩ := p; simp

theorem lenOkStr2int_iff {r n : Nat} :
    lenOkStr2int r n = true ↔ ∃ lo hi, limitsOf r = some (lo, hi) ∧ 1 ≤ n ∧ n ≤ hi := by
  unfold lenOkStr2int
  cases h : limitsOf r with
  | none => simp
  | some p => obtain ⟨lo, hi⟩ := p; simp

/-- A half of an accepted message fits 96 bits (00_scope.md R9). -/
theorem radix_pow_half_le {r n k : Nat} (h : lenOkFeistel r n = true) (hk : k ≤ (n + 1) / 2) :
    r ^ k ≤ 2 ^ 96 := by
  obtain ⟨lo, hi, hl, -, hn⟩ := lenOkFeistel_iff.mp h
  obtain ⟨h2, -, -, -, -, hev, hp⟩ := limitsOf_bounds hl
  exact (Nat.pow_le_pow_right (by omega) (by omega)).trans hp

theorem lenOkFeistel_le {r n : Nat} (h : lenOkFeistel r n = true) : 4 ≤ n ∧ n ≤ 192 := by
  obtain ⟨lo, hi, hl, h1, hn⟩ := lenOkFeistel_iff.mp h
  obtain ⟨-, -, h4, -, h192, -, -⟩ := limitsOf_bounds hl
  omega

/-! ### The characters of an operand string -/

/-- The digit values of `MSG[0..n-1]`. -/
def State.digitsOf (s : State) (n : Nat) : List Nat := (List.range n).map s.digitOf

@[simp] theorem State.digitsOf_length (s : State) (n : Nat) : (s.digitsOf n).length = n := by
  simp [State.digitsOf]

theorem State.charsOk_iff {s : State} {n : Nat} :
    s.charsOk n ↔ ∀ b ∈ s.msgString 0 n, validChar b s.radix.toNat = true := by
  simp [State.charsOk, State.msgString]

/-- The parse of a valid operand string. -/
theorem State.digits?_of_charsOk {s : State} {n : Nat} (h : s.charsOk n) :
    digits? s.radix.toNat (s.msgString 0 n) = some (s.digitsOf n) := by
  rw [digits?_of_valid (State.charsOk_iff.mp h)]
  simp [State.msgString, State.digitsOf, State.digitOf, Function.comp_def]

theorem State.digits?_of_not_charsOk {s : State} {n : Nat} (h : ¬s.charsOk n) :
    digits? s.radix.toNat (s.msgString 0 n) = none := by
  cases e : digits? s.radix.toNat (s.msgString 0 n) with
  | none => rfl
  | some ds =>
    refine absurd (State.charsOk_iff.mpr (digits?_isSome.mp ?_)) h
    simp [e]

theorem State.digitOf_lt {s : State} {n k : Nat} (h : s.charsOk n) (hk : k < n) :
    s.digitOf k < s.radix.toNat := by
  obtain ⟨e, he, hr⟩ := validChar_iff.mp (h k hk)
  simpa [State.digitOf, he] using hr

theorem State.digitsOf_lt {s : State} {n : Nat} (h : s.charsOk n) :
    ∀ d ∈ s.digitsOf n, d < s.radix.toNat := by
  intro d hd
  obtain ⟨k, hk, rfl⟩ := List.mem_map.mp hd
  exact State.digitOf_lt h (List.mem_range.mp hk)

/-! ### What the checks answer -/

/-- ENCRYPT and DECRYPT: the checks pass exactly on a ready operand, with its digit values. -/
theorem State.checkFeistel_ok {s : State} {ds : List Nat} :
    s.checkFeistel = .ok ds ↔ validRadix s.radix.toNat = true ∧
      lenOkFeistel s.radix.toNat s.len.toNat = true ∧ s.charsOk s.len.toNat ∧
      ds = s.digitsOf s.len.toNat := by
  unfold State.checkFeistel
  by_cases hc : s.charsOk s.len.toNat
  · rw [State.digits?_of_charsOk hc]
    split <;> try split
    all_goals first | (simp_all; done) | (simp_all; exact eq_comm)
  · rw [State.digits?_of_not_charsOk hc]
    split <;> try split
    all_goals simp_all

/-- ENCRYPT and DECRYPT: the first failing check (40_control.md R123, 60_exceptions.md R212). -/
theorem State.checkFeistel_error {s : State} {c : ErrCode} :
    s.checkFeistel = .error c ↔
      (validRadix s.radix.toNat = false ∧ c = .invalidRadix) ∨
      (validRadix s.radix.toNat = true ∧ lenOkFeistel s.radix.toNat s.len.toNat = false ∧
        c = .invalidMessageLength) ∨
      (validRadix s.radix.toNat = true ∧ lenOkFeistel s.radix.toNat s.len.toNat = true ∧
        ¬s.charsOk s.len.toNat ∧ c = .invalidCharacter) := by
  unfold State.checkFeistel
  by_cases hc : s.charsOk s.len.toNat
  · rw [State.digits?_of_charsOk hc]
    split <;> try split
    all_goals first | (simp_all; done) | (simp_all; exact eq_comm)
  · rw [State.digits?_of_not_charsOk hc]
    split <;> try split
    all_goals first | (simp_all; done) | (simp_all; exact eq_comm)

theorem State.stringToInt_of_charsOk {s : State} {n : Nat} (hn : 1 ≤ n) (h : s.charsOk n) :
    stringToInt (s.msgString 0 n) s.radix.toNat = some (num s.radix.toNat (s.digitsOf n)) := by
  have : s.msgString 0 n ≠ [] := by
    intro e
    have := congrArg List.length e
    simp at this
    omega
  rw [stringToInt, if_neg this, State.digits?_of_charsOk h]
  rfl

theorem State.stringToInt_of_not_charsOk {s : State} {n : Nat} (h : ¬s.charsOk n) :
    stringToInt (s.msgString 0 n) s.radix.toNat = none := by
  rw [stringToInt, State.digits?_of_not_charsOk h]
  simp

/-- STR2INT: the checks pass exactly on a valid operand, with its value. -/
theorem State.checkStr2int_ok {s : State} {v : Nat} :
    s.checkStr2int = .ok v ↔ validRadix s.radix.toNat = true ∧
      lenOkStr2int s.radix.toNat s.len.toNat = true ∧ s.charsOk s.len.toNat ∧
      v = num s.radix.toNat (s.digitsOf s.len.toNat) := by
  unfold State.checkStr2int
  by_cases hl : lenOkStr2int s.radix.toNat s.len.toNat = true
  · obtain ⟨-, -, -, h1, -⟩ := lenOkStr2int_iff.mp hl
    by_cases hc : s.charsOk s.len.toNat
    · rw [State.stringToInt_of_charsOk h1 hc]
      split <;> first | (simp_all; done) | (simp_all; exact eq_comm)
    · rw [State.stringToInt_of_not_charsOk hc]
      split <;> simp_all
  · split <;> simp_all

/-- STR2INT: the first failing check. -/
theorem State.checkStr2int_error {s : State} {c : ErrCode} :
    s.checkStr2int = .error c ↔
      (validRadix s.radix.toNat = false ∧ c = .invalidRadix) ∨
      (validRadix s.radix.toNat = true ∧ lenOkStr2int s.radix.toNat s.len.toNat = false ∧
        c = .invalidMessageLength) ∨
      (validRadix s.radix.toNat = true ∧ lenOkStr2int s.radix.toNat s.len.toNat = true ∧
        ¬s.charsOk s.len.toNat ∧ c = .invalidCharacter) := by
  unfold State.checkStr2int
  by_cases hl : lenOkStr2int s.radix.toNat s.len.toNat = true
  · obtain ⟨-, -, -, h1, -⟩ := lenOkStr2int_iff.mp hl
    by_cases hc : s.charsOk s.len.toNat
    · rw [State.stringToInt_of_charsOk h1 hc]
      split <;> first | (simp_all; done) | (simp_all; exact eq_comm)
    · rw [State.stringToInt_of_not_charsOk hc]
      split <;> first | (simp_all; done) | (simp_all; exact eq_comm)
  · split <;> first | (simp_all; done) | (simp_all; exact eq_comm)

/-- INT2STR: the checks pass exactly on a valid radix and pad length. -/
theorem State.checkInt2str_ok {s : State} {out : List Byte} :
    s.checkInt2str = .ok out ↔ validRadix s.radix.toNat = true ∧ padOk s.padlen.toNat = true ∧
      out = intToPaddedReversed s.valInt s.radix.toNat s.padlen.toNat := by
  unfold State.checkInt2str
  split <;> try split
  all_goals first | (simp_all; done) | (simp_all; exact eq_comm)

/-- INT2STR: the first failing check. -/
theorem State.checkInt2str_error {s : State} {c : ErrCode} :
    s.checkInt2str = .error c ↔
      (validRadix s.radix.toNat = false ∧ c = .invalidRadix) ∨
      (validRadix s.radix.toNat = true ∧ padOk s.padlen.toNat = false ∧
        c = .invalidMessageLength) := by
  unfold State.checkInt2str
  split <;> try split
  all_goals first | (simp_all; done) | (simp_all; exact eq_comm)

/-- Every output of INT2STR fits MSG (41_radix_codec.md R151). -/
theorem State.int2str_length_le {s : State} (hr : validRadix s.radix.toNat = true)
    (hp : padOk s.padlen.toNat = true) :
    (intToPaddedReversed s.valInt s.radix.toNat s.padlen.toNat).length ≤ 192 := by
  have h2 := (validRadix_iff.mp hr).1
  have hp : s.padlen.toNat ≤ 192 := of_decide_eq_true hp
  have := emitDigits_length_le h2 (f := s.valInt.log2 + 1) (by decide : 1 ≤ 192)
    (s.valInt_lt.trans_le (Nat.pow_le_pow_left h2 192))
  rw [intToPaddedReversed_length]
  omega

/-- Every result of STR2INT fits VAL (41_radix_codec.md R150). -/
theorem State.str2int_value_lt {s : State} (hl : lenOkStr2int s.radix.toNat s.len.toNat = true)
    (hc : s.charsOk s.len.toNat) :
    num s.radix.toNat (s.digitsOf s.len.toNat) < 2 ^ 192 := by
  obtain ⟨lo, hi, hlim, -, hn⟩ := lenOkStr2int_iff.mp hl
  obtain ⟨h2, -, -, -, -, hev, hp⟩ := limitsOf_bounds hlim
  rw [num_eq_numRev]
  refine (numRev_lt (by simpa using State.digitsOf_lt hc)).trans_le ?_
  have e : hi = hi / 2 + hi / 2 := by omega
  calc s.radix.toNat ^ (s.digitsOf s.len.toNat).reverse.length
      ≤ s.radix.toNat ^ hi := Nat.pow_le_pow_right (by omega) (by simpa using hn)
    _ = s.radix.toNat ^ (hi / 2) * s.radix.toNat ^ (hi / 2) := by rw [← Nat.pow_add, ← e]
    _ ≤ 2 ^ 96 * 2 ^ 96 := Nat.mul_le_mul hp hp
    _ = 2 ^ 192 := by norm_num

end Sys2Proof.Machine
end

