-- ==== Sys2Proof/Laws/HostBus.lean ====
section
/-! SUPPORT. The register map is a bijection between registers and the offsets that are not
reserved (10_state.md R31), so a bus access at a register's offset is an access to it. -/

namespace Sys2Proof.Machine

theorem regAt_offset (q : Reg) : regAt q.offset = some q := by
  cases q with
  | val j => revert j; decide
  | msg w => revert w; decide
  | _ => rfl

/-- An aligned offset that names a register is that register's offset. -/
theorem regAt_eq_some {off : Offset} {q : Reg} (ha : off.toNat % 4 = 0) :
    regAt off = some q ↔ off = q.offset := by
  constructor
  · revert q
    have : ∀ n : Fin 128, ∀ q, regAt (BitVec.ofNat 9 (4 * n.val)) = some q →
        BitVec.ofNat 9 (4 * n.val) = q.offset := by decide
    intro q h
    have hlt := off.isLt
    have e : off = BitVec.ofNat 9 (4 * (off.toNat / 4)) := by
      apply BitVec.eq_of_toNat_eq
      rw [BitVec.toNat_ofNat]
      omega
    rw [e] at h ⊢
    exact this ⟨off.toNat / 4, by omega⟩ q h
  · rintro rfl
    exact regAt_offset q

/-- The reserved offsets name no register (10_state.md R31). -/
theorem regAt_reserved {off : Offset} (h : (0x028 ≤ off.toNat ∧ off.toNat < 0x040) ∨
    (0x058 ≤ off.toNat ∧ off.toNat < 0x100) ∨ 0x1C0 ≤ off.toNat) : regAt off = none := by
  have a : ∀ k : Fin 24, regAt (BitVec.ofNat 9 (0x028 + k.val)) = none := by decide
  have b : ∀ k : Fin 84, regAt (BitVec.ofNat 9 (0x058 + k.val)) = none := by decide
  have c : ∀ k : Fin 84, regAt (BitVec.ofNat 9 (0x0AC + k.val)) = none := by decide
  have d : ∀ k : Fin 64, regAt (BitVec.ofNat 9 (0x1C0 + k.val)) = none := by decide
  have lt := off.isLt
  have e : ∀ base k, off.toNat = base + k → off = BitVec.ofNat 9 (base + k) := by
    intro base k h
    rw [← h, BitVec.ofNat_toNat, BitVec.setWidth_eq]
  have : (0x028 ≤ off.toNat ∧ off.toNat < 0x040) ∨ (0x058 ≤ off.toNat ∧ off.toNat < 0x0AC) ∨
      (0x0AC ≤ off.toNat ∧ off.toNat < 0x100) ∨ 0x1C0 ≤ off.toNat := by omega
  rcases this with h | h | h | h
  · rw [e 0x028 (off.toNat - 0x028) (by omega)]; exact a ⟨_, by omega⟩
  · rw [e 0x058 (off.toNat - 0x058) (by omega)]; exact b ⟨_, by omega⟩
  · rw [e 0x0AC (off.toNat - 0x0AC) (by omega)]; exact c ⟨_, by omega⟩
  · rw [e 0x1C0 (off.toNat - 0x1C0) (by omega)]; exact d ⟨_, by omega⟩

/-- Every register's offset is a multiple of 4 (10_state.md R31). -/
theorem Reg.offset_aligned (q : Reg) : q.offset.toNat % 4 = 0 := by
  cases q with
  | val j => revert j; decide
  | msg w => revert w; decide
  | _ => rfl

/-! ### The fields of STATUS -/

theorem toNat_append_add {n m : Nat} (a : BitVec n) (b : BitVec m) :
    (a ++ b).toNat = a.toNat * 2 ^ m + b.toNat := by
  rw [BitVec.toNat_append, ← Nat.shiftLeft_add_eq_or_of_lt b.isLt, Nat.shiftLeft_eq]

theorem getLsbD_append_bool_zero {n : Nat} (a : BitVec n) (b : Bool) :
    (a ++ BitVec.ofBool b).getLsbD 0 = b := by
  simp [BitVec.getLsbD_append, -BitVec.getLsbD_eq_getElem]

theorem getLsbD_append_bool_succ {n : Nat} (a : BitVec n) (b : Bool) (k : Nat) :
    (a ++ BitVec.ofBool b).getLsbD (k + 1) = a.getLsbD k := by
  simp [BitVec.getLsbD_append, -BitVec.getLsbD_eq_getElem]

/-- STATUS as a number, field by field (10_state.md R33). -/
theorem State.statusWord_toNat (s : State) : s.statusWord.toNat =
    s.busy.toNat + 2 * (s.done.toNat + 2 * (s.err.toNat + 2 * (s.wbusy.toNat + 2 * (s.cmdovr.toNat
      + 2 * (s.bcwait.toNat + 8 * (s.errcode.toNat + 256 * s.ri.toNat)))))) := by
  simp only [State.statusWord, toNat_append_add, BitVec.toNat_ofBool, BitVec.toNat_ofNat]
  omega

/-- The one-bit fields of STATUS (10_state.md R33). -/
theorem State.statusWord_bits (s : State) :
    s.statusWord.getLsbD 0 = s.busy ∧ s.statusWord.getLsbD 1 = s.done ∧
    s.statusWord.getLsbD 2 = s.err ∧ s.statusWord.getLsbD 3 = s.wbusy ∧
    s.statusWord.getLsbD 4 = s.cmdovr ∧ s.statusWord.getLsbD 5 = s.bcwait := by
  unfold State.statusWord
  simp only [getLsbD_append_bool_zero, getLsbD_append_bool_succ, and_self]

@[simp] theorem State.memRead_offset (s : State) (q : Reg) :
    s.memRead q.offset = s.readReg q := by
  simp [State.memRead, regAt_offset]

@[simp] theorem State.memWrite_offset (s : State) (q : Reg) (v : Word) :
    s.memWrite q.offset v = s.writeReg v q := by
  simp [State.memWrite, regAt_offset]

end Sys2Proof.Machine
end

