-- ==== Sys2Proof/Laws/PerInstr.lean ====
section
/-! SUPPORT. What is said of every command as syntax, one lemma per command: the word the encoder
writes for it has RSVD zero and the command's own code in OP (30_encoding.md R101, R102), and it
decodes back to the command (R103). -/

namespace Sys2Proof.Laws.DecodeEncode

/-- The statement about one command. -/
def Statement (i : Instr) : Prop :=
  i.wf = true →
    wordLegal (encode i) = true ∧ opField (encode i) = opcode i ∧ decode (encode i) = .ok i

theorem nop : Statement .nop := fun _ => ⟨rfl, rfl, rfl⟩

theorem encrypt : Statement .encrypt := fun _ => ⟨rfl, rfl, rfl⟩

theorem decrypt : Statement .decrypt := fun _ => ⟨rfl, rfl, rfl⟩

theorem str2int : Statement .str2int := fun _ => ⟨rfl, rfl, rfl⟩

theorem int2str : Statement .int2str := fun _ => ⟨rfl, rfl, rfl⟩

end Sys2Proof.Laws.DecodeEncode
end

