-- ==== Sys2Proof/Laws/Steps.lean ====
section
/-! SUPPORT. What a step can do, said once: one inversion lemma for the engine's turn and one for
the host's, and the step as a turn. Later proofs take these cases and unfold no meaning. -/

namespace Sys2Proof.Machine

/-! ### Whose turn it is -/

/-- A step whose turn is given as data (40_control.md R132). -/
theorem step_of_turns {s : State} {t : Turn} {ts : List Turn} (h : s.turns = t :: ts) :
    step s = takeTurn t (s.setTurns ts s.ticks) := by
  simp [step, nextTurn, h]

/-- A step is the turn of some agent on the state less that turn. -/
theorem step_cases (s : State) :
    ∃ t s0, step s = takeTurn t s0 ∧ (nextTurn s).1 = t ∧
      ∃ ts n, s0 = s.setTurns ts n := by
  refine ⟨(nextTurn s).1, (nextTurn s).2, rfl, rfl, ?_⟩
  unfold nextTurn
  cases h : s.turns with
  | nil => exact ⟨[], s.ticks + 1, rfl⟩
  | cons t ts => exact ⟨ts, s.ticks, rfl⟩

/-! ### What the schedule and the host's program do not touch -/

@[simp] theorem State.setTurns_msgByte (s : State) (ts : List Turn) (n k : Nat) :
    (s.setTurns ts n).msgByte k = s.msgByte k := rfl

@[simp] theorem State.setTurns_charsOk (s : State) (ts : List Turn) (n k : Nat) :
    (s.setTurns ts n).charsOk k ↔ s.charsOk k := Iff.rfl

@[simp] theorem State.setTurns_feistelReady (s : State) (ts : List Turn) (n : Nat) :
    (s.setTurns ts n).feistelReady ↔ s.feistelReady := Iff.rfl

@[simp] theorem State.setTurns_digitOf (s : State) (ts : List Turn) (n k : Nat) :
    (s.setTurns ts n).digitOf k = s.digitOf k := rfl

@[simp] theorem State.setTurns_bc (s : State) (ts : List Turn) (n : Nat) (x : Block) :
    (s.setTurns ts n).bc x = s.bc x := rfl

@[simp] theorem State.setTurns_irq (s : State) (ts : List Turn) (n : Nat) :
    (s.setTurns ts n).irq = s.irq := rfl

@[simp] theorem State.setPort_roundLen (s : State) (p : Port) :
    (s.setPort p).roundLen = s.roundLen := rfl

@[simp] theorem State.setPort_roundModulus (s : State) (p : Port) :
    (s.setPort p).roundModulus = s.roundModulus := rfl

/-! ### The decoder -/

theorem decode_zero : decode 0 = .ok .nop := rfl

/-- A word decodes to a command exactly when it is that command's word (30_encoding.md R103). -/
theorem decode_eq_ok {w : Word} {i : Instr} : decode w = .ok i ↔ w = encode i := by
  constructor
  · intro h
    unfold decode at h
    repeat' split at h
    all_goals cases h
    all_goals assumption
  · rintro rfl
    cases i <;> rfl

/-! ### The engine -/

/-- The moves of the engine (40_control.md R123, R132, 42_feistel_engine.md R171). -/
inductive EngineMove (s : State) : State → Prop where
  | stay : EngineMove s s
  | fails (c : ErrCode) (hf : s.fsm = .check)
      (hc : c = .invalidRadix ∨ c = .invalidMessageLength ∨ c = .invalidCharacter ∨
        c = .illegalCommand) : EngineMove s (s.fail c)
  | startEncrypt (hr : s.feistelReady) (hd : decode s.cmd = .ok .encrypt) :
      EngineMove s (s.startRounds (s.digitsOf s.len.toNat) 0)
  | startDecrypt (hr : s.feistelReady) (hd : decode s.cmd = .ok .decrypt) :
      EngineMove s (s.startRounds (s.digitsOf s.len.toNat) 7)
  | str2int (hf : s.fsm = .check) (hd : decode s.cmd = .ok .str2int)
      (hr : validRadix s.radix.toNat = true)
      (hl : lenOkStr2int s.radix.toNat s.len.toNat = true) (hc : s.charsOk s.len.toNat) :
      EngineMove s
        (s.setVals (wordsOf (num s.radix.toNat (s.digitsOf s.len.toNat)))).complete
  | int2str (out : List Byte) (hf : s.fsm = .check) (hd : decode s.cmd = .ok .int2str)
      (hr : validRadix s.radix.toNat = true) (hp : padOk s.padlen.toNat = true)
      (ho : out = intToPaddedReversed s.valInt s.radix.toNat s.padlen.toNat) :
      EngineMove s ((s.storeBytes 0 out).setOutlen (BitVec.ofNat 8 out.length)).complete
  | issueEncrypt (hf : s.fsm = .issue) (hd : decode s.cmd = .ok .encrypt) :
      EngineMove s (s.issueRound s.hb)
  | issueDecrypt (hf : s.fsm = .issue) (hd : decode s.cmd = .ok .decrypt) :
      EngineMove s (s.issueRound s.ha)
  | roundEncrypt (z : Block) (hf : s.fsm = .wait) (hp : s.port = .rsp z)
      (hd : decode s.cmd = .ok .encrypt) : EngineMove s (s.encryptRound z)
  | roundDecrypt (z : Block) (hf : s.fsm = .wait) (hp : s.port = .rsp z)
      (hd : decode s.cmd = .ok .decrypt) : EngineMove s (s.decryptRound z)

theorem feistelCheck_cases (s : State) (ri : BitVec 3) (hf : s.fsm = .check) :
    (∃ c, s.feistelCheck ri = s.fail c ∧
      (c = .invalidRadix ∨ c = .invalidMessageLength ∨ c = .invalidCharacter)) ∨
    (s.feistelReady ∧ s.feistelCheck ri = s.startRounds (s.digitsOf s.len.toNat) ri) := by
  unfold State.feistelCheck
  cases h : s.checkFeistel with
  | error c =>
    refine .inl ⟨c, rfl, ?_⟩
    rcases State.checkFeistel_error.mp h with ⟨-, h⟩ | ⟨-, -, h⟩ | ⟨-, -, -, h⟩ <;> simp [h]
  | ok ds =>
    obtain ⟨hr, hl, hc, rfl⟩ := State.checkFeistel_ok.mp h
    exact .inr ⟨⟨hf, hr, hl, hc⟩, rfl⟩

/-- Every meaning answers a next state, and it is a move of the engine when its command is the
one in `eng.cmd`. -/
theorem exec_move {i : Instr} {s : State} (hd : decode s.cmd = .ok i) :
    ∃ t, exec i s = .next t ∧ EngineMove s t := by
  cases i with
  | nop => exact ⟨s, rfl, .stay⟩
  | encrypt =>
    simp only [exec, execEncrypt]
    cases hf : s.fsm with
    | idle => exact ⟨s, rfl, .stay⟩
    | check =>
      refine ⟨_, rfl, ?_⟩
      obtain ⟨c, h, hc⟩ | ⟨hr, h⟩ := feistelCheck_cases s 0 hf
      · rw [h]; exact .fails c hf (by tauto)
      · rw [h]; exact .startEncrypt hr hd
    | issue => exact ⟨_, rfl, .issueEncrypt hf hd⟩
    | wait =>
      cases hp : s.port with
      | empty => exact ⟨s, rfl, .stay⟩
      | req x => exact ⟨s, rfl, .stay⟩
      | rsp z => exact ⟨_, rfl, .roundEncrypt z hf hp hd⟩
  | decrypt =>
    simp only [exec, execDecrypt]
    cases hf : s.fsm with
    | idle => exact ⟨s, rfl, .stay⟩
    | check =>
      refine ⟨_, rfl, ?_⟩
      obtain ⟨c, h, hc⟩ | ⟨hr, h⟩ := feistelCheck_cases s 7 hf
      · rw [h]; exact .fails c hf (by tauto)
      · rw [h]; exact .startDecrypt hr hd
    | issue => exact ⟨_, rfl, .issueDecrypt hf hd⟩
    | wait =>
      cases hp : s.port with
      | empty => exact ⟨s, rfl, .stay⟩
      | req x => exact ⟨s, rfl, .stay⟩
      | rsp z => exact ⟨_, rfl, .roundDecrypt z hf hp hd⟩
  | str2int =>
    simp only [exec, execStr2int]
    cases hf : s.fsm with
    | idle => exact ⟨s, rfl, .stay⟩
    | issue => exact ⟨s, rfl, .stay⟩
    | wait => exact ⟨s, rfl, .stay⟩
    | check =>
      refine ⟨_, rfl, ?_⟩
      unfold State.str2int
      cases h : s.checkStr2int with
      | error c =>
        refine .fails c hf ?_
        rcases State.checkStr2int_error.mp h with ⟨-, h⟩ | ⟨-, -, h⟩ | ⟨-, -, -, h⟩ <;> simp [h]
      | ok v =>
        obtain ⟨hr, hl, hc, rfl⟩ := State.checkStr2int_ok.mp h
        exact .str2int hf hd hr hl hc
  | int2str =>
    simp only [exec, execInt2str]
    cases hf : s.fsm with
    | idle => exact ⟨s, rfl, .stay⟩
    | issue => exact ⟨s, rfl, .stay⟩
    | wait => exact ⟨s, rfl, .stay⟩
    | check =>
      refine ⟨_, rfl, ?_⟩
      unfold State.int2str
      cases h : s.checkInt2str with
      | error c =>
        refine .fails c hf ?_
        rcases State.checkInt2str_error.mp h with ⟨-, h⟩ | ⟨-, -, h⟩ <;> simp [h]
      | ok out =>
        obtain ⟨hr, hp, ho⟩ := State.checkInt2str_ok.mp h
        exact .int2str out hf hd hr hp ho

/-- The engine's turn is one of its moves (40_control.md R132). -/
theorem engineTurn_move (s : State) : ∃ t, engineTurn s = .next t ∧ EngineMove s t := by
  unfold engineTurn
  cases hd : decode s.cmd with
  | ok i => exact exec_move hd
  | error e =>
    refine ⟨_, rfl, ?_⟩
    unfold illegalTurn
    cases hf : s.fsm with
    | check => exact .fails _ hf (by simp)
    | idle => exact .stay
    | issue => exact .stay
    | wait => exact .stay

/-! ### The host -/

/-- What one legal host write can do to the block (40_control.md R120 to R122, R131, 10_state.md
R33, R34, R44). -/
inductive WriteMove (s : State) : State → Prop where
  | ignored : WriteMove s s
  | accepted (w : Word) (hf : s.fsm = .idle) (hw : w ≠ 0) : WriteMove s (s.accept w)
  | overrun (hf : s.fsm ≠ .idle) : WriteMove s s.cmdOverrun
  | status (w : Word) : WriteMove s (s.clearStatus w)
  | irqen (b : Bool) : WriteMove s (s.setIrqen b)
  | dropped (hf : s.fsm ≠ .idle) : WriteMove s s.writeDropped
  | radix (v : Word) (hf : s.fsm = .idle) : WriteMove s (s.setRadix v)
  | len (v : Word) (hf : s.fsm = .idle) : WriteMove s (s.setLen v)
  | padlen (v : Word) (hf : s.fsm = .idle) : WriteMove s (s.setPadlen v)
  | tl (v : Word) (hf : s.fsm = .idle) : WriteMove s (s.setTl v)
  | tr (v : Word) (hf : s.fsm = .idle) : WriteMove s (s.setTr v)
  | val (vs : Vector Word 6) (hf : s.fsm = .idle) : WriteMove s (s.setVals vs)
  | msg (w : Nat) (v : Word) (hf : s.fsm = .idle) : WriteMove s (s.storeMsgWord w v)

theorem State.busyDrop_idle {s : State} (stored : State) (hf : s.fsm = .idle) :
    s.busyDrop stored = stored := if_pos hf

theorem State.busyDrop_busy {s : State} (stored : State) (hf : s.fsm ≠ .idle) :
    s.busyDrop stored = s.writeDropped := if_neg hf

theorem State.cmdWrite_zero (s : State) : s.cmdWrite 0 = .next s := rfl

theorem State.cmdWrite_idle {s : State} {w : Word} (hw : w ≠ 0) (hf : s.fsm = .idle) :
    s.cmdWrite w = .next (s.accept w) := by
  rw [State.cmdWrite, if_neg (by exact hw), if_pos hf]

theorem State.cmdWrite_busy {s : State} {w : Word} (hw : w ≠ 0) (hf : s.fsm ≠ .idle) :
    s.cmdWrite w = .next s.cmdOverrun := by
  rw [State.cmdWrite, if_neg (by exact hw), if_neg hf]

theorem writeReg_move (s : State) (v : Word) (q : Reg) :
    ∃ t, s.writeReg v q = .next t ∧ WriteMove s t := by
  by_cases hf : s.fsm = .idle
  · cases q <;> simp only [State.writeReg, State.busyDrop_idle _ hf]
    case cmd =>
      by_cases hw : v = 0
      · subst hw; exact ⟨s, s.cmdWrite_zero, .ignored⟩
      · exact ⟨_, State.cmdWrite_idle hw hf, .accepted v hf hw⟩
    case status => exact ⟨_, rfl, .status v⟩
    case irqen => exact ⟨_, rfl, .irqen _⟩
    case radix => exact ⟨_, rfl, .radix v hf⟩
    case len => exact ⟨_, rfl, .len v hf⟩
    case padlen => exact ⟨_, rfl, .padlen v hf⟩
    case tl => exact ⟨_, rfl, .tl v hf⟩
    case tr => exact ⟨_, rfl, .tr v hf⟩
    case limits => exact ⟨_, rfl, .ignored⟩
    case outlen => exact ⟨_, rfl, .ignored⟩
    case val j => exact ⟨_, rfl, .val _ hf⟩
    case msg w => exact ⟨_, rfl, .msg w.val v hf⟩
  · cases q <;> simp only [State.writeReg, State.busyDrop_busy _ hf]
    case cmd =>
      by_cases hw : v = 0
      · subst hw; exact ⟨s, s.cmdWrite_zero, .ignored⟩
      · exact ⟨_, State.cmdWrite_busy hw hf, .overrun hf⟩
    case status => exact ⟨_, rfl, .status v⟩
    case irqen => exact ⟨_, rfl, .irqen _⟩
    case limits => exact ⟨_, rfl, .ignored⟩
    case outlen => exact ⟨_, rfl, .ignored⟩
    all_goals exact ⟨_, rfl, .dropped hf⟩

theorem memWrite_move (s : State) (off : Offset) (v : Word) :
    ∃ t, s.memWrite off v = .next t ∧ WriteMove s t := by
  unfold State.memWrite
  cases regAt off with
  | none => exact ⟨s, rfl, .ignored⟩
  | some q => exact writeReg_move s v q

/-- A host turn: it stays, it faults on an illegal access, or it takes the first entry off its
program and, for a write, does to the block what the write does. -/
theorem hostTurn_cases (s : State) :
    hostTurn s = .next s ∨
    (∃ op p, s.program = op :: p ∧ op.legal = false ∧
      ∃ off, hostTurn s = .fault (.hostBusError off)) ∨
    (∃ op p rs t, s.program = op :: p ∧ op.legal = true ∧
      WriteMove (s.setHost p rs) t ∧ hostTurn s = .next t) := by
  unfold hostTurn
  cases hp : s.program with
  | nil => exact .inl rfl
  | cons op p =>
    cases op with
    | write off size v =>
      cases hl : legalAccess off size with
      | false => exact .inr (.inl ⟨_, _, rfl, hl, off, by simp [hl]⟩)
      | true =>
        obtain ⟨t, ht, hm⟩ := memWrite_move (s.setHost p s.reads) off v
        exact .inr (.inr ⟨_, _, s.reads, t, rfl, hl, hm, by simp [hl, ht]⟩)
    | read off size =>
      cases hl : legalAccess off size with
      | false => exact .inr (.inl ⟨_, _, rfl, hl, off, by simp [hl]⟩)
      | true =>
        exact .inr (.inr ⟨_, _, s.reads ++ [(off, s.memRead off)], _, rfl, hl, .ignored,
          by simp [hl]⟩)
    | poll off mask val =>
      cases hl : legalAccess off 4 with
      | false => exact .inr (.inl ⟨_, _, rfl, hl, off, by simp [hl]⟩)
      | true =>
        by_cases hv : s.memRead off &&& mask = val
        · exact .inr (.inr ⟨_, _, s.reads, _, rfl, hl, .ignored, by simp [hl, hv]⟩)
        · exact .inl (by simp [hl, hv])
    | waitIrq =>
      by_cases hi : s.irq = true
      · exact .inr (.inr ⟨_, _, s.reads, _, rfl, rfl, .ignored, by simp [hi]⟩)
      · exact .inl (by simp [hi])

/-! ### The block-cipher unit -/

/-- A BC turn answers the outstanding request or stays (42_feistel_engine.md R176). -/
theorem bcTurn_cases (s : State) :
    (∃ x, s.port = .req x ∧ bcTurn s = s.setPort (.rsp (s.bc x))) ∨
    ((∀ x, s.port ≠ .req x) ∧ bcTurn s = s) := by
  unfold bcTurn
  cases s.port <;> simp

/-! ### The rounds -/

/-- The last round of ENCRYPT commits (42_feistel_engine.md R180). -/
theorem State.encryptRound_last {s : State} {z : Block} (h : s.ri = 7) :
    s.encryptRound z = ((s.setPort .empty).encryptCombine (responseInt z)).commit := by
  rw [State.encryptRound, State.advance, if_pos (by simpa using h)]

/-- Every other round of ENCRYPT goes on to the next index (42_feistel_engine.md R180). -/
theorem State.encryptRound_next {s : State} {z : Block} (h : s.ri ≠ 7) :
    s.encryptRound z =
      ((s.setPort .empty).encryptCombine (responseInt z)).nextRound (s.ri + 1) := by
  rw [State.encryptRound, State.advance, if_neg (by simpa using h)]

/-- The last round of DECRYPT commits (42_feistel_engine.md R180). -/
theorem State.decryptRound_last {s : State} {z : Block} (h : s.ri = 0) :
    s.decryptRound z = ((s.setPort .empty).decryptCombine (responseInt z)).commit := by
  rw [State.decryptRound, State.advance, if_pos (by simpa using h)]

/-- Every other round of DECRYPT goes on to the next index (42_feistel_engine.md R180). -/
theorem State.decryptRound_next {s : State} {z : Block} (h : s.ri ≠ 0) :
    s.decryptRound z =
      ((s.setPort .empty).decryptCombine (responseInt z)).nextRound (s.ri - 1) := by
  rw [State.decryptRound, State.advance, if_neg (by simpa using h)]

/-! ### The commit -/

/-- Every byte of MSG after the commit (42_feistel_engine.md R181). -/
theorem State.msgByte_commit (s : State) (h : s.u + s.v ≤ 192) (k : Nat) :
    s.commit.msgByte k =
      if k < s.u then chr (digitAt s.radix.toNat s.ha k)
      else if k < s.u + s.v then chr (digitAt s.radix.toNat s.hb (k - s.u))
      else s.msgByte k := by
  have e : s.commit.msgByte k = ((s.storeBytes 0 (revString s.radix.toNat s.u s.ha)).storeBytes
      s.u (revString s.radix.toNat s.v s.hb)).msgByte k := rfl
  have hcap : Config.msgCapacity = 192 := rfl
  rw [e]
  by_cases h1 : k < s.u
  · rw [if_pos h1, State.msgByte_storeBytes_other (.inl h1), State.msgByte_storeBytes, hcap,
      if_pos (by omega), List.getElem?_eq_getElem (by simpa using h1)]
    simp
  · rw [if_neg h1]
    by_cases h2 : k < s.u + s.v
    · rw [if_pos h2, State.msgByte_storeBytes, hcap, if_pos (by omega),
        List.getElem?_eq_getElem (by simp; omega)]
      simp
    · rw [if_neg h2, State.msgByte_storeBytes_other (.inr (by simp; omega)),
        State.msgByte_storeBytes_other (.inr (by simp; omega))]

/-! ### The parity of a round -/

theorem State.evenRound_iff (s : State) : s.evenRound = true ↔ s.ri.toNat % 2 = 0 := by
  have : ∀ r : BitVec 3, (!r.getLsbD 0) = true ↔ r.toNat % 2 = 0 := by decide
  exact this s.ri

/-- The half length of a round by the parity of its index (42_feistel_engine.md R173). -/
theorem State.roundLen_eq (s : State) :
    s.roundLen = if s.ri.toNat % 2 = 0 then s.u else s.v := by
  simp only [State.roundLen, State.evenRound_iff]

/-- The half-tweak of a round by the parity of its index (42_feistel_engine.md R173). -/
theorem State.roundTweak_eq (s : State) :
    s.roundTweak = if s.ri.toNat % 2 = 0 then s.tr else s.tl := by
  simp only [State.roundTweak, State.evenRound_iff]

theorem State.otherLen_eq (s : State) :
    s.otherLen = if s.ri.toNat % 2 = 0 then s.v else s.u := by
  simp only [State.otherLen, State.evenRound_iff]

/-- The next round and the one before it have the other parity, so the lengths change places. -/
theorem State.roundLen_flip {s t : State} (hu : t.u = s.u) (hv : t.v = s.v)
    (hr : t.ri = s.ri + 1 ∨ t.ri = s.ri - 1) :
    t.roundLen = s.otherLen ∧ t.otherLen = s.roundLen := by
  have up : ∀ r : BitVec 3, (r + 1).toNat % 2 = 0 ↔ ¬r.toNat % 2 = 0 := by decide
  have down : ∀ r : BitVec 3, (r - 1).toNat % 2 = 0 ↔ ¬r.toNat % 2 = 0 := by decide
  have e : t.ri.toNat % 2 = 0 ↔ ¬s.ri.toNat % 2 = 0 := by
    rcases hr with h | h <;> rw [h]
    · exact up _
    · exact down _
  rw [State.roundLen_eq, State.otherLen_eq, State.roundLen_eq, State.otherLen_eq, hu, hv]
  by_cases h : s.ri.toNat % 2 = 0 <;> simp [e, h]

/-! ### A step -/

/-- Everything a step that gives a next state can do: a move of the engine, of the BC, of the reset
input, or of the host, on the state less the turn. -/
theorem step_inv {s t : State} (h : step s = .next t) :
    ∃ ts n,
      ((nextTurn s).1 = .engine ∧ EngineMove (s.setTurns ts n) t) ∨
      ((nextTurn s).1 = .bc ∧ t = bcTurn (s.setTurns ts n)) ∨
      ((nextTurn s).1 = .reset ∧ t = (s.setTurns ts n).resetBlock) ∨
      ((nextTurn s).1 = .host ∧ (t = s.setTurns ts n ∨
        ∃ op p rs, s.program = op :: p ∧ op.legal = true ∧
          WriteMove ((s.setTurns ts n).setHost p rs) t)) := by
  obtain ⟨a, s0, h1, h2, ts, n, rfl⟩ := step_cases s
  refine ⟨ts, n, ?_⟩
  rw [h1] at h
  cases a with
  | engine =>
    obtain ⟨t', h', m⟩ := engineTurn_move (s.setTurns ts n)
    simp only [takeTurn, h'] at h
    cases h
    exact .inl ⟨h2, m⟩
  | bc => cases h; exact .inr (.inl ⟨h2, rfl⟩)
  | reset => cases h; exact .inr (.inr (.inl ⟨h2, rfl⟩))
  | host =>
    simp only [takeTurn] at h
    refine .inr (.inr (.inr ⟨h2, ?_⟩))
    rcases hostTurn_cases (s.setTurns ts n) with h' | ⟨_, _, _, _, _, h'⟩ |
      ⟨op, p, rs, t', hp, hl, hm, h'⟩
    · rw [h'] at h; cases h; exact .inl rfl
    · rw [h'] at h; cases h
    · rw [h'] at h; cases h; exact .inr ⟨op, p, rs, hp, hl, hm⟩

end Sys2Proof.Machine
end

