-- ==== Sys2Proof/Laws/Source.lean ====
section
/-! SUPPORT. Laws of the source's procedure on strings (42_feistel_engine.md R170) against the
engine's integer form (R184): its block and response, its rounds one by one, and what the agreement
of the two reads of a state. -/

namespace Sys2Proof.Machine

/-! ### Strings and halves -/

@[simp] theorem State.message_length (s : State) : s.message.length = s.len.toNat := by
  simp [State.message]

/-- The value of a canonical half string, read reversed, is the half (00_scope.md R14). -/
theorem intOfReverse_revString {r m c : Nat} (h2 : 2 ≤ r) (h36 : r ≤ 36) (h : c < r ^ m) :
    Source.intOfReverse r (revString r m c) = c := by
  have key : ∀ (l : List Byte) (ds : List Nat), l.map digit = ds.map some →
      l.filterMap digit = ds := by
    intro l ds hl
    have e : l.filterMap digit = (l.map digit).filterMap id := by simp [List.filterMap_map]
    rw [e, hl, List.filterMap_map]
    simp
  rw [Source.intOfReverse, List.filterMap_reverse,
    key _ _ (digits?_eq_some.mp (digits?_revString h2 h36 m c)).1, num_reverse,
    numRev_digits (by omega) h]

/-! ### The block and the response -/

/-- The source's block is the bytes of the engine's round block (42_feistel_engine.md R174). -/
theorem source_block_eq (s : State) {x : Nat} (hx : x < 2 ^ 96) :
    Source.block s.roundTweak s.ri.toNat x = blockBytes (s.roundBlock x) := by
  have top : ∀ j, j < 4 → (s.roundBlock x).extractLsb' (120 - 8 * j) 8 =
      (s.roundTweak ^^^ s.ri.setWidth 32).extractLsb' (24 - 8 * j) 8 := by
    intro j hj
    ext k hk
    simp only [State.roundBlock, BitVec.getElem_extractLsb', BitVec.getLsbD_append]
    rw [if_neg (by omega)]
    congr 1
    omega
  have index : ∀ r : BitVec 3, ∀ j : Fin 4,
      (r.setWidth 32).extractLsb' (24 - 8 * j.val) 8 =
        if j.val = 3 then BitVec.ofNat 8 r.toNat else 0 := by decide
  refine List.ext_getElem (by simp [Source.block, Source.bigEndian]) fun j h1 h2 => ?_
  rw [blockBytes_getElem]
  simp only [blockBytes_length] at h2
  by_cases h4 : 4 ≤ j
  · have e : (Source.block s.roundTweak s.ri.toNat x)[j] =
        (Source.bigEndian 12 x)[j - 4]'(by simp [Source.bigEndian]; omega) := by
      simp only [Source.block]
      rw [List.getElem_append_right (by simpa using h4)]
      simp
    refine e.trans (BitVec.eq_of_toNat_eq ?_)
    have p : 2 ^ 96 = 256 ^ (15 - j) * 256 * 256 ^ (j - 4) := by
      rw [← Nat.pow_succ, ← Nat.pow_add, show 15 - j + 1 + (j - 4) = 12 by omega]
      norm_num
    have q : ∀ a, a * (256 ^ (15 - j) * 256 * 256 ^ (j - 4)) + x =
        x + 256 ^ (15 - j) * (256 * (256 ^ (j - 4) * a)) := by intro a; ring
    rw [toNat_blockByte, State.roundBlock_toNat _ hx, p, q,
      Nat.add_mul_div_left _ _ (Nat.pow_pos (by omega)), Nat.add_mul_mod_self_left]
    simp only [Source.bigEndian, List.getElem_map, List.getElem_range, BitVec.toNat_ofNat,
      Nat.reducePow]
    congr 3
    omega
  · have h : j = 0 ∨ j = 1 ∨ j = 2 ∨ j = 3 := by omega
    rw [top j (by omega), BitVec.extractLsb'_xor, index s.ri ⟨j, by omega⟩]
    rcases h with rfl | rfl | rfl | rfl <;> simp [Source.block, Source.tweakByte]

/-- The reversed block of the source is the engine's request (42_feistel_engine.md R175). -/
theorem source_request_eq (s : State) {x : List Byte}
    (hx : Source.intOfReverse s.radix.toNat x < 2 ^ 96) :
    blockOfBytes (Source.roundBlock s.radix.toNat s.tl s.tr s.ri.toNat x).reverse =
      bswap128 (s.roundBlock (Source.intOfReverse s.radix.toNat x)) := by
  rw [Source.roundBlock, ← State.roundTweak_eq, source_block_eq s hx, bswap128]

/-- `y` of the source is the engine's number of the BC's answer (42_feistel_engine.md R177). -/
theorem source_cipherInt_eq (bc : Block → Block) (p : List Byte) :
    Source.cipherInt bc p = responseInt (bc (blockOfBytes p.reverse)) := by
  rw [Source.cipherInt, responseInt_eq_beInt]

/-! ### The rounds, one by one -/

theorem source_encryptStrings_succ (bc : Block → Block) (r : Nat) (tl tr : Word) (x : List Byte)
    (k : Nat) :
    Source.encryptStrings bc r tl tr x (k + 1) =
      Source.encryptRound bc r ((x.length + 1) / 2) (x.length - (x.length + 1) / 2) tl tr
        (Source.encryptStrings bc r tl tr x k) k := by
  simp [Source.encryptStrings, List.range_succ]

theorem source_decryptStrings_succ (bc : Block → Block) (r : Nat) (tl tr : Word) (x : List Byte)
    (k : Nat) :
    Source.decryptStrings bc r tl tr x (k + 1) =
      Source.decryptRound bc r ((x.length + 1) / 2) (x.length - (x.length + 1) / 2) tl tr
        (Source.decryptStrings bc r tl tr x k) (7 - k) := by
  simp [Source.decryptStrings, List.range_succ]

/-! ### What the agreement reads -/

/-- `t` has the operands, the message and the function `bc` of `s`. -/
structure SameMessage (s t : State) : Prop where
  radix : t.radix = s.radix
  len : t.len = s.len
  tl : t.tl = s.tl
  tr : t.tr = s.tr
  bcTable : t.bcTable = s.bcTable
  msg : t.msg = s.msg
  draws : t.draws = s.draws

theorem SameMessage.bc {s t : State} (h : SameMessage s t) : t.bc = s.bc := by
  funext x
  simp [State.bc, h.bcTable]

theorem SameMessage.message {s t : State} (h : SameMessage s t) : t.message = s.message := by
  unfold State.message State.msgString
  rw [h.len]
  exact List.map_congr_left fun k _ => State.msgByte_congr h.msg h.draws _

theorem SameMessage.encryptStrings {s t : State} (h : SameMessage s t) (hr : t.ri = s.ri) :
    t.encryptStrings = s.encryptStrings := by
  unfold State.encryptStrings
  rw [h.bc, h.radix, h.tl, h.tr, h.message, hr]

theorem SameMessage.decryptStrings {s t : State} (h : SameMessage s t) (hr : t.ri = s.ri) :
    t.decryptStrings = s.decryptStrings := by
  unfold State.decryptStrings
  rw [h.bc, h.radix, h.tl, h.tr, h.message, hr]

theorem SameMessage.charsOk {s t : State} {n : Nat} (h : SameMessage s t) :
    t.charsOk n ↔ s.charsOk n := by
  simp only [State.charsOk, State.msgByte_congr h.msg h.draws, h.radix]

/-- The agreement reads the message, the round, the halves and the port. -/
theorem SameMessage.agrees {s t : State} {ab : List Byte × List Byte} {x : List Byte}
    (h : SameMessage s t) (hri : t.ri = s.ri) (hha : t.ha = s.ha) (hla : t.la = s.la)
    (hhb : t.hb = s.hb) (hlb : t.lb = s.lb) (hp : t.port = s.port) (a : s.Agrees ab x) :
    t.Agrees ab x := by
  obtain ⟨a1, a2, a3, a4, a5, a6⟩ := a
  constructor <;> simp only [h.radix, h.tl, h.tr, h.bc, hri, hha, hla, hhb, hlb, hp] <;> assumption

/-- A state in which no round runs agrees with any string. -/
theorem State.Inv.sourceInv {s : State} (h : s.Inv) (hf : s.fsm = .idle ∨ s.fsm = .check) :
    s.SourceInv := by
  refine ⟨h, ?_, ?_, ?_⟩ <;> (intro f; rcases hf with hf | hf <;> simp [hf] at f)

end Sys2Proof.Machine
end

