-- ==== Sys2Proof/Tests/Slice0.lean ====
section
/-! SUPPORT. Tests of the model on fixed values, each with its expected result from the spec
(95_test_vectors.md, or the example a rule gives), and for every obligation with hypotheses a
concrete state and operands that meet them, clause by clause. -/

namespace Sys2Proof.Tests

open Sys2Proof Sys2Proof.Machine

/-! ### Decoding -/

/-- 30_encoding.md R101, R102: bits 31:4 are RSVD, bits 3:0 are OP. -/
theorem test_decode_nop : decode 0b0000000000000000000000000000_0000 = .ok .nop := rfl

theorem test_decode_encrypt : decode 0b0000000000000000000000000000_0001 = .ok .encrypt := rfl

theorem test_decode_decrypt : decode 0b0000000000000000000000000000_0010 = .ok .decrypt := rfl

theorem test_decode_str2int : decode 0b0000000000000000000000000000_0011 = .ok .str2int := rfl

theorem test_decode_int2str : decode 0b0000000000000000000000000000_0100 = .ok .int2str := rfl

theorem test_decode_table_word :
    decodeTableWord 32 0x4 = some .int2str ∧ decodeTableWord 32 0x80000001 = none := by decide

/-! ### Well-formedness: an ill-formed word for each check -/

/-- RSVD not zero with an assigned OP (40_control.md R130: "0x00000011 is ILLEGAL"). -/
theorem test_rsvd_refused :
    rsvdZero 0x00000011 = false ∧ opAssigned 0x00000011 = true ∧
      decode 0x00000011 = .error (.illegal 0x00000011) := ⟨by decide, by decide, rfl⟩

/-- A reserved OP with RSVD zero (30_encoding.md R102). -/
theorem test_op_refused :
    rsvdZero 0x00000005 = true ∧ opAssigned 0x00000005 = false ∧
      decode 0x00000005 = .error (.illegal 0x00000005) := ⟨by decide, by decide, rfl⟩

/-- A host access of 8 bits, and one at an unaligned offset (20_memory.md R72). -/
theorem test_access_refused :
    HostOp.legal (.write 0x00C 1 10) = false ∧ HostOp.legal (.read 0x00E 4) = false ∧
      HostOp.legal (.poll 0x006 0x3 0x2) = false := by decide

/-! ### The demonstration state: 42_feistel_engine.md R182's example -/

/-- RADIX = 10, LEN = 6, TL = 0, TR = 0x00401884, MSG = "652745". -/
def demo : State := { State.reset with
  radix := 10, len := 6, tr := 0x00401884,
  msg := [(0, 0x36), (1, 0x35), (2, 0x32), (3, 0x37), (4, 0x34), (5, 0x35)] }

/-- A command accepted over the demonstration operands. -/
def demoCheck (w : Word) : State := { demo with cmd := w, fsm := .check }

/-- A round of that message, with the values R182 gives for its start. -/
def demoRound (w : Word) (fsm : Fsm) (port : Port) (ri : BitVec 3) : State :=
  { demo with
    cmd := w, fsm := fsm, port := port, ri := ri, u := 3, v := 3, ha := 256, hb := 547,
    la := 3, lb := 3 }

/-- The response of the identity block cipher to round 0 (95_test_vectors.md): the request. -/
def demoAnswer : Block := 0x23020000000000000000000084184000

/-- One field of the state an outcome gives. -/
def after {α : Type} (o : Host.Outcome State Fault Refusal) (f : State → α) : Option α :=
  match o with
  | .next t => some (f t)
  | .fault _ => none
  | .refused _ => none

/-! ### One step of each command -/

/-- 40_control.md R129: with STATUS = 0x00000002, `wr CMD, 0x0` leaves it. -/
theorem test_nop :
    after (step (State.withFetchWord { demo with done := true } 32 0)) State.statusWord =
      some 0x00000002 := by decide

/-- 42_feistel_engine.md R182: `u = v = 3`, `ha = 256`, `hb = 547`. -/
theorem test_encrypt_check :
    after (exec .encrypt (demoCheck 1)) (fun t => (t.u, t.v, t.ha, t.hb, t.ri, t.fsm)) =
      some (3, 3, 256, 547, 0, .issue) := by decide

/-- 42_feistel_engine.md R182: `c = (256 + y) mod 1000 = 683` in round 0. -/
theorem test_encrypt_round :
    after (exec .encrypt (demoRound 1 .wait (.rsp demoAnswer) 0))
      (fun t => (t.ha, t.hb, t.ri, t.fsm)) = some (547, 683, 1, .issue) := by decide

/-- 42_feistel_engine.md R172: DECRYPT starts at round 7. -/
theorem test_decrypt_check :
    after (exec .decrypt (demoCheck 2)) (fun t => (t.ha, t.hb, t.ri, t.fsm)) =
      some (256, 547, 7, .issue) := by decide

/-- 42_feistel_engine.md R179, 00_scope.md R10: the remainder of a negative difference. With
`y = 2^128 - 1`, `(547 - y) mod 1000 = 92`, as `2^128 mod 1000 = 456`. -/
theorem test_decrypt_round_negative :
    after (exec .decrypt (demoRound 2 .wait (.rsp (BitVec.allOnes 128)) 7))
      (fun t => (t.ha, t.hb, t.ri)) = some (92, 256, 6) := by decide

/-- 41_radix_codec.md R148: RADIX = 16, LEN = 2, MSG = "fF" gives VAL0 = 0x000000FF. -/
theorem test_str2int :
    after (exec .str2int { State.reset with
      cmd := 3, fsm := .check, radix := 16, len := 2, msg := [(0, 0x66), (1, 0x46)] })
      (fun t => (t.vals.toList, t.statusWord)) =
      some ([0x000000FF, 0, 0, 0, 0, 0], 0x00000002) := by decide

/-- 95_test_vectors.md 2.1: RADIX = 10, LEN = 0 fails with STATUS = 0x00000406. -/
theorem test_str2int_empty :
    after (exec .str2int { State.reset with cmd := 3, fsm := .check, radix := 10 })
      State.statusWord = some 0x00000406 := by decide

/-- 41_radix_codec.md R149: RADIX = 16, PADLEN = 4, VAL = 255 writes "ff00", OUTLEN = 4. -/
theorem test_int2str :
    after (exec .int2str { State.reset with
      cmd := 4, fsm := .check, radix := 16, padlen := 4, vals := #v[255, 0, 0, 0, 0, 0] })
      (fun t => (t.msgString 0 4, t.outlen)) = some ([0x66, 0x66, 0x30, 0x30], 4) := by decide

/-- 95_test_vectors.md E4: VAL = 0, PADLEN = 0 writes "0", OUTLEN = 1. -/
theorem test_int2str_zero :
    after (exec .int2str { State.reset with cmd := 4, fsm := .check, radix := 10 })
      (fun t => (t.msgString 0 1, t.outlen)) = some ([0x30], 1) := by decide

/-! ### The engine, the window and the placing of a word -/

/-- 42_feistel_engine.md R182: round 0 has `P = 0x00401884000000000000000000000223`; the request
is its bytes in reverse order (R175). -/
theorem test_issue :
    after (exec .encrypt (demoRound 1 .issue .empty 0)) (fun t => (t.port, t.fsm)) =
      some (.req demoAnswer, .wait) := by decide

/-- 40_control.md R130: RADIX = 0, `wr CMD, 0x5`, then the CHECK step gives 0x00000706. -/
theorem test_illegal :
    after (engineTurn { State.reset with cmd := 5, fsm := .check }) State.statusWord =
      some 0x00000706 := by decide

/-- 95_test_vectors.md E3: LIMITS for radix 10. -/
theorem test_limits : demo.memRead 0x020 = 0x00003806 := by decide

/-- From reset RADIX is 0, so the first command placed fails with code 2 (95_test_vectors.md
E2: STATUS = 0x00000206). -/
theorem test_first_step :
    after (step (State.reset.withFetchWord 32 1)) State.statusWord = some 0x00000206 := by decide

/-- 20_memory.md R74: "6527" from MSG[0] is the word 0x37323536. -/
theorem test_msg_lanes : demo.memRead 0x100 = 0x37323536 := by decide

/-! ### Witnesses: the hypotheses of the obligations, met -/

/-- The first host access is `op`, and it is the host's turn. -/
def hostAt (s : State) (op : HostOp) : State := { s with turns := [.host], program := [op] }

theorem witness_DecodeOfEncodeIsTheCommand : Instr.wf .int2str = true := rfl

theorem witness_EngineTurnRunsTheDecodedCommand :
    let s : State := { demoCheck 1 with turns := [.engine] }
    s.turns = [.engine] ∧ decode s.cmd = .ok .encrypt := by decide

theorem witness_NoStepInIdleOrUnansweredWait :
    demo.fsm = .idle ∧
    (let s := demoRound 1 .wait (.req demoAnswer) 0
     s.fsm = .wait ∧ s.port = .req demoAnswer) ∧
    (∀ x, demo.port ≠ .req x) ∧
    (∀ x, (demoRound 1 .wait (.rsp demoAnswer) 0).port ≠ .req x) :=
  ⟨rfl, ⟨rfl, rfl⟩, fun _ => nofun, fun _ => nofun⟩

theorem witness_BcTurnAnswersTheRequest :
    (let s : State := { demoRound 1 .wait (.req demoAnswer) 0 with turns := [.bc] }
     s.turns = [.bc] ∧ s.port = .req demoAnswer) ∧ State.reset.bcTable = [] :=
  ⟨⟨rfl, rfl⟩, rfl⟩

theorem witness_BcFunctionNeverChanges :
    step { demo with turns := [.bc] } = .next demo := rfl

theorem witness_ResetInputClearsTheBlock :
    State.turns { demoRound 1 .wait (.req demoAnswer) 3 with turns := [.reset] } = [.reset] :=
  rfl

/-- The demonstration state meets the invariant, idle and one step into a command. -/
theorem witness_EveryStepKeepsTheInvariant :
    State.Inv { demoCheck 1 with turns := [.engine] } ∧
    ∃ t, step { demoCheck 1 with turns := [.engine] } = .next t := by
  refine ⟨⟨by decide, by decide, by decide, by decide, by decide, ?_, by decide, by decide,
    by decide, by decide⟩, _, rfl⟩
  rintro (h | h) <;> exact absurd h (by decide)

theorem witness_OtherAccessesAreBusErrors :
    (hostAt demo (.write 0x00C 1 10)).turns = [.host] ∧ (1 : Nat) ≠ 4 ∧
    (hostAt demo (.write 0x00C 1 10)).program = [.write 0x00C 1 10] ∧
    (0x1FD : Offset).toNat % 4 ≠ 0 ∧
    (hostAt demo (.read 0x1FD 4)).program = [.read 0x1FD 4] ∧
    (0x006 : Offset).toNat % 4 ≠ 0 ∧
    (hostAt demo (.poll 0x006 3 2)).program = [.poll 0x006 3 2] := by decide

theorem witness_LegalHostNeverFaults :
    (hostAt demo (.write 0x1FC 4 1)).hostLegal = true := by decide

theorem witness_ReadHasNoSideEffect :
    (hostAt demo (.read 0x1FC 4)).turns = [.host] ∧
    (hostAt demo (.read 0x1FC 4)).program = [.read 0x1FC 4] ∧
    (0x1FC : Offset).toNat % 4 = 0 := by decide

/-- The ends of the three reserved ranges, and the registers beside them. -/
theorem witness_RegisterMapReads :
    (∀ off : Offset, off = 0x028 ∨ off = 0x03C → 0x028 ≤ off.toNat ∧ off.toNat < 0x040) ∧
    (∀ off : Offset, off = 0x058 ∨ off = 0x0FC → 0x058 ≤ off.toNat ∧ off.toNat < 0x100) ∧
    (∀ off : Offset, off = 0x1C0 ∨ off = 0x1FC → 0x1C0 ≤ off.toNat) ∧
    regAt 0x024 = some .outlen ∧ regAt 0x040 = some (.val 0) ∧ regAt 0x054 = some (.val 5) ∧
    regAt 0x100 = some (.msg 0) ∧ regAt 0x1BC = some (.msg 47) := by
  refine ⟨?_, ?_, ?_, by decide, by decide, by decide, by decide, by decide⟩
  · rintro off (rfl | rfl) <;> decide
  · rintro off (rfl | rfl) <;> decide
  · rintro off (rfl | rfl) <;> decide

theorem witness_LimitsRegister :
    (let s : State := { demo with radix := 2 }
     2 ≤ s.radix.toNat ∧ s.radix.toNat ≤ 36) ∧
    (let s : State := { demo with radix := 36 }
     2 ≤ s.radix.toNat ∧ s.radix.toNat ≤ 36) ∧
    (let s : State := { demo with radix := 1 }
     ¬(2 ≤ s.radix.toNat ∧ s.radix.toNat ≤ 36)) ∧
    (let s : State := { demo with radix := 37 }
     ¬(2 ≤ s.radix.toNat ∧ s.radix.toNat ≤ 36)) := by decide

theorem witness_BusyDropRegisters :
    Reg.isBusyDrop (.msg 47) = true ∧ (demoCheck 1).fsm ≠ .idle ∧
    Reg.isBusyDrop (.val 5) = true ∧ demo.fsm = .idle := by decide

theorem witness_IdleWriteLeavesOtherRegisters :
    Reg.isBusyDrop (.msg 0) = true ∧ demo.fsm = .idle ∧ Reg.msg 47 ≠ Reg.msg 0 ∧
    Reg.msg 47 ≠ Reg.limits := by decide

theorem witness_CmdWriteDoesOneOfThree :
    (let s := hostAt (demoCheck 1) (.write 0x000 4 0)
     s.turns = [.host] ∧ s.program = [.write 0x000 4 0]) ∧
    (let s := hostAt demo (.write 0x000 4 0xFFFFFFFF)
     s.program = [.write 0x000 4 0xFFFFFFFF] ∧ (0xFFFFFFFF : Word) ≠ 0 ∧ s.fsm = .idle) ∧
    (let s := hostAt (demoCheck 1) (.write 0x000 4 1)
     s.program = [.write 0x000 4 1] ∧ (1 : Word) ≠ 0 ∧ s.fsm ≠ .idle) := by decide

theorem witness_IllegalCommandFailsWithCode7 :
    (∀ i, (5 : Word) ≠ encode i) ∧ (∀ i, (0x11 : Word) ≠ encode i) ∧ demo.fsm = .idle ∧
    (demoCheck 5).fsm = .check ∧ (demoCheck 5).cmd = 5 ∧ (demoCheck 1).fsm ≠ .idle := by
  refine ⟨?_, ?_, by decide, by decide, by decide, by decide⟩ <;>
    intro i <;> cases i <;> decide

theorem witness_AcceptedCommandReadsBusyNotDone :
    (2 : Word) ≠ 0 ∧ State.fsm { demo with done := true } = .idle := by decide

theorem witness_LimitsTableIsExact :
    (2 ≤ 2 ∧ 2 ≤ 36) ∧ (2 ≤ 36 ∧ 36 ≤ 36) ∧ ¬(2 ≤ 1 ∧ 1 ≤ 36) ∧ ¬(2 ≤ 37 ∧ 37 ≤ 36) ∧
    (1000000 ≤ 10 ^ 6) ∧ 10 ^ 28 ≤ 2 ^ 96 := by decide

/-- The characters beside the three ranges belong to none of them. -/
theorem witness_CharacterMaps :
    ∀ b : Byte, b = 0x2F ∨ b = 0x3A ∨ b = 0x40 ∨ b = 0x5B ∨ b = 0x60 ∨ b = 0x7B →
      ¬(0x30 ≤ b.toNat ∧ b.toNat ≤ 0x39) ∧ ¬(0x61 ≤ b.toNat ∧ b.toNat ≤ 0x7A) ∧
        ¬(0x41 ≤ b.toNat ∧ b.toNat ≤ 0x5A) := by
  rintro b (rfl | rfl | rfl | rfl | rfl | rfl) <;> decide

theorem witness_FeistelCheckReportsFirstFailure :
    (demoCheck 1).fsm = .check ∧
    (let s : State := { demoCheck 1 with radix := 37 }
     ¬(2 ≤ s.radix.toNat ∧ s.radix.toNat ≤ 36)) ∧
    limitsOf (demoCheck 1).radix.toNat = some (6, 56) ∧
    (let s : State := { demoCheck 1 with len := 5 }
     ¬(6 ≤ s.len.toNat ∧ s.len.toNat ≤ 56)) ∧
    (let s : State := { demoCheck 1 with len := 57 }
     ¬(6 ≤ s.len.toNat ∧ s.len.toNat ≤ 56)) ∧
    (let s : State := { demoCheck 1 with msg := [(0, 0x61)] }
     6 ≤ s.len.toNat ∧ s.len.toNat ≤ 56 ∧ 0 < s.len.toNat ∧
       validChar (s.msgByte 0) s.radix.toNat = false) := by decide

theorem witness_Str2intCheckReportsFirstFailure :
    (demoCheck 3).fsm = .check ∧
    (let s : State := { demoCheck 3 with radix := 1 }
     ¬(2 ≤ s.radix.toNat ∧ s.radix.toNat ≤ 36)) ∧
    limitsOf (demoCheck 3).radix.toNat = some (6, 56) ∧
    State.len { demoCheck 3 with len := 0 } = 0 ∧
    56 < (State.len { demoCheck 3 with len := 57 }).toNat ∧
    (let s : State := { demoCheck 3 with msg := [(0, 0x61)], len := 1 }
     1 ≤ s.len.toNat ∧ s.len.toNat ≤ 56 ∧ 0 < s.len.toNat ∧
       validChar (s.msgByte 0) s.radix.toNat = false) := by decide

theorem witness_Int2strCheckReportsFirstFailure :
    (demoCheck 4).fsm = .check ∧
    (let s : State := { demoCheck 4 with radix := 0 }
     ¬(2 ≤ s.radix.toNat ∧ s.radix.toNat ≤ 36)) ∧
    (let s : State := { demoCheck 4 with padlen := 193 }
     2 ≤ s.radix.toNat ∧ s.radix.toNat ≤ 36 ∧ 192 < s.padlen.toNat) := by decide

theorem witness_ErrorsComeFromTheCheckStep :
    let s : State := { demoCheck 1 with radix := 0, turns := [.engine] }
    ∃ t, step s = .next t ∧ s.err = false ∧ t.err = true := ⟨_, rfl, rfl, rfl⟩

/-- One character, and (radix 36) the longest string. -/
theorem witness_Str2intWritesTheValue :
    (let s : State := { demoCheck 3 with len := 1 }
     s.fsm = .check ∧ limitsOf s.radix.toNat = some (6, 56) ∧ 1 ≤ s.len.toNat ∧
       s.len.toNat ≤ 56 ∧ ∀ k, k < s.len.toNat → validChar (s.msgByte k) s.radix.toNat = true) ∧
    (let s : State := { demoCheck 3 with
       radix := 36, len := 36, msg := (List.range 36).map fun k => (k, 0x7A) }
     limitsOf s.radix.toNat = some (4, 36) ∧ s.len.toNat ≤ 36 ∧
       ∀ k, k < s.len.toNat → validChar (s.msgByte k) s.radix.toNat = true) := by decide

/-- VAL = 0 has one digit; the pad length is at its largest. -/
theorem witness_Int2strWritesTheDigits :
    let s : State := { demoCheck 4 with padlen := 192 }
    s.fsm = .check ∧ 2 ≤ s.radix.toNat ∧ s.radix.toNat ≤ 36 ∧ s.padlen.toNat ≤ 192 ∧ 1 ≤ 1 ∧
      s.valInt < s.radix.toNat ^ 1 ∧ ∀ k, 1 ≤ k → s.valInt < s.radix.toNat ^ k → 1 ≤ k :=
  ⟨rfl, by decide, by decide, by decide, by decide, by decide, fun _ h _ => h⟩

theorem witness_CodecPrimitivesInverseThroughReversal :
    (2 ≤ 2 ∧ 2 ≤ 36) ∧ (2 ≤ 36 ∧ 36 ≤ 36) ∧ ([0x7A, 0x41] : List Byte) ≠ [] ∧
    (∀ b ∈ ([0x7A, 0x41] : List Byte), validChar b 36 = true) := by decide

theorem witness_CodecFrame :
    (∃ t, exec .str2int (demoCheck 3) = .next t) ∧
    (∃ t, exec .int2str (demoCheck 4) = .next t ∧
      (intToPaddedReversed (demoCheck 4).valInt (demoCheck 4).radix.toNat
        (demoCheck 4).padlen.toNat).length ≤ 191) ∧
    (∃ t, exec .str2int { demoCheck 3 with radix := 0 } = .next t ∧ t.err = true ∧
      State.err { demoCheck 3 with radix := 0 } = false) ∧
    demo.fsm ≠ .check :=
  ⟨⟨_, rfl⟩, ⟨_, rfl, by decide⟩, ⟨_, rfl, rfl, rfl⟩, by decide⟩

theorem witness_FeistelCheckStartsTheRounds :
    (demoCheck 2).fsm = .check ∧ limitsOf (demoCheck 2).radix.toNat = some (6, 56) ∧
    6 ≤ (demoCheck 2).len.toNat ∧ (demoCheck 2).len.toNat ≤ 56 ∧
    ∀ k, k < (demoCheck 2).len.toNat →
      validChar ((demoCheck 2).msgByte k) (demoCheck 2).radix.toNat = true := by decide

/-- An even round of ENCRYPT, and an odd round of DECRYPT. -/
theorem witness_IssueSendsTheReversedRoundBlock :
    (let s := demoRound 1 .issue .empty 0
     s.fsm = .issue ∧ s.hb < 2 ^ 96 ∧
       s.tr = (if s.ri.toNat % 2 = 0 then s.tr else s.tl)) ∧
    (let s := demoRound 2 .issue .empty 7
     s.fsm = .issue ∧ s.ha < 2 ^ 96 ∧
       s.tl = (if s.ri.toNat % 2 = 0 then s.tr else s.tl)) := by decide

theorem witness_EncryptRoundCombinesAndAdvances :
    let s := demoRound 1 .wait (.rsp demoAnswer) 6
    s.fsm = .wait ∧ s.port = .rsp demoAnswer ∧ s.ri ≠ 7 ∧
      3 = (if s.ri.toNat % 2 = 0 then s.u else s.v) := by decide

theorem witness_DecryptRoundCombinesAndAdvances :
    let s := demoRound 2 .wait (.rsp demoAnswer) 1
    s.fsm = .wait ∧ s.port = .rsp demoAnswer ∧ s.ri ≠ 0 ∧ 1 ≤ s.radix.toNat ∧
      3 = (if s.ri.toNat % 2 = 0 then s.u else s.v) := by decide

theorem witness_EncryptLastRoundCommits :
    let s := demoRound 1 .wait (.rsp demoAnswer) 7
    s.fsm = .wait ∧ s.port = .rsp demoAnswer ∧ s.ri = 7 ∧ s.u + s.v ≤ 192 := by decide

theorem witness_DecryptLastRoundCommits :
    let s := demoRound 2 .wait (.rsp demoAnswer) 0
    s.fsm = .wait ∧ s.port = .rsp demoAnswer ∧ s.ri = 0 ∧ s.u + s.v ≤ 192 ∧
      1 ≤ s.radix.toNat := by decide

/-- The last round changes MSG; a failing CHECK and an idle turn are the other clauses. -/
theorem witness_FeistelFrame :
    (∃ t, exec .encrypt (demoRound 1 .wait (.rsp demoAnswer) 7) = .next t ∧ t.fsm = .idle) ∧
    (∃ t, exec .decrypt (demoRound 2 .wait (.rsp demoAnswer) 1) = .next t ∧ t.fsm ≠ .idle) ∧
    (∃ t, exec .encrypt { demoCheck 1 with radix := 0 } = .next t) ∧
    (∃ t, exec .decrypt demo = .next t ∧ demo.fsm = .idle) :=
  ⟨⟨_, rfl, rfl⟩, ⟨_, rfl, nofun⟩, ⟨_, rfl⟩, ⟨_, rfl, rfl⟩⟩

/-- The demonstration operands pass every check. -/
theorem demo_ready (w : Word) (ts : List Turn) (p : List HostOp) :
    State.feistelReady { demoCheck w with turns := ts, program := p } :=
  ⟨rfl, (by decide : validRadix 10 = true), (by decide : lenOkFeistel 10 6 = true),
    (by decide : ∀ k < 6, validChar (demo.msgByte k) 10 = true)⟩

/-- Answers of 0 to the eight requests of the demonstration operands, the same for ENCRYPT and
DECRYPT: with `y = 0` the halves 256 and 547 only change places. -/
def demoTable : List (Block × Block) :=
  [(0x23020000000000000000000084184000, 0), (0x00010000000000000000000001000000, 0),
   (0x23020000000000000000000086184000, 0), (0x00010000000000000000000003000000, 0),
   (0x23020000000000000000000080184000, 0), (0x00010000000000000000000005000000, 0),
   (0x23020000000000000000000082184000, 0), (0x00010000000000000000000007000000, 0)]

/-- The answered last round of a command under those answers. -/
def demoLast (w : Word) (ri : BitVec 3) : State :=
  { demoRound w .wait (.rsp 0) ri with
    ha := 547, hb := 256, bcTable := demoTable, turns := [.engine] }

theorem demoLast_inv : (demoLast 1 7).Inv ∧ (demoLast 2 0).Inv := by
  refine ⟨⟨⟨fun _ => nofun, fun _ => rfl⟩, fun _ => ⟨rfl, rfl⟩, fun _ => rfl, nofun,
      fun _ => by decide, fun _ => ⟨.inl rfl, rfl, by decide, rfl, rfl, fun _ => ⟨rfl, rfl⟩,
        nofun, by decide, by decide⟩, by decide, by decide, by decide, rfl⟩,
    ⟨⟨fun _ => nofun, fun _ => rfl⟩, fun _ => ⟨rfl, rfl⟩, fun _ => rfl, nofun,
      fun _ => by decide, fun _ => ⟨.inr rfl, rfl, by decide, rfl, rfl, nofun,
        fun _ => ⟨rfl, rfl⟩, by decide, by decide⟩, by decide, by decide, by decide, rfl⟩⟩

theorem demoLast_chars (w : Word) (ri : BitVec 3) :
    (demoLast w ri).charsOk (demoLast w ri).len.toNat :=
  (by decide : ∀ k < 6, validChar (demo.msgByte k) 10 = true)

/-- The strings before the last round, from the source's procedure. -/
theorem demoLast_encrypt :
    (demoLast 1 7).Agrees (demoLast 1 7).encryptStrings (demoLast 1 7).encryptStrings.2 :=
  ⟨by decide +kernel, by decide +kernel, by decide +kernel, by decide +kernel, fun _ => nofun,
    fun z h => by cases h; decide +kernel⟩

theorem demoLast_decrypt :
    (demoLast 2 0).Agrees (demoLast 2 0).decryptStrings (demoLast 2 0).decryptStrings.1 :=
  ⟨by decide +kernel, by decide +kernel, by decide +kernel, by decide +kernel, fun _ => nofun,
    fun z h => by cases h; decide +kernel⟩

/-- The last rounds of ENCRYPT and DECRYPT, each an engine turn that ends in IDLE. -/
theorem witness_EveryStepKeepsTheSourceStrings :
    ((demoLast 1 7).SourceInv ∧ decode (demoLast 1 7).cmd = .ok .encrypt ∧
      (nextTurn (demoLast 1 7)).1 = .engine ∧ (demoLast 1 7).fsm = .wait ∧
      ∃ t, step (demoLast 1 7) = .next t ∧ t.fsm = .idle) ∧
    ((demoLast 2 0).SourceInv ∧ decode (demoLast 2 0).cmd = .ok .decrypt ∧
      (nextTurn (demoLast 2 0)).1 = .engine ∧ (demoLast 2 0).fsm = .wait ∧
      ∃ t, step (demoLast 2 0) = .next t ∧ t.fsm = .idle) :=
  ⟨⟨⟨demoLast_inv.1, fun _ => demoLast_chars 1 7, fun _ _ => demoLast_encrypt, fun _ => nofun⟩,
      rfl, rfl, rfl, _, rfl, rfl⟩,
    ⟨⟨demoLast_inv.2, fun _ => demoLast_chars 2 0, fun _ => nofun, fun _ _ => demoLast_decrypt⟩,
      rfl, rfl, rfl, _, rfl, rfl⟩⟩

theorem witness_EncryptRunComputesTheSourceProcedure :
    let s : State := { demoCheck 1 with turns := commandTurns ++ [] }
    s.feistelReady ∧ s.cmd = 0x00000001 ∧ s.turns = commandTurns ++ [] :=
  ⟨demo_ready 1 _ _, rfl, rfl⟩

theorem witness_DecryptRunComputesTheSourceProcedure :
    let s : State := { demoCheck 2 with turns := commandTurns ++ [] }
    s.feistelReady ∧ s.cmd = 0x00000002 ∧ s.turns = commandTurns ++ [] :=
  ⟨demo_ready 2 _ _, rfl, rfl⟩

theorem witness_DecryptAfterEncryptGivesLowercase :
    let s : State := { demoCheck 1 with
      turns := commandTurns ++ .host :: (commandTurns ++ []), program := [.write 0x000 4 2] }
    s.feistelReady ∧ s.cmd = 0x00000001 ∧
      s.turns = commandTurns ++ .host :: (commandTurns ++ []) ∧
      s.program = [.write 0x000 4 0x00000002] :=
  ⟨demo_ready 1 _ _, rfl, rfl, rfl⟩

theorem witness_OutputKeepsLengthAndAlphabet :
    let s : State := { demoCheck 2 with turns := commandTurns ++ [] }
    s.feistelReady ∧ s.cmd = 0x00000002 ∧ s.turns = commandTurns ++ [] :=
  ⟨demo_ready 2 _ _, rfl, rfl⟩

theorem witness_EnabledStepsCountDownToCompletion :
    (demoCheck 1).cmd = encode .encrypt ∧
    State.feistelReady { demoCheck 1 with turns := [], program := [] } ∧
    (let s := demoRound 2 .issue .empty 7
     s.cmd = encode .decrypt ∧ s.fsm = .issue) ∧
    (let s := demoRound 1 .wait (.rsp demoAnswer) 7
     s.cmd = encode .encrypt ∧ s.fsm = .wait ∧ s.port = .rsp demoAnswer) ∧
    (let s := demoRound 1 .wait (.req demoAnswer) 0
     s.cmd = encode .encrypt ∧ s.fsm = .wait ∧ s.port = .req demoAnswer) ∧
    (let s : State := { demo with cmd := 1 }
     s.cmd = encode .encrypt ∧ s.stepsLeft .encrypt = 0) :=
  ⟨rfl, demo_ready 1 _ _, ⟨rfl, rfl⟩, ⟨rfl, rfl, rfl⟩, ⟨rfl, rfl, rfl⟩, ⟨rfl, rfl⟩⟩

theorem witness_EightRequestsOnePerRound :
    (demoCheck 1).cmd = encode .encrypt ∧
    State.feistelReady { demoCheck 1 with turns := [], program := [] } ∧
    (∃ t, engineTurn (demoCheck 1) = .next t) ∧
    (let s := demoRound 2 .issue .empty 0
     s.cmd = encode .decrypt ∧ s.fsm = .issue ∧ ∃ t, engineTurn s = .next t) ∧
    (let s := demoRound 2 .wait (.rsp demoAnswer) 0
     s.cmd = encode .decrypt ∧ s.fsm ≠ .issue ∧ ∃ t, engineTurn s = .next t) :=
  ⟨rfl, demo_ready 1 _ _, ⟨_, rfl⟩, ⟨rfl, rfl, _, rfl⟩, ⟨rfl, nofun, _, rfl⟩⟩

theorem witness_HostTurnLeavesRunningCommandAlone :
    let s := hostAt (demoRound 1 .wait (.req demoAnswer) 3) (.write 0x00C 4 16)
    s.fsm ≠ .idle ∧ ∃ t, hostTurn s = .next t ∧ t.wbusy = true := ⟨nofun, _, rfl, rfl⟩

theorem witness_NoPartialResultWhileBusy :
    let s : State := { demoRound 1 .wait (.rsp demoAnswer) 6 with turns := [.engine] }
    ∃ t, step s = .next t ∧ s.fsm ≠ .idle ∧ t.fsm ≠ .idle := ⟨_, rfl, nofun, nofun⟩

theorem witness_IrqIsEnableAndDone :
    (∃ t, engineTurn (demoCheck 3) = .next t ∧ (demoCheck 3).fsm ≠ .idle ∧ t.fsm = .idle) ∧
    (0x1E : Word).getLsbD 1 = true ∧ (1 : Word) ≠ 0 ∧ demo.fsm = .idle ∧
    (0xFFFFFFFE : Word).getLsbD 0 = false :=
  ⟨⟨_, rfl, nofun, rfl⟩, by decide, by decide, rfl, by decide⟩

/-- A completion raises `irq`, and so does enabling it over a DONE that is 1. -/
theorem witness_IrqRisesOnlyByCompletionOrEnable :
    (let s : State := { demoCheck 3 with irqen := true, turns := [.engine] }
     ∃ t, step s = .next t ∧ s.irq = false ∧ t.irq = true) ∧
    (let s := hostAt { demo with done := true } (.write 0x008 4 1)
     ∃ t, step s = .next t ∧ s.irq = false ∧ t.irq = true) :=
  ⟨⟨_, rfl, rfl, rfl⟩, ⟨_, rfl, rfl, rfl⟩⟩

theorem witness_PollAdvancesExactlyOnMatch :
    (let s := hostAt { demo with done := true } (.poll 0x004 3 2)
     s.turns = [.host] ∧ s.program = [.poll 0x004 3 2] ∧ (0x004 : Offset).toNat % 4 = 0 ∧
       s.memRead 0x004 &&& 3 = 2) ∧
    (let s := hostAt (demoCheck 1) (.poll 0x004 3 2)
     s.memRead 0x004 &&& 3 ≠ 2) := by decide

/-- A string whose last word has unused lanes, and one that fills MSG. -/
theorem witness_LdmsgWritesTheString :
    (let s : State := { demo with
       program := HostLine.encode (.ldmsg [0x31, 0x32, 0x33, 0x34, 0x35]) ++ [],
       turns := List.replicate 2 .host ++ [] }
     s.fsm = .idle ∧ ([0x31, 0x32, 0x33, 0x34, 0x35] : List Byte).length ≤ 192 ∧
       s.turns = List.replicate ((5 + 3) / 4) .host ++ []) ∧
    (List.replicate 192 (0x7A : Byte)).length ≤ 192 := ⟨by decide, List.length_replicate.le⟩

theorem witness_LdvalWritesTheNumber :
    let s : State := { demo with
      program := HostLine.encode (.ldval (2 ^ 192 - 1)) ++ [],
      turns := List.replicate 6 .host ++ [] }
    s.fsm = .idle ∧ 2 ^ 192 - 1 < 2 ^ 192 ∧
      s.program = HostLine.encode (.ldval (2 ^ 192 - 1)) ++ [] ∧
      s.turns = List.replicate 6 .host ++ [] := ⟨rfl, by decide, rfl, rfl⟩

end Sys2Proof.Tests
end

section
/-! PROOF. The block-cipher function is one function for a whole run (00_scope.md R6,
70_reset_and_hazards.md R250): no move of an agent touches the answers given as data. -/

namespace Sys2Proof.Machine

/-- The function `bc` is read from the answers given as data alone. -/
theorem State.bc_congr {s t : State} (h : t.bcTable = s.bcTable) (x : Block) :
    t.bc x = s.bc x := by
  simp only [State.bc, h]

@[simp] theorem State.advance_bcTable (s : State) (last next : BitVec 3) :
    (s.advance last next).bcTable = s.bcTable := by
  unfold State.advance
  split
  · exact s.commit_bcTable
  · exact s.nextRound_bcTable next

/-- No move of the engine changes the BC's answers. -/
theorem EngineMove.bcTable {s t : State} (m : EngineMove s t) : t.bcTable = s.bcTable := by
  cases m with
  | roundEncrypt z => simp [State.encryptRound]
  | roundDecrypt z => simp [State.decryptRound]
  | _ => rfl

/-- No host write changes the BC's answers. -/
theorem WriteMove.bcTable {s t : State} (m : WriteMove s t) : t.bcTable = s.bcTable := by
  cases m <;> rfl

/-- Answering a request does not change the answers. -/
@[simp] theorem bcTurn_bcTable (s : State) : (bcTurn s).bcTable = s.bcTable := by
  obtain ⟨x, -, h⟩ | ⟨-, h⟩ := bcTurn_cases s <;> simp [h]

/-- No step changes the BC's answers. -/
theorem step_bcTable {s t : State} (h : step s = .next t) : t.bcTable = s.bcTable := by
  obtain ⟨ts, n, ⟨-, engine⟩ | ⟨-, rfl⟩ | ⟨-, rfl⟩ | ⟨-, rfl | ⟨-, p, rs, -, -, write⟩⟩⟩ :=
    step_inv h
  · exact engine.bcTable
  · exact bcTurn_bcTable _
  · rfl
  · rfl
  · exact write.bcTable

/-- Settles O8: `bc` depends on the answers given as data, and no step changes those. -/
theorem bcFunctionNeverChanges : Obligations.BcFunctionNeverChanges :=
  fun _ _ h => State.bc_congr (step_bcTable h)

end Sys2Proof.Machine
end

section
/-! PROOF. The length table against the definitions of 00_scope.md R7. -/

namespace Sys2Proof.Machine

/-- Every row of the table at its edges (00_scope.md R7): MINLEN reaches the million and one less
does not, and one more than half of MAXLEN passes 96 bits. -/
theorem limitsOf_edges {r lo hi : Nat} (h : limitsOf r = some (lo, hi)) :
    1000000 ≤ r ^ lo ∧ r ^ (lo - 1) < 1000000 ∧ 2 ^ 96 < r ^ (hi / 2 + 1) := by
  have all : ∀ e ∈ limitsTable, 1000000 ≤ e.1 ^ e.2.1 ∧ e.1 ^ (e.2.1 - 1) < 1000000 ∧
      2 ^ 96 < e.1 ^ (e.2.2 / 2 + 1) := by decide
  exact all _ (limitsIn_mem h)

/-- MINLEN is the least length whose strings reach the million (00_scope.md R7). -/
theorem minLen_le {r lo hi l : Nat} (h : limitsOf r = some (lo, hi)) (hl : 1000000 ≤ r ^ l) :
    lo ≤ l := by
  obtain ⟨h2, -⟩ := limitsOf_bounds h
  obtain ⟨-, below, -⟩ := limitsOf_edges h
  have : lo - 1 < l := (Nat.pow_lt_pow_iff_right h2).mp (below.trans_le hl)
  omega

/-- Half of MAXLEN is the greatest half length that fits 96 bits (00_scope.md R7). -/
theorem le_half_maxLen {r lo hi j : Nat} (h : limitsOf r = some (lo, hi)) (hj : r ^ j ≤ 2 ^ 96) :
    j ≤ hi / 2 := by
  obtain ⟨h2, -⟩ := limitsOf_bounds h
  obtain ⟨-, -, above⟩ := limitsOf_edges h
  exact Nat.lt_succ_iff.mp ((Nat.pow_lt_pow_iff_right h2).mp (hj.trans_lt above))

/-- Settles O27: powers of a radix rise, so what each row says at its edges makes MINLEN the least
and half of MAXLEN the greatest. -/
theorem limitsTableIsExact : Obligations.LimitsTableIsExact := by
  refine ⟨fun r h2 h36 => ?_, fun r => limitsOf_none⟩
  obtain ⟨lo, hi, h⟩ := limitsOf_isSome h2 h36
  obtain ⟨-, -, -, -, -, even, fits⟩ := limitsOf_bounds h
  obtain ⟨reaches, -, -⟩ := limitsOf_edges h
  exact ⟨lo, hi, hi / 2, h, reaches, fun _ => minLen_le h, by omega, fits,
    fun _ => le_half_maxLen h⟩

end Sys2Proof.Machine
end

section
/-! PROOF. Every step of every agent keeps the invariant (10_state.md R54, 42_feistel_engine.md
R186), and reset meets it: what a running round bounds, then one lemma for each update, then the
moves of a step. -/

namespace Sys2Proof.Machine

namespace State

variable {s : State}

/-! ### What the rounds bound -/

/-- Each half has one of the two half lengths (42_feistel_engine.md R186). -/
theorem Running.half_lengths (h : s.Running) :
    (s.la = s.u ∨ s.la = s.v) ∧ (s.lb = s.u ∨ s.lb = s.v) := by
  have round : s.roundLen = s.u ∧ s.otherLen = s.v ∨ s.roundLen = s.v ∧ s.otherLen = s.u := by
    rw [roundLen_eq, otherLen_eq]
    split <;> simp
  have lens : s.la = s.roundLen ∧ s.lb = s.otherLen ∨ s.lb = s.roundLen ∧ s.la = s.otherLen :=
    h.cmd.imp h.encryptLens h.decryptLens
  omega

/-- The half lengths are at most half of the longest message (10_state.md R47). -/
theorem Running.lengths (h : s.Running) : s.u ≤ 96 ∧ s.v ≤ 96 ∧ s.la ≤ 96 ∧ s.lb ≤ 96 := by
  have hn := (lenOkFeistel_le h.len).2
  have hu := h.u
  have hv := h.v
  have hl := h.half_lengths
  omega

/-- A half fits 96 bits (10_state.md R49, 00_scope.md R9). -/
theorem Running.values (h : s.Running) : s.ha < 2 ^ 96 ∧ s.hb < 2 ^ 96 := by
  have hu := h.u
  have hv := h.v
  have hl := h.half_lengths
  exact ⟨h.ha.trans_le (radix_pow_half_le h.len (by omega)),
    h.hb.trans_le (radix_pow_half_le h.len (by omega))⟩

theorem Running.cmd_ne_zero (h : s.Running) : s.cmd ≠ 0 := by
  intro e
  have hc := h.cmd
  rw [e, decode_zero] at hc
  simp at hc

/-! ### The rounds keep running -/

/-- A passed CHECK starts the rounds, ENCRYPT at index 0 and DECRYPT at index 7
(42_feistel_engine.md R172). -/
theorem feistelReady.startRounds_running {i : BitVec 3} (hr : s.feistelReady)
    (hd : decode s.cmd = .ok .encrypt ∧ i = 0 ∨ decode s.cmd = .ok .decrypt ∧ i = 7) :
    (s.startRounds (s.digitsOf s.len.toNat) i).Running := by
  obtain ⟨-, radix, len, chars⟩ := hr
  have digits := digitsOf_lt chars
  have ha := numRev_lt fun d hd =>
    digits d (List.mem_of_mem_take (i := (s.len.toNat + 1) / 2) hd)
  have hb := numRev_lt fun d hd =>
    digits d (List.mem_of_mem_drop (i := (s.len.toNat + 1) / 2) hd)
  have hmin : min ((s.len.toNat + 1) / 2) s.len.toNat = (s.len.toNat + 1) / 2 := by
    have := (lenOkFeistel_le len).1
    omega
  rw [List.length_take, digitsOf_length, hmin] at ha
  rw [List.length_drop, digitsOf_length] at hb
  refine ⟨hd.imp And.left And.left, radix, len, rfl, rfl, fun he => ?_, fun he => ?_, ha, hb⟩
  · obtain ⟨-, rfl⟩ | ⟨h, -⟩ := hd
    · simp [roundLen_eq, otherLen_eq]
    · simp [h] at he
  · obtain ⟨h, -⟩ | ⟨-, rfl⟩ := hd
    · simp [h] at he
    · simp [roundLen_eq, otherLen_eq]

theorem Running.radix_pow_pos (h : s.Running) (k : Nat) : 0 < s.radix.toNat ^ k := by
  have := (validRadix_iff.mp h.radix).1
  exact Nat.pow_pos (by omega)

/-- The round of ENCRYPT changes the halves' places and reduces the new one by `r^m`, and the next
index has the other parity (42_feistel_engine.md R178, R180). -/
theorem Running.encryptCombine (h : s.Running) (hd : decode s.cmd = .ok .encrypt) (p : Port)
    (y : Nat) : (((s.setPort p).encryptCombine y).nextRound (s.ri + 1)).Running := by
  obtain ⟨round, other⟩ := roundLen_flip (s := s)
    (t := ((s.setPort p).encryptCombine y).nextRound (s.ri + 1)) rfl rfl (.inl rfl)
  obtain ⟨-, lb⟩ := h.encryptLens hd
  exact { h with
    encryptLens := fun _ => ⟨lb.trans round.symm, other.symm⟩
    decryptLens := fun he => by simp [hd] at he
    ha := h.hb
    hb := Nat.mod_lt _ (h.radix_pow_pos _) }

/-- The round of DECRYPT, the mirror (42_feistel_engine.md R179, R180). -/
theorem Running.decryptCombine (h : s.Running) (hd : decode s.cmd = .ok .decrypt) (p : Port)
    (y : Nat) : (((s.setPort p).decryptCombine y).nextRound (s.ri - 1)).Running := by
  obtain ⟨round, other⟩ := roundLen_flip (s := s)
    (t := ((s.setPort p).decryptCombine y).nextRound (s.ri - 1)) rfl rfl (.inr rfl)
  obtain ⟨-, la⟩ := h.decryptLens hd
  have pos : (0 : Int) < (s.roundModulus : Int) := Int.natCast_pos.mpr (h.radix_pow_pos _)
  have below := Int.emod_lt_of_pos ((s.hb : Int) - y) pos
  exact { h with
    encryptLens := fun he => by simp [hd] at he
    decryptLens := fun _ => ⟨la.trans round.symm, other.symm⟩
    ha := (Int.toNat_lt' (h.radix_pow_pos _)).mpr below
    hb := h.ha }

/-! ### The invariant, update by update -/

/-- Outside WAIT the port is EMPTY (10_state.md R54). -/
theorem Inv.port_empty (h : s.Inv) (hf : s.fsm ≠ .wait) : s.port = .empty :=
  not_not.mp fun e => hf (h.port.mpr e)

theorem Inv.setTurns (h : s.Inv) (ts : List Turn) (n : Nat) : (s.setTurns ts n).Inv :=
  { h with running := fun hf => { h.running hf with } }

theorem Inv.setHost (h : s.Inv) (p : List HostOp) (rs : List (Offset × Word)) :
    (s.setHost p rs).Inv :=
  { h with running := fun hf => { h.running hf with } }

theorem Inv.setVals (h : s.Inv) (vs : Vector Word 6) : (s.setVals vs).Inv :=
  { h with running := fun hf => { h.running hf with } }

theorem Inv.storeBytes (h : s.Inv) (base : Nat) (bs : List Byte) : (s.storeBytes base bs).Inv :=
  { h with
    running := fun hf => { h.running hf with }
    msg := Memory.wf_writeBytes bs base h.msg }

theorem Inv.setOutlen (h : s.Inv) {n : Byte} (hn : n.toNat ≤ 192) : (s.setOutlen n).Inv :=
  { h with
    running := fun hf => { h.running hf with }
    outlen := hn }

/-- Completion in the CHECK step (40_control.md R128). -/
theorem Inv.complete (h : s.Inv) (hf : s.fsm = .check) : s.complete.Inv :=
  { h with
    port := by simp [h.port_empty (by simp [hf])]
    busyFlags := by simp
    busyCommand := by simp
    running := by simp }

/-- A failing CHECK step (40_control.md R127), with one of the four codes the block raises
(60_exceptions.md R211). -/
theorem Inv.fail (h : s.Inv) (hf : s.fsm = .check) {c : ErrCode}
    (hc : c = .invalidRadix ∨ c = .invalidMessageLength ∨ c = .invalidCharacter ∨
      c = .illegalCommand) : (s.fail c).Inv :=
  { h with
    port := by simp [h.port_empty (by simp [hf])]
    busyFlags := by simp
    noError := by simp
    errorCode := by rcases hc with rfl | rfl | rfl | rfl <;> simp [ErrCode.bits]
    busyCommand := by simp
    running := by simp }

/-- A state of ISSUE that differs from a busy state in the rounds' own fields and the port. -/
theorem Inv.issue {t : State} (h : s.Inv) (hb : s.fsm ≠ .idle) (run : t.Running)
    (fsm : t.fsm = .issue) (port : t.port = .empty) (done : t.done = s.done) (err : t.err = s.err)
    (errcode : t.errcode = s.errcode) (outlen : t.outlen = s.outlen) (msg : t.msg = s.msg) :
    t.Inv where
  port := by simp [fsm, port]
  busyFlags := fun _ => by rw [done, err]; exact h.busyFlags hb
  noError := by rw [err, errcode]; exact h.noError
  errorCode := by rw [err, errcode]; exact h.errorCode
  busyCommand := fun _ => run.cmd_ne_zero
  running := fun _ => run
  lengths := run.lengths
  values := run.values
  outlen := by rw [outlen]; exact h.outlen
  msg := by rw [msg]; exact h.msg

/-- A CHECK step whose checks pass (42_feistel_engine.md R172). -/
theorem Inv.startRounds (h : s.Inv) (hr : s.feistelReady) {i : BitVec 3}
    (hd : decode s.cmd = .ok .encrypt ∧ i = 0 ∨ decode s.cmd = .ok .decrypt ∧ i = 7) :
    (s.startRounds (s.digitsOf s.len.toNat) i).Inv := by
  have hf : s.fsm = .check := hr.1
  exact h.issue (by simp [hf]) (hr.startRounds_running hd) rfl (h.port_empty (by simp [hf]))
    rfl rfl rfl rfl rfl

/-- The ISSUE step (42_feistel_engine.md R175). -/
theorem Inv.issueRound (h : s.Inv) (hf : s.fsm = .issue) (x : Nat) : (s.issueRound x).Inv :=
  { h with
    port := by simp
    busyFlags := fun _ => h.busyFlags (by simp [hf])
    busyCommand := fun _ => h.busyCommand (by simp [hf])
    running := fun _ => { h.running (.inl hf) with } }

/-- The commit stands where the next round would: it reads nothing of the round index
(42_feistel_engine.md R181). -/
theorem Inv.commit {next : BitVec 3} (h : (s.nextRound next).Inv) : s.commit.Inv :=
  { h with
    port := by simpa using h.port
    busyFlags := by simp
    busyCommand := by simp
    running := by simp
    msg := Memory.wf_writeBytes _ _ (Memory.wf_writeBytes _ _ h.msg) }

theorem Inv.advance {next : BitVec 3} (h : (s.nextRound next).Inv) (last : BitVec 3) :
    (s.advance last next).Inv := by
  unfold State.advance
  split
  · exact h.commit
  · exact h

theorem Inv.encryptRound (h : s.Inv) (hf : s.fsm = .wait) (hd : decode s.cmd = .ok .encrypt)
    (z : Block) : (s.encryptRound z).Inv :=
  Inv.advance (h.issue (by simp [hf]) ((h.running (.inr hf)).encryptCombine hd .empty _)
    rfl rfl rfl rfl rfl rfl rfl) 7

theorem Inv.decryptRound (h : s.Inv) (hf : s.fsm = .wait) (hd : decode s.cmd = .ok .decrypt)
    (z : Block) : (s.decryptRound z).Inv :=
  Inv.advance (h.issue (by simp [hf]) ((h.running (.inr hf)).decryptCombine hd .empty _)
    rfl rfl rfl rfl rfl rfl rfl) 0

/-- Acceptance in IDLE (40_control.md R121). -/
theorem Inv.accept (h : s.Inv) (hf : s.fsm = .idle) {w : Word} (hw : w ≠ 0) : (s.accept w).Inv :=
  { h with
    port := by simp [h.port_empty (by simp [hf])]
    busyFlags := by simp
    noError := by simp
    errorCode := by simp
    busyCommand := by simpa using hw
    running := by simp }

/-- A write to STATUS clears ERR and ERRCODE together (10_state.md R33, R54). -/
theorem Inv.clearStatus (h : s.Inv) (w : Word) : (s.clearStatus w).Inv :=
  { h with
    busyFlags := fun hf => by simp [h.busyFlags hf]
    noError := by
      cases hw : w.getLsbD 2
      · simpa [-BitVec.getLsbD_eq_getElem, hw] using h.noError
      · simp [-BitVec.getLsbD_eq_getElem, hw]
    errorCode := by
      cases hw : w.getLsbD 2
      · simpa [-BitVec.getLsbD_eq_getElem, hw] using h.errorCode
      · simp [-BitVec.getLsbD_eq_getElem, hw]
    running := fun hf => { h.running hf with } }

/-- An answer at the port leaves it not EMPTY (42_feistel_engine.md R176). -/
theorem Inv.respond (h : s.Inv) {x : Block} (hp : s.port = .req x) (z : Block) :
    (s.setPort (.rsp z)).Inv :=
  { h with
    port := by simp [h.port, hp]
    running := fun hf => { h.running hf with } }

theorem reset_inv : State.reset.Inv where
  port := by simp [State.reset]
  busyFlags := nofun
  noError := fun _ => rfl
  errorCode := nofun
  busyCommand := nofun
  running := nofun
  lengths := by decide
  values := by decide
  outlen := by decide
  msg := Memory.wf_reset

theorem resetBlock_inv (s : State) : s.resetBlock.Inv :=
  { reset_inv with running := nofun }

end State

/-! ### The invariant, move by move -/

variable {s t : State}

/-- Every move of the engine keeps the invariant. -/
theorem EngineMove.inv (m : EngineMove s t) (h : s.Inv) : t.Inv := by
  cases m with
  | stay => exact h
  | fails c hf hc => exact h.fail hf hc
  | startEncrypt hr hd => exact h.startRounds hr (.inl ⟨hd, rfl⟩)
  | startDecrypt hr hd => exact h.startRounds hr (.inr ⟨hd, rfl⟩)
  | str2int hf => exact (h.setVals _).complete hf
  | int2str out hf hd hr hp ho =>
    have fits : out.length ≤ 192 := ho ▸ State.int2str_length_le hr hp
    have outlen : (BitVec.ofNat 8 out.length).toNat ≤ 192 := by
      rw [BitVec.toNat_ofNat]
      omega
    exact ((h.storeBytes 0 out).setOutlen outlen).complete hf
  | issueEncrypt hf => exact h.issueRound hf _
  | issueDecrypt hf => exact h.issueRound hf _
  | roundEncrypt z hf hp hd => exact h.encryptRound hf hd z
  | roundDecrypt z hf hp hd => exact h.decryptRound hf hd z

/-- Every host write keeps the invariant: the operands of a running command cannot change, as a
busy block drops the write (40_control.md R131). -/
theorem WriteMove.inv (m : WriteMove s t) (h : s.Inv) : t.Inv := by
  cases m with
  | ignored => exact h
  | accepted w hf hw => exact h.accept hf hw
  | status w => exact h.clearStatus w
  | radix v hf => exact { h with running := fun e => by simp [hf] at e }
  | len v hf => exact { h with running := fun e => by simp [hf] at e }
  | val vs => exact h.setVals vs
  | msg w v => exact h.storeBytes _ _
  | _ => exact { h with running := fun hf => { h.running hf with } }

/-- A BC turn keeps the invariant. -/
theorem bcTurn_inv (h : s.Inv) : (bcTurn s).Inv := by
  obtain ⟨x, hp, e⟩ | ⟨-, e⟩ := bcTurn_cases s
  · rw [e]; exact h.respond hp _
  · rwa [e]

/-- Settles O11: in IDLE nothing runs, and every bounded value is 0. -/
theorem resetStateMeetsTheInvariant : Obligations.ResetStateMeetsTheInvariant := State.reset_inv

/-- Settles O12: a step is a move of one agent on the state less the turn, and each keeps the
invariant. -/
theorem everyStepKeepsTheInvariant : Obligations.EveryStepKeepsTheInvariant := by
  intro s t h hstep
  obtain ⟨ts, n, ⟨-, engine⟩ | ⟨-, rfl⟩ | ⟨-, rfl⟩ | ⟨-, rfl | ⟨-, p, rs, -, -, write⟩⟩⟩ :=
    step_inv hstep
  · exact engine.inv (h.setTurns ts n)
  · exact bcTurn_inv (h.setTurns ts n)
  · exact State.resetBlock_inv _
  · exact h.setTurns ts n
  · exact write.inv ((h.setTurns ts n).setHost p rs)

end Sys2Proof.Machine
end

section
/-! PROOF. The host window register by register (10_state.md R31 to R44): what a read of each
returns, STATUS and LIMITS, what an idle write leaves alone, and the window right after reset. -/

namespace Sys2Proof.Machine

/-! ### Reads -/

/-- A field of a word as a number. -/
theorem toNat_extractLsb'_eq_div {n : Nat} (x : BitVec n) (k m : Nat) :
    (x.extractLsb' k m).toNat = x.toNat / 2 ^ k % 2 ^ m := by
  rw [BitVec.extractLsb'_toNat, Nat.shiftRight_eq_div_pow]

/-- The register MSG`w` as a number: its bytes little-endian (20_memory.md R74). -/
theorem State.msgWord_toNat (s : State) (w : Nat) : (s.msgWord w).toNat =
    (s.msgByte (4 * w)).toNat + 256 * ((s.msgByte (4 * w + 1)).toNat +
      256 * ((s.msgByte (4 * w + 2)).toNat + 256 * (s.msgByte (4 * w + 3)).toNat)) := by
  simp only [State.msgWord, toNat_append_add]
  omega

/-- Byte lane `b` of the register MSG`w` is one byte of MSG (20_memory.md R74). -/
theorem State.lane_msgWord (s : State) (w : Nat) (b : Fin 4) :
    lane (s.msgWord w) b = s.msgByte (4 * w + b) := by
  have h0 := (s.msgByte (4 * w)).isLt
  have h1 := (s.msgByte (4 * w + 1)).isLt
  have h2 := (s.msgByte (4 * w + 2)).isLt
  have h3 := (s.msgByte (4 * w + 3)).isLt
  apply BitVec.eq_of_toNat_eq
  rw [lane, toNat_extractLsb'_eq_div, s.msgWord_toNat]
  fin_cases b <;> simp <;> omega

/-- A reserved offset reads 0 (10_state.md R44). -/
theorem State.memRead_reserved (s : State) {off : Offset}
    (h : (0x028 ≤ off.toNat ∧ off.toNat < 0x040) ∨ (0x058 ≤ off.toNat ∧ off.toNat < 0x100) ∨
      0x1C0 ≤ off.toNat) : s.memRead off = 0 := by
  rw [State.memRead, regAt_reserved h]

/-- Settles O17: each offset is that of one register, and what it reads is stored. -/
theorem registerMapReads : Obligations.RegisterMapReads := by
  intro s
  refine ⟨rfl, ?_, rfl, rfl, rfl, rfl, rfl, ?_, fun j => s.memRead_offset (.val j),
    fun w b => ?_, fun off => s.memRead_reserved⟩
  · have : s.memRead 0x008 = BitVec.setWidth 32 (BitVec.ofBool s.irqen) := rfl
    rw [this]
    cases s.irqen <;> rfl
  · have : s.memRead 0x024 = s.outlen.setWidth 32 := rfl
    rw [this, BitVec.toNat_setWidth]
    omega
  · have : s.memRead (BitVec.ofNat 9 (0x100 + 4 * w.val)) = s.msgWord w :=
      s.memRead_offset (.msg w)
    rw [this]
    exact s.lane_msgWord w b

/-! ### STATUS -/

theorem State.memRead_status (s : State) : s.memRead 0x004 = s.statusWord := rfl

/-- The fields of STATUS above its one-bit fields, the reserved ones 0 (10_state.md R33). -/
theorem State.statusWord_fields (s : State) :
    s.statusWord.extractLsb' 6 2 = 0 ∧ s.statusWord.extractLsb' 8 4 = s.errcode ∧
    s.statusWord.extractLsb' 12 4 = 0 ∧ s.statusWord.extractLsb' 16 3 = s.ri ∧
    s.statusWord.extractLsb' 19 13 = 0 := by
  have zero : ∀ n, (0 : BitVec n).toNat = 0 := fun _ => rfl
  have busy := s.busy.toNat_lt
  have done := s.done.toNat_lt
  have err := s.err.toNat_lt
  have wbusy := s.wbusy.toNat_lt
  have cmdovr := s.cmdovr.toNat_lt
  have bcwait := s.bcwait.toNat_lt
  have errcode := s.errcode.isLt
  have ri := s.ri.isLt
  refine ⟨?_, ?_, ?_, ?_, ?_⟩
  all_goals
    simp only [BitVec.toNat_eq, toNat_extractLsb'_eq_div, s.statusWord_toNat, zero]
    omega

/-- A write of 1 to a bit clears its flag (10_state.md R33). -/
theorem and_not_eq_ite (flag bit : Bool) : (flag && !bit) = if bit then false else flag := by
  cases bit <;> simp

/-- A write of `w` to STATUS clears exactly the flags whose bits of `w` are 1, ERRCODE with ERR
(10_state.md R33). -/
theorem State.clearStatus_eq_ite (s : State) (w : Word) : s.clearStatus w = { s with
    done := if w.getLsbD 1 then false else s.done
    err := if w.getLsbD 2 then false else s.err
    errcode := if w.getLsbD 2 then 0 else s.errcode
    wbusy := if w.getLsbD 3 then false else s.wbusy
    cmdovr := if w.getLsbD 4 then false else s.cmdovr } := by
  simp only [State.clearStatus, and_not_eq_ite]

/-- Settles O18: STATUS is read field by field, and a write clears the flags whose bits are 1. -/
theorem statusReadAndWrite : Obligations.StatusReadAndWrite := by
  intro s w
  obtain ⟨busy, done, err, wbusy, cmdovr, bcwait⟩ := s.statusWord_bits
  obtain ⟨pad6, errcode, pad12, ri, pad19⟩ := s.statusWord_fields
  rw [State.memRead_status]
  refine ⟨?_, done, err, wbusy, cmdovr, ?_, pad6, errcode, pad12, ri, pad19, ?_⟩
  · rw [busy, State.busy, decide_eq_true_iff]
  · rw [bcwait, State.bcwait, decide_eq_true_iff]
  · exact congrArg _ (s.clearStatus_eq_ite w)

/-! ### LIMITS -/

/-- Settles O19: the table has a row exactly for the radices 2 to 36, and its bounds fit a byte. -/
theorem limitsRegister : Obligations.LimitsRegister := by
  refine ⟨fun s v => ⟨fun h2 h36 => ?_, fun h => ?_, rfl⟩, rfl⟩
  · obtain ⟨lo, hi, h⟩ := limitsOf_isSome h2 h36
    obtain ⟨-, -, -, hlo, hhi, -, -⟩ := limitsOf_bounds h
    refine ⟨lo, hi, h, by omega, by omega, ?_⟩
    have : s.memRead 0x020 = BitVec.ofNat 32 ((hi <<< 8) ||| lo) := by
      change s.limitsWord = _
      rw [State.limitsWord, h]
    rw [this, ← Nat.shiftLeft_add_eq_or_of_lt (by omega : lo < 2 ^ 8), BitVec.toNat_ofNat]
    omega
  · change s.limitsWord = 0
    rw [State.limitsWord, limitsOf_none h]

/-! ### Writes to busy-drop registers while idle -/

/-- What an idle write of `v` to a register stores; only the busy-drop registers store
(40_control.md R131). -/
def State.storeReg (s : State) (v : Word) : Reg → State
  | .radix => s.setRadix v
  | .len => s.setLen v
  | .padlen => s.setPadlen v
  | .tl => s.setTl v
  | .tr => s.setTr v
  | .val j => s.setVals (s.vals.set j v)
  | .msg w => s.storeMsgWord w.val v
  | .cmd => s
  | .status => s
  | .irqen => s
  | .limits => s
  | .outlen => s

theorem State.writeReg_idle {s : State} {q : Reg} (v : Word) (hq : q.isBusyDrop = true)
    (hf : s.fsm = .idle) : s.writeReg v q = .next (s.storeReg v q) := by
  cases q
  case cmd | status | irqen | limits | outlen => cases hq
  all_goals exact congrArg _ (State.busyDrop_idle _ hf)

/-- A stored operand is all that its register's store changes in what the other registers read. -/
theorem State.readReg_storeReg_other (s : State) {q p : Reg} (v : Word) (hpq : p ≠ q)
    (hl : p ≠ .limits) : (s.storeReg v q).readReg p = s.readReg p := by
  cases q with
  | radix => cases p with
    | radix => exact absurd rfl hpq
    | limits => exact absurd rfl hl
    | _ => rfl
  | len => cases p with
    | len => exact absurd rfl hpq
    | _ => rfl
  | padlen => cases p with
    | padlen => exact absurd rfl hpq
    | _ => rfl
  | tl => cases p with
    | tl => exact absurd rfl hpq
    | _ => rfl
  | tr => cases p with
    | tr => exact absurd rfl hpq
    | _ => rfl
  | val j => cases p with
    | val i =>
      have : j.val ≠ i.val := fun e => hpq (congrArg Reg.val (Fin.ext e.symm))
      exact Vector.getElem_set_ne j.isLt i.isLt this
    | _ => rfl
  | msg w => cases p with
    | msg i =>
      have : i.val ≠ w.val := fun e => hpq (congrArg Reg.msg (Fin.ext e))
      exact (s.msgWord_storeMsgWord w i v w.isLt).trans (if_neg this)
    | _ => rfl
  | _ => rfl

/-- A stored operand is no part of the engine or the port. -/
theorem State.storeReg_engine (s : State) (v : Word) (q : Reg) :
    let t := s.storeReg v q
    t.fsm = s.fsm ∧ t.cmd = s.cmd ∧ t.u = s.u ∧ t.v = s.v ∧ t.ri = s.ri ∧ t.ha = s.ha ∧
      t.hb = s.hb ∧ t.la = s.la ∧ t.lb = s.lb ∧ t.port = s.port := by
  cases q <;> exact ⟨rfl, rfl, rfl, rfl, rfl, rfl, rfl, rfl, rfl, rfl⟩

/-- Settles O21: the write stores its operand, which no other register reads. -/
theorem idleWriteLeavesOtherRegisters : Obligations.IdleWriteLeavesOtherRegisters := by
  intro s q p v hq hf hpq hl
  obtain ⟨fsm, engine⟩ := s.storeReg_engine v q
  refine ⟨s.storeReg v q, ?_, ?_, fsm.trans hf, engine⟩
  · rw [State.memWrite_offset, State.writeReg_idle v hq hf]
  · rw [State.memRead_offset, State.memRead_offset, State.readReg_storeReg_other s v hpq hl]

/-! ### Right after reset -/

/-- Every register but MSG reads 0 right after reset (10_state.md R31). -/
theorem readReg_reset {q : Reg} (h : ∀ w, q ≠ .msg w) : State.reset.readReg q = 0 := by
  cases q with
  | msg w => exact absurd rfl (h w)
  | val j => fin_cases j <;> rfl
  | _ => rfl

/-- Settles O10: in IDLE with the port EMPTY no agent of the block has anything to do. -/
theorem resetStateIsIdleAndZero : Obligations.ResetStateIsIdleAndZero :=
  ⟨fun q h => (State.memRead_offset _ q).trans (readReg_reset h), rfl, rfl, rfl, rfl, rfl⟩

end Sys2Proof.Machine
end

section
/-! PROOF. A host that makes only legal accesses (20_memory.md R71, R72): its turns answer, and no
turn of any agent adds to its program. -/

namespace Sys2Proof.Machine

variable {s t : State}

/-! ### The host's program -/

@[simp] theorem State.advance_program (s : State) (last next : BitVec 3) :
    (s.advance last next).program = s.program := by
  unfold State.advance
  split
  · exact s.commit_program
  · exact s.nextRound_program next

/-- No move of the engine touches the host's program. -/
theorem EngineMove.program (m : EngineMove s t) : t.program = s.program := by
  cases m with
  | roundEncrypt z => simp [State.encryptRound]
  | roundDecrypt z => simp [State.decryptRound]
  | _ => rfl

/-- What a host write does to the block leaves the program alone; its entry is taken off before. -/
theorem WriteMove.program (m : WriteMove s t) : t.program = s.program := by
  cases m <;> rfl

@[simp] theorem bcTurn_program (s : State) : (bcTurn s).program = s.program := by
  obtain ⟨x, -, h⟩ | ⟨-, h⟩ := bcTurn_cases s <;> simp [h]

/-- A step leaves the host's program as it is, or takes its first entry off. -/
theorem step_program_suffix (h : step s = .next t) : t.program <:+ s.program := by
  obtain ⟨ts, n, ⟨-, engine⟩ | ⟨-, rfl⟩ | ⟨-, rfl⟩ | ⟨-, rfl | ⟨op, p, rs, hp, -, write⟩⟩⟩ :=
    step_inv h
  · rw [engine.program]; exact List.suffix_rfl
  · rw [bcTurn_program]; exact List.suffix_rfl
  · exact List.suffix_rfl
  · exact List.suffix_rfl
  · have taken : t.program = p := write.program
    rw [taken, hp]
    exact List.suffix_cons op p

/-! ### Legal programs -/

/-- What is left of a legal program is legal. -/
theorem State.hostLegal_of_suffix (h : s.hostLegal = true) (hp : t.program <:+ s.program) :
    t.hostLegal = true :=
  List.all_eq_true.mpr fun op mem => List.all_eq_true.mp h op (hp.mem mem)

/-- A host turn answers a next state when the first entry is legal: only an illegal access faults
(20_memory.md R72). -/
theorem hostTurn_answers (h : s.hostLegal = true) : ∃ t, hostTurn s = .next t := by
  obtain stay | ⟨op, p, hp, illegal, -⟩ | ⟨-, -, -, t, -, -, -, done⟩ := hostTurn_cases s
  · exact ⟨s, stay⟩
  · have legal : op.legal = true := List.all_eq_true.mp h op (by simp [hp])
    rw [legal] at illegal
    cases illegal
  · exact ⟨t, done⟩

/-- Every step of a machine with a legal host answers: the other agents always do. -/
theorem step_answers (h : s.hostLegal = true) : ∃ t, step s = .next t := by
  obtain ⟨turn, s0, hstep, -, ts, n, rfl⟩ := step_cases s
  rw [hstep]
  cases turn with
  | host => exact hostTurn_answers (s := s.setTurns ts n) h
  | engine =>
    obtain ⟨t, answer, -⟩ := engineTurn_move (s.setTurns ts n)
    exact ⟨t, answer⟩
  | bc => exact ⟨_, rfl⟩
  | reset => exact ⟨_, rfl⟩

/-- Settles O15: a legal host's turns answer, and its program only loses entries. -/
theorem legalHostNeverFaults : Obligations.LegalHostNeverFaults := by
  intro s h
  obtain ⟨t, answer⟩ := step_answers h
  exact ⟨t, answer, State.hostLegal_of_suffix h (step_program_suffix answer)⟩

end Sys2Proof.Machine
end

section
/-! PROOF. No partial result is seen while the block is busy (20_memory.md R82, 10_state.md R54):
the moves that change an operand or a result start or end in IDLE. -/

namespace Sys2Proof.Machine

variable {s t : State}

/-- The operands and the results: MSG with its draw, VAL, OUTLEN, RADIX, LEN, PADLEN, TL, TR
(10_state.md R35 to R43). -/
def State.operands (s : State) :
    Memory × Nat × Vector Word 6 × Byte × Word × Word × Word × Word × Word :=
  (s.msg, s.draws, s.vals, s.outlen, s.radix, s.len, s.padlen, s.tl, s.tr)

theorem State.operands_eq_iff : t.operands = s.operands ↔
    t.msg = s.msg ∧ t.draws = s.draws ∧ t.vals = s.vals ∧ t.outlen = s.outlen ∧
    t.radix = s.radix ∧ t.len = s.len ∧ t.padlen = s.padlen ∧ t.tl = s.tl ∧ t.tr = s.tr := by
  simp only [State.operands, Prod.mk.injEq]

/-- An advance that does not commit goes on to the next round and stores nothing
(42_feistel_engine.md R180). -/
theorem State.advance_operands {last next : BitVec 3} (h : (s.advance last next).fsm ≠ .idle) :
    (s.advance last next).operands = s.operands := by
  by_cases done : s.ri = last
  · rw [State.advance, if_pos done] at h
    exact absurd s.commit_fsm h
  · rw [State.advance, if_neg done]
    rfl

/-- A move of the engine that stores a result completes the command in the same turn
(40_control.md R128). -/
theorem EngineMove.operands (m : EngineMove s t) (busy : t.fsm ≠ .idle) :
    t.operands = s.operands := by
  cases m with
  | str2int => exact absurd rfl busy
  | int2str => exact absurd rfl busy
  | roundEncrypt z => exact State.advance_operands busy
  | roundDecrypt z => exact State.advance_operands busy
  | _ => rfl

/-- A busy block drops the host's writes to its operands (40_control.md R131). -/
theorem WriteMove.operands (m : WriteMove s t) (busy : s.fsm ≠ .idle) :
    t.operands = s.operands := by
  cases m with
  | radix | len | padlen | tl | tr | val | msg => exact absurd ‹s.fsm = .idle› busy
  | _ => rfl

theorem bcTurn_operands (s : State) : (bcTurn s).operands = s.operands := by
  obtain ⟨x, -, h⟩ | ⟨-, h⟩ := bcTurn_cases s <;> rw [h]
  rfl

/-- Settles O51: the engine stores results only as it comes to IDLE, the host operands only in
IDLE, and the reset input leads to IDLE. -/
theorem noPartialResultWhileBusy : Obligations.NoPartialResultWhileBusy := by
  intro s t hstep before after
  rw [← State.operands_eq_iff]
  obtain ⟨ts, n, ⟨-, engine⟩ | ⟨-, rfl⟩ | ⟨-, rfl⟩ | ⟨-, rfl | ⟨-, p, rs, -, -, write⟩⟩⟩ :=
    step_inv hstep
  · exact engine.operands after
  · exact bcTurn_operands _
  · exact absurd rfl after
  · rfl
  · exact write.operands before

end Sys2Proof.Machine
end

section
/-! PROOF. One bus access of the host (20_memory.md R71, R72): an illegal one is a bus error, a
read records the value of its register. -/

namespace Sys2Proof.Machine

variable {s : State} {ts : List Turn} {p : List HostOp} {off : Offset} {size : Nat}

/-- Any other access than a 32-bit one at a multiple of 4 is illegal (20_memory.md R72). -/
theorem not_legalAccess_iff : ¬legalAccess off size = true ↔ size ≠ 4 ∨ off.toNat % 4 ≠ 0 := by
  rw [legalAccess, Bool.and_eq_true, decide_eq_true_iff, decide_eq_true_iff, not_and_or, or_comm]

/-- A step on a host turn is the host's turn on the state less that turn. -/
theorem step_host (h : s.turns = .host :: ts) : step s = hostTurn (s.setTurns ts s.ticks) :=
  step_of_turns h

/-- The host's turn at a write (20_memory.md R71, R72). -/
theorem hostTurn_write {v : Word} (hp : s.program = .write off size v :: p) :
    hostTurn s = if legalAccess off size then (s.setHost p s.reads).memWrite off v
      else .fault (.hostBusError off) := by
  rw [hostTurn, hp]

/-- The host's turn at a read (20_memory.md R71, R72). -/
theorem hostTurn_read (hp : s.program = .read off size :: p) :
    hostTurn s = if legalAccess off size then
        .next (s.setHost p (s.reads ++ [(off, s.memRead off)]))
      else .fault (.hostBusError off) := by
  rw [hostTurn, hp]

/-- The host's turn at a poll loop: one read of 4 bytes, and the loop ends on a match
(30_encoding.md R106). -/
theorem hostTurn_poll {mask v : Word} (hp : s.program = .poll off mask v :: p) :
    hostTurn s = if legalAccess off 4 then
        if s.memRead off &&& mask = v then .next (s.setHost p s.reads) else .next s
      else .fault (.hostBusError off) := by
  rw [hostTurn, hp]

/-- Settles O13: the host's turn looks at the access first. -/
theorem otherAccessesAreBusErrors : Obligations.OtherAccessesAreBusErrors := by
  intro s ts p off size v mask hturn
  rw [step_host hturn]
  refine ⟨fun h => ⟨fun hp => ?write, fun hp => ?read⟩, fun h hp => ?poll⟩
  case write =>
    exact (hostTurn_write (s := s.setTurns ts s.ticks) hp).trans (if_neg (not_legalAccess_iff.mpr h))
  case read =>
    exact (hostTurn_read (s := s.setTurns ts s.ticks) hp).trans (if_neg (not_legalAccess_iff.mpr h))
  case poll =>
    exact (hostTurn_poll (s := s.setTurns ts s.ticks) hp).trans
      (if_neg (not_legalAccess_iff.mpr (.inr h)))

/-- Settles O16: the access is legal, and a read only adds to the list of values read. -/
theorem readHasNoSideEffect : Obligations.ReadHasNoSideEffect := by
  intro s ts p off hturn hp aligned
  have legal : legalAccess off 4 = true := by simp [legalAccess, aligned]
  rw [step_host hturn]
  exact (hostTurn_read (s := s.setTurns ts s.ticks) hp).trans (if_pos legal)

end Sys2Proof.Machine
end

section
/-! PROOF. The decoder against the opcode assignment (30_encoding.md R101 to R103): it is total, and
the five words below 5 are the legal ones. -/

namespace Sys2Proof.Machine

/-- Decoding is total (30_encoding.md R103). -/
theorem decode_total (w : Word) : (∃ i, decode w = .ok i) ∨ decode w = .error (.illegal w) := by
  cases h : decode w with
  | ok i => exact .inl ⟨i, rfl⟩
  | error e =>
    unfold decode at h
    repeat' split at h
    all_goals cases h
    exact .inr rfl

/-- The legal words are the numbers 0 to 4 (30_encoding.md R102). -/
theorem decode_isOk_iff {w : Word} : (∃ i, decode w = .ok i) ↔ w.toNat < 5 := by
  constructor
  · rintro ⟨i, h⟩
    rw [decode_eq_ok.mp h]
    cases i <;> decide
  · intro h
    have legal : ∀ n : Fin 5, ∃ i, BitVec.ofNat 32 n = encode i := by
      intro n
      fin_cases n
      exacts [⟨.nop, rfl⟩, ⟨.encrypt, rfl⟩, ⟨.decrypt, rfl⟩, ⟨.str2int, rfl⟩, ⟨.int2str, rfl⟩]
    obtain ⟨i, hi⟩ := legal ⟨w.toNat, h⟩
    exact ⟨i, decode_eq_ok.mpr (by rw [← hi, BitVec.ofNat_toNat, BitVec.setWidth_eq])⟩

/-- The ILLEGAL words are the numbers from 5 on (30_encoding.md R103). -/
theorem decode_illegal_iff {w : Word} : decode w = .error (.illegal w) ↔ 5 ≤ w.toNat := by
  rw [← not_lt, ← decode_isOk_iff]
  constructor
  · rintro h ⟨i, ok⟩
    rw [ok] at h
    cases h
  · exact (decode_total w).resolve_left

/-- A word is at least 5 exactly when OP is, or some bit of RSVD is set (30_encoding.md R101). -/
theorem five_le_iff_fields {w : Word} :
    5 ≤ w.toNat ↔ 5 ≤ (w.extractLsb' 0 4).toNat ∨ w.extractLsb' 4 28 ≠ 0 := by
  have rsvd : w.extractLsb' 4 28 = 0 ↔ w.toNat / 2 ^ 4 % 2 ^ 28 = 0 := by
    rw [BitVec.toNat_eq, toNat_extractLsb'_eq_div]
    rfl
  have lt := w.isLt
  rw [ne_eq, rsvd, toNat_extractLsb'_eq_div]
  omega

/-- The table's numbering of a word is the word (30_encoding.md R100). -/
theorem decodeTableWord_toNat (w : Word) : decodeTableWord 32 w.toNat = (decode w).toOption := by
  rw [decodeTableWord, if_pos le_rfl, Nat.mod_eq_of_lt w.isLt, BitVec.ofNat_toNat,
    BitVec.setWidth_eq]
  cases decode w <;> rfl

/-- Settles O3: the legal words are those below 5, which the two fields say too. -/
theorem exactlyFiveWordsAreLegal : Obligations.ExactlyFiveWordsAreLegal := fun w =>
  ⟨decode_eq_ok, decode_eq_ok, decode_eq_ok, decode_eq_ok, decode_eq_ok,
    decode_illegal_iff.trans five_le_iff_fields, decode_total w⟩

/-- Settles O1: the legal words are the encoded commands, the others are at least 5. -/
theorem opcodeAssignmentDecodes : Obligations.OpcodeAssignmentDecodes :=
  ⟨decode_eq_ok.mpr rfl, decode_eq_ok.mpr rfl, decode_eq_ok.mpr rfl, decode_eq_ok.mpr rfl,
    decode_eq_ok.mpr rfl, decode_illegal_iff.mpr (by decide), decode_illegal_iff.mpr (by decide),
    decode_illegal_iff.mpr (by decide), decode_illegal_iff.mpr (by decide)⟩

/-- Settles O2: the encoded word decodes back, and the table numbers it as itself. -/
theorem decodeOfEncodeIsTheCommand : Obligations.DecodeOfEncodeIsTheCommand := by
  intro i _
  have back : decode (encode i) = .ok i := decode_eq_ok.mpr rfl
  exact ⟨back, by rw [decodeTableWord_toNat, back]; rfl⟩

end Sys2Proof.Machine
end

section
/-! PROOF. What the meanings of the commands leave unchanged (30_encoding.md R105): the moves of a
codec command and of ENCRYPT and DECRYPT in every engine state, whatever word is in `eng.cmd`, and
the frame of each. -/

namespace Sys2Proof.Machine

variable {s t : State} {i : Instr}

/-! ### What every command leaves alone -/

/-- The part of the state no command touches: the operand registers but MSG and VAL, the flags of
the host's side, the accepted word, and what stands outside the block. -/
def State.bystanders (s : State) : (Word × Word × Word × Word × Word × Bool × Bool × Bool × Word) ×
    (Nat × List HostOp × List (Offset × Word) × List (Block × Block) × List Turn × Nat) :=
  ((s.radix, s.len, s.padlen, s.tl, s.tr, s.irqen, s.wbusy, s.cmdovr, s.cmd),
    (s.draws, s.program, s.reads, s.bcTable, s.turns, s.ticks))

theorem State.bystanders_eq_iff : t.bystanders = s.bystanders ↔
    (t.radix = s.radix ∧ t.len = s.len ∧ t.padlen = s.padlen ∧ t.tl = s.tl ∧ t.tr = s.tr ∧
      t.irqen = s.irqen ∧ t.wbusy = s.wbusy ∧ t.cmdovr = s.cmdovr ∧ t.cmd = s.cmd) ∧
    (t.draws = s.draws ∧ t.program = s.program ∧ t.reads = s.reads ∧ t.bcTable = s.bcTable ∧
      t.turns = s.turns ∧ t.ticks = s.ticks) := by
  simp only [State.bystanders, Prod.mk.injEq]

/-- The errors that a failing check of an operand reports (40_control.md R123). -/
def ErrCode.ofOperand (c : ErrCode) : Prop :=
  c = .invalidRadix ∨ c = .invalidMessageLength ∨ c = .invalidCharacter

/-- The numbers of those errors (60_exceptions.md R211). -/
theorem ErrCode.ofOperand.bits {c : ErrCode} (h : c.ofOperand) :
    c.bits = 2 ∨ c.bits = 4 ∨ c.bits = 6 := by
  rcases h with rfl | rfl | rfl
  exacts [.inl rfl, .inr (.inl rfl), .inr (.inr rfl)]

/-! ### The moves of a codec command -/

/-- What a codec command can do (41_radix_codec.md R148, R149). -/
inductive CodecMove (s : State) : Instr → State → Prop where
  | stay {i : Instr} (hf : s.fsm ≠ .check) : CodecMove s i s
  | fails {i : Instr} (c : ErrCode) (hf : s.fsm = .check) (hc : c.ofOperand) :
      CodecMove s i (s.fail c)
  | str2int (n : Nat) (hf : s.fsm = .check) :
      CodecMove s .str2int (s.setVals (wordsOf n)).complete
  | int2str (out : List Byte) (hf : s.fsm = .check)
      (ho : out = intToPaddedReversed s.valInt s.radix.toNat s.padlen.toNat) :
      CodecMove s .int2str ((s.storeBytes 0 out).setOutlen (BitVec.ofNat 8 out.length)).complete

theorem State.str2int_move (hf : s.fsm = .check) : CodecMove s .str2int s.str2int := by
  unfold State.str2int
  cases h : s.checkStr2int with
  | error c =>
    refine .fails c hf ?_
    rcases State.checkStr2int_error.mp h with ⟨-, hc⟩ | ⟨-, -, hc⟩ | ⟨-, -, -, hc⟩
    exacts [.inl hc, .inr (.inl hc), .inr (.inr hc)]
  | ok n => exact .str2int n hf

theorem State.int2str_move (hf : s.fsm = .check) : CodecMove s .int2str s.int2str := by
  unfold State.int2str
  cases h : s.checkInt2str with
  | error c =>
    refine .fails c hf ?_
    rcases State.checkInt2str_error.mp h with ⟨-, hc⟩ | ⟨-, -, hc⟩
    exacts [.inl hc, .inr (.inl hc)]
  | ok out =>
    obtain ⟨-, -, ho⟩ := State.checkInt2str_ok.mp h
    exact .int2str out hf ho

/-- Every answer of a codec command is one of its moves, whatever word is in `eng.cmd`. -/
theorem exec_codecMove (hi : i = .str2int ∨ i = .int2str) (h : exec i s = .next t) :
    CodecMove s i t := by
  rcases hi with rfl | rfl
  all_goals
    simp only [exec, execStr2int, execInt2str] at h
    cases hf : s.fsm <;> rw [hf] at h <;> cases h
  case inl.check => exact s.str2int_move hf
  case inr.check => exact s.int2str_move hf
  all_goals exact .stay (by simp [hf])

/-! ### The frame of a codec command -/

/-- The round state and the port, which only ENCRYPT and DECRYPT touch (10_state.md R47 to R50). -/
def State.roundState (s : State) : Nat × Nat × BitVec 3 × Nat × Nat × Nat × Nat × Port :=
  (s.u, s.v, s.ri, s.ha, s.hb, s.la, s.lb, s.port)

theorem State.roundState_eq_iff : t.roundState = s.roundState ↔
    t.u = s.u ∧ t.v = s.v ∧ t.ri = s.ri ∧ t.ha = s.ha ∧ t.hb = s.hb ∧ t.la = s.la ∧
      t.lb = s.lb ∧ t.port = s.port := by
  simp only [State.roundState, Prod.mk.injEq]

theorem CodecMove.bystanders (m : CodecMove s i t) : t.bystanders = s.bystanders := by
  cases m <;> rfl

theorem CodecMove.roundState (m : CodecMove s i t) : t.roundState = s.roundState := by
  cases m <;> rfl

theorem CodecMove.eq_of_not_check (m : CodecMove s i t) (hf : s.fsm ≠ .check) : t = s := by
  cases m with
  | stay => rfl
  | fails | str2int | int2str => exact absurd ‹_› hf

theorem CodecMove.error (m : CodecMove s i t) : t.err = s.err ∧ t.errcode = s.errcode ∨
    t.err = true ∧ (t.errcode = 2 ∨ t.errcode = 4 ∨ t.errcode = 6) := by
  cases m with
  | fails c hf hc => exact .inr ⟨rfl, hc.bits⟩
  | stay | str2int | int2str => exact .inl ⟨rfl, rfl⟩

/-- STR2INT reads MSG and writes VAL only. -/
theorem CodecMove.str2int_frame (m : CodecMove s .str2int t) :
    t.outlen = s.outlen ∧ ∀ k, t.msgByte k = s.msgByte k := by
  cases m <;> exact ⟨rfl, fun _ => rfl⟩

/-- INT2STR writes its output from MSG[0] on and no byte more. -/
theorem CodecMove.int2str_frame (m : CodecMove s .int2str t) : t.vals = s.vals ∧
    ∀ k, (intToPaddedReversed s.valInt s.radix.toNat s.padlen.toNat).length ≤ k →
      t.msgByte k = s.msgByte k := by
  cases m with
  | stay | fails => exact ⟨rfl, fun _ _ => rfl⟩
  | int2str out hf ho =>
    subst ho
    exact ⟨rfl, fun k hk => State.msgByte_storeBytes_other (.inr (by omega))⟩

/-- A turn without a step, and one that raises ERR, writes no result (40_control.md R127). -/
theorem CodecMove.results (m : CodecMove s i t)
    (h : s.fsm ≠ .check ∨ t.err = true ∧ s.err = false) :
    t.vals = s.vals ∧ t.outlen = s.outlen ∧ ∀ k, t.msgByte k = s.msgByte k := by
  cases m with
  | stay | fails => exact ⟨rfl, rfl, fun _ => rfl⟩
  | str2int | int2str =>
    obtain busy | ⟨raised, clear⟩ := h
    · exact absurd ‹_› busy
    · exact absurd (raised.symm.trans clear) (by decide)

/-- Settles O36: an answer is a move of the codec, and each part of the frame holds of every
move. -/
theorem codecFrame : Obligations.CodecFrame := by
  intro s t i hi h
  have m := exec_codecMove hi h
  obtain ⟨⟨radix, len, padlen, tl, tr, irqen, wbusy, cmdovr, cmd⟩,
    draws, program, reads, bcTable, turns, ticks⟩ := State.bystanders_eq_iff.mp m.bystanders
  obtain ⟨u, v, ri, ha, hb, la, lb, port⟩ := State.roundState_eq_iff.mp m.roundState
  refine ⟨radix, len, padlen, tl, tr, irqen, wbusy, cmdovr, cmd, u, v, ri, ha, hb, la, lb, port,
    draws, program, reads, bcTable, turns, ticks, m.eq_of_not_check, m.error, ?_, ?_, m.results⟩
  · rintro rfl
    exact m.str2int_frame
  · rintro rfl
    exact m.int2str_frame

/-! ### The moves of ENCRYPT and DECRYPT -/

/-- What ENCRYPT and DECRYPT can do (42_feistel_engine.md R171). -/
inductive FeistelMove (s : State) : State → Prop where
  | stay : FeistelMove s s
  | fails (c : ErrCode) (hf : s.fsm = .check) (hc : c.ofOperand) : FeistelMove s (s.fail c)
  | starts (ds : List Nat) (ri : BitVec 3) (hf : s.fsm = .check) :
      FeistelMove s (s.startRounds ds ri)
  | issues (x : Nat) (hf : s.fsm = .issue) : FeistelMove s (s.issueRound x)
  | encryptRound (z : Block) (hf : s.fsm = .wait) : FeistelMove s (s.encryptRound z)
  | decryptRound (z : Block) (hf : s.fsm = .wait) : FeistelMove s (s.decryptRound z)

theorem State.feistelCheck_move (hf : s.fsm = .check) (ri : BitVec 3) :
    FeistelMove s (s.feistelCheck ri) := by
  obtain ⟨c, h, hc⟩ | ⟨-, h⟩ := feistelCheck_cases s ri hf <;> rw [h]
  · exact .fails c hf hc
  · exact .starts _ ri hf

/-- Every answer of ENCRYPT and DECRYPT is one of their moves, whatever word is in `eng.cmd`. -/
theorem exec_feistelMove (hi : i = .encrypt ∨ i = .decrypt) (h : exec i s = .next t) :
    FeistelMove s t := by
  rcases hi with rfl | rfl
  all_goals
    simp only [exec, execEncrypt, execDecrypt] at h
    cases hf : s.fsm <;> rw [hf] at h
  case inl.idle | inr.idle => cases h; exact .stay
  case inl.check | inr.check => cases h; exact State.feistelCheck_move hf _
  case inl.issue | inr.issue => cases h; exact .issues _ hf
  all_goals cases hp : s.port <;> rw [hp] at h <;> cases h
  case inl.wait.rsp z => exact .encryptRound z hf
  case inr.wait.rsp z => exact .decryptRound z hf
  all_goals exact .stay

/-! ### The frame of ENCRYPT and DECRYPT -/

/-- What an advance leaves alone, whether it commits or goes on (42_feistel_engine.md R180). -/
theorem State.advance_frame (s : State) (last next : BitVec 3) :
    let t := s.advance last next
    t.bystanders = s.bystanders ∧ (t.vals = s.vals ∧ t.outlen = s.outlen) ∧
      t.u = s.u ∧ t.v = s.v ∧ t.err = s.err ∧ t.errcode = s.errcode := by
  unfold State.advance
  split <;> exact ⟨rfl, ⟨rfl, rfl⟩, rfl, rfl, rfl, rfl⟩

/-- An advance writes at most the two halves, from MSG[0] on (42_feistel_engine.md R181). -/
theorem State.msgByte_advance {last next : BitVec 3} {k : Nat} (hk : s.u + s.v ≤ k) :
    (s.advance last next).msgByte k = s.msgByte k := by
  unfold State.advance
  split
  · have kept : ((s.storeBytes 0 (revString s.radix.toNat s.u s.ha)).storeBytes s.u
        (revString s.radix.toNat s.v s.hb)).msgByte k = s.msgByte k := by
      rw [State.msgByte_storeBytes_other (.inr (by simpa using hk)),
        State.msgByte_storeBytes_other (.inr (by simp; omega))]
    exact kept
  · rfl

theorem FeistelMove.bystanders (m : FeistelMove s t) : t.bystanders = s.bystanders := by
  cases m with
  | encryptRound | decryptRound => exact (State.advance_frame _ _ _).1
  | _ => rfl

theorem FeistelMove.codecResults (m : FeistelMove s t) :
    t.vals = s.vals ∧ t.outlen = s.outlen := by
  cases m with
  | encryptRound | decryptRound => exact (State.advance_frame _ _ _).2.1
  | _ => exact ⟨rfl, rfl⟩

theorem FeistelMove.eq_of_idle (m : FeistelMove s t) (hf : s.fsm = .idle) : t = s := by
  cases m with
  | stay => rfl
  | fails | starts | issues | encryptRound | decryptRound =>
    exact absurd (hf.symm.trans ‹_›) (by decide)

/-- Only the CHECK step touches the lengths of the halves and the error flags. -/
theorem FeistelMove.lengths_and_error (m : FeistelMove s t) (hf : s.fsm ≠ .check) :
    t.u = s.u ∧ t.v = s.v ∧ t.err = s.err ∧ t.errcode = s.errcode := by
  cases m with
  | fails | starts => exact absurd ‹_› hf
  | encryptRound | decryptRound => exact (State.advance_frame _ _ _).2.2
  | _ => exact ⟨rfl, rfl, rfl, rfl⟩

theorem FeistelMove.error (m : FeistelMove s t) : t.err = s.err ∧ t.errcode = s.errcode ∨
    t.err = true ∧ (t.errcode = 2 ∨ t.errcode = 4 ∨ t.errcode = 6) := by
  cases m with
  | fails c hf hc => exact .inr ⟨rfl, hc.bits⟩
  | encryptRound | decryptRound => exact .inl (State.advance_frame _ _ _).2.2.2.2
  | _ => exact .inl ⟨rfl, rfl⟩

theorem FeistelMove.msgByte_beyond (m : FeistelMove s t) (k : Nat) (hk : s.u + s.v ≤ k) :
    t.msgByte k = s.msgByte k := by
  cases m with
  | encryptRound | decryptRound => exact State.msgByte_advance hk
  | _ => rfl

/-- Only a WAIT step that ends in IDLE commits (42_feistel_engine.md R180, R181). -/
theorem FeistelMove.msgByte_uncommitted (m : FeistelMove s t)
    (h : s.fsm ≠ .wait ∨ t.fsm ≠ .idle) (k : Nat) : t.msgByte k = s.msgByte k := by
  cases m with
  | encryptRound z hf | decryptRound z hf =>
    have kept := State.operands_eq_iff.mp (State.advance_operands (h.resolve_left (absurd hf)))
    exact State.msgByte_congr kept.1 kept.2.1 k
  | _ => rfl

/-- Settles O43: an answer is a move of the engine, and each part of the frame holds of every
move. -/
theorem feistelFrame : Obligations.FeistelFrame := by
  intro s t i hi h
  have m := exec_feistelMove hi h
  obtain ⟨⟨radix, len, padlen, tl, tr, irqen, wbusy, cmdovr, cmd⟩,
    draws, program, reads, bcTable, turns, ticks⟩ := State.bystanders_eq_iff.mp m.bystanders
  obtain ⟨vals, outlen⟩ := m.codecResults
  exact ⟨radix, len, padlen, tl, tr, irqen, wbusy, cmdovr, cmd, vals, outlen, draws, program,
    reads, bcTable, turns, ticks, m.eq_of_idle, m.error, m.lengths_and_error, m.msgByte_beyond,
    m.msgByte_uncommitted⟩

end Sys2Proof.Machine
end

section
/-! PROOF. The lines of a host program (30_encoding.md R106, R107): one round of a poll loop, and
the writes of `ldval` and `ldmsg`, which an idle block stores one after another. -/

namespace Sys2Proof.Machine

variable {s : State} {ts : List Turn} {p : List HostOp}

/-! ### A poll loop -/

/-- A read of a register does not look at the turns. -/
@[simp] theorem State.memRead_setTurns (s : State) (ts : List Turn) (n : Nat) (off : Offset) :
    (s.setTurns ts n).memRead off = s.memRead off := rfl

/-- Settles O54: the poll is a legal access, and the loop ends on a match. -/
theorem pollAdvancesExactlyOnMatch : Obligations.PollAdvancesExactlyOnMatch := by
  intro s ts p off mask val hturn hp aligned
  have legal : legalAccess off 4 = true := by simp [legalAccess, aligned]
  have round : step s = if s.memRead off &&& mask = val
      then .next { s with turns := ts, program := p } else .next { s with turns := ts } := by
    rw [step_host hturn]
    exact (hostTurn_poll (s := s.setTurns ts s.ticks) hp).trans (if_pos legal)
  exact ⟨fun hit => round.trans (if_pos hit), fun miss => round.trans (if_neg miss)⟩

/-! ### A run of host writes -/

/-- The bus transaction that writes a word to a register (30_encoding.md R108). -/
def Reg.writeOp (w : Reg × Word) : HostOp := .write w.1.offset 4 w.2

/-- The block after a list of words has been stored in registers, the first one first. -/
def State.storeRegs (s : State) (ws : List (Reg × Word)) : State :=
  ws.foldl (fun s w => s.storeReg w.2 w.1) s

theorem State.storeRegs_append (s : State) (ws : List (Reg × Word)) (q : Reg) (v : Word) :
    s.storeRegs (ws ++ [(q, v)]) = (s.storeRegs ws).storeReg v q := by
  simp [State.storeRegs]

/-- A store leaves the schedule, the host and IDLE alone. -/
theorem State.storeReg_agents (s : State) (v : Word) (q : Reg) :
    let t := s.storeReg v q
    t.turns = s.turns ∧ t.program = s.program ∧ t.fsm = s.fsm := by
  cases q <;> exact ⟨rfl, rfl, rfl⟩

theorem State.storeRegs_agents (s : State) (ws : List (Reg × Word)) :
    let t := s.storeRegs ws
    t.turns = s.turns ∧ t.program = s.program ∧ t.fsm = s.fsm := by
  induction ws generalizing s with
  | nil => exact ⟨rfl, rfl, rfl⟩
  | cons w ws ih =>
    obtain ⟨turns, program, fsm⟩ := s.storeReg_agents w.2 w.1
    obtain ⟨turns', program', fsm'⟩ := ih (s.storeReg w.2 w.1)
    exact ⟨turns'.trans turns, program'.trans program, fsm'.trans fsm⟩

/-- The block with the host's coming turns and accesses replaced, its free turns and the values
read kept. -/
def State.withHost (s : State) (ts : List Turn) (p : List HostOp) : State :=
  (s.setTurns ts s.ticks).setHost p s.reads

/-- Replacing the host's turns and accesses commutes with a store and forgets earlier ones. -/
theorem State.withHost_storeReg (s : State) (ts ts' : List Turn) (p p' : List HostOp) (v : Word)
    (q : Reg) :
    ((s.withHost ts p).storeReg v q).withHost ts' p' = (s.withHost ts' p').storeReg v q := by
  cases q <;> rfl

/-- The host's write to a busy-drop register of an idle block is stored (40_control.md R131). -/
theorem step_storeReg {q : Reg} {v : Word} (hq : q.isBusyDrop = true) (hf : s.fsm = .idle)
    (hturn : s.turns = .host :: ts) (hp : s.program = Reg.writeOp (q, v) :: p) :
    step s = .next ((s.withHost ts p).storeReg v q) := by
  have legal : legalAccess q.offset 4 = true := by simp [legalAccess, q.offset_aligned]
  calc step s = hostTurn (s.setTurns ts s.ticks) := step_host hturn
    _ = (s.withHost ts p).memWrite q.offset v :=
      (hostTurn_write (s := s.setTurns ts s.ticks) hp).trans (if_pos legal)
    _ = .next ((s.withHost ts p).storeReg v q) := by
      rw [State.memWrite_offset, State.writeReg_idle (s := s.withHost ts p) v hq hf]

/-- A list of writes to busy-drop registers of an idle block, made in as many host turns, stores
its words and changes nothing else. -/
theorem runSteps_storeRegs {ws : List (Reg × Word)} (hq : ∀ w ∈ ws, w.1.isBusyDrop = true)
    (hf : s.fsm = .idle) (hturns : s.turns = List.replicate ws.length .host ++ ts)
    (hp : s.program = ws.map Reg.writeOp ++ p) :
    runSteps ws.length s = .next ((s.withHost ts p).storeRegs ws) := by
  induction ws generalizing s with
  | nil =>
    have hturns : ts = s.turns := hturns.symm
    have hp : p = s.program := hp.symm
    subst hturns hp
    rfl
  | cons w ws ih =>
    obtain ⟨q, v⟩ := w
    have hstep := step_storeReg (hq _ List.mem_cons_self) hf hturns hp
    obtain ⟨turns, program, fsm⟩ := State.storeReg_agents
      (s.withHost (List.replicate ws.length .host ++ ts) (ws.map Reg.writeOp ++ p)) v q
    have rest := ih (fun w hw => hq w (List.mem_cons_of_mem _ hw)) (fsm.trans hf) turns program
    rw [List.length_cons, runSteps, hstep]
    exact rest.trans (by rw [State.withHost_storeReg]; rfl)

/-! ### `ldval` -/

/-- Writes of six words to the registers of VAL, least significant first. -/
def valWrites (ws : Vector Word 6) : List (Reg × Word) :=
  (List.finRange 6).map fun j => (.val j, ws[j])

theorem valWrites_isBusyDrop (ws : Vector Word 6) :
    ∀ w ∈ valWrites ws, w.1.isBusyDrop = true := by
  simp [valWrites, Reg.isBusyDrop]

/-- `ldval` writes the six words of its number (30_encoding.md R107). -/
theorem encode_ldval (n : Nat) :
    HostLine.encode (.ldval n) = (valWrites (wordsOf n)).map Reg.writeOp := rfl

/-- Stores to registers of VAL change VAL only. -/
theorem State.storeRegs_map_val (s : State) (f : Fin 6 → Word) (js : List (Fin 6)) :
    s.storeRegs (js.map fun j => (.val j, f j)) =
      s.setVals (js.foldl (fun vs (j : Fin 6) => vs.set j (f j)) s.vals) := by
  induction js generalizing s with
  | nil => rfl
  | cons j js ih => exact ih (s.setVals (s.vals.set j (f j)))

/-- The six stores fill VAL (20_memory.md R75). -/
theorem State.storeRegs_val (s : State) (ws : Vector Word 6) :
    s.storeRegs (valWrites ws) = s.setVals ws := by
  have fill : (List.finRange 6).foldl (fun vs (j : Fin 6) => vs.set j ws[j]) s.vals = ws := by
    refine Vector.ext fun j hj => ?_
    interval_cases j <;> simp [List.finRange]
  rw [valWrites, State.storeRegs_map_val, fill]

/-- Settles O56: the six writes store the six words of the number. -/
theorem ldvalWritesTheNumber : Obligations.LdvalWritesTheNumber := by
  intro s n p ts hf hn hp hturns
  have run := runSteps_storeRegs (valWrites_isBusyDrop (wordsOf n)) hf hturns hp
  rw [State.storeRegs_val] at run
  exact ⟨_, run, foldr_wordsOf hn, rfl⟩

/-! ### `ldmsg` -/

/-- Writes of `f 0, f 1, ...` to the first `m` registers of MSG, for `m` at most 48. -/
def msgWrites (f : Nat → Word) (m : Nat) : List (Reg × Word) :=
  (List.range m).map fun w => (.msg (Fin.ofNat 48 w), f w)

@[simp] theorem msgWrites_length (f : Nat → Word) (m : Nat) : (msgWrites f m).length = m := by
  simp [msgWrites]

theorem msgWrites_isBusyDrop (f : Nat → Word) (m : Nat) :
    ∀ w ∈ msgWrites f m, w.1.isBusyDrop = true := by
  simp [msgWrites, Reg.isBusyDrop]

/-- `ldmsg` of a string that fits MSG writes its words in order (30_encoding.md R107). -/
theorem encode_ldmsg {x : List Byte} (hx : x.length ≤ 192) : HostLine.encode (.ldmsg x) =
    (msgWrites (stringWord x) ((x.length + 3) / 4)).map Reg.writeOp := by
  rw [HostLine.encode, msgWrites, List.map_map]
  refine List.map_congr_left fun w hw => ?_
  have hw : w < 48 := by
    have := List.mem_range.mp hw
    omega
  simp [Reg.writeOp, Reg.offset, msgOffset, Nat.mod_eq_of_lt hw]

/-- The bytes of MSG after words have been stored in its first registers (20_memory.md R74). -/
theorem State.msgByte_storeRegs_msg (s : State) (f : Nat → Word) {m : Nat} (hm : m ≤ 48)
    (k : Nat) : (s.storeRegs (msgWrites f m)).msgByte k =
      if k / 4 < m then lane (f (k / 4)) (k % 4) else s.msgByte k := by
  induction m with
  | zero => rfl
  | succ m ih =>
    have last : (Fin.ofNat 48 m).val = m := Nat.mod_eq_of_lt hm
    have snoc : msgWrites f (m + 1) = msgWrites f m ++ [(.msg (Fin.ofNat 48 m), f m)] := by
      simp [msgWrites, List.range_succ]
    rw [snoc, State.storeRegs_append, State.storeReg, last, State.msgByte_storeMsgWord _ _ _ _ hm,
      ih (by omega)]
    by_cases here : k / 4 = m
    · rw [if_pos here, if_pos (by omega), here]
    · rw [if_neg here]
      simp only [show k / 4 < m + 1 ↔ k / 4 < m by omega]

/-- Byte lane `b` of word `w` of a string is its character `4 w + b` (30_encoding.md R107). -/
theorem lane_stringWord (x : List Byte) (w : Nat) (b : Fin 4) :
    lane (stringWord x w) b = charAt x (4 * w + b) := by
  have h0 := (charAt x (4 * w)).isLt
  have h1 := (charAt x (4 * w + 1)).isLt
  have h2 := (charAt x (4 * w + 2)).isLt
  have h3 := (charAt x (4 * w + 3)).isLt
  apply BitVec.eq_of_toNat_eq
  simp only [lane, toNat_extractLsb'_eq_div, stringWord, toNat_append_add]
  fin_cases b <;> simp <;> omega

/-- The bytes of MSG after `ldmsg`: the string, padded to a whole number of words, over what was
there. -/
theorem State.msgByte_ldmsg (s : State) {x : List Byte} (hx : x.length ≤ 192) (k : Nat) :
    (s.storeRegs (msgWrites (stringWord x) ((x.length + 3) / 4))).msgByte k =
      if k < 4 * ((x.length + 3) / 4) then charAt x k else s.msgByte k := by
  have character : lane (stringWord x (k / 4)) (k % 4) = charAt x k := by
    rw [lane_stringWord x (k / 4) ⟨k % 4, Nat.mod_lt k (by decide)⟩, Nat.div_add_mod]
  rw [State.msgByte_storeRegs_msg s _ (by omega), character]
  simp only [show k / 4 < (x.length + 3) / 4 ↔ k < 4 * ((x.length + 3) / 4) by omega]

/-- Settles O55: the writes store the words of the string, and `0x00` pads the last one. -/
theorem ldmsgWritesTheString : Obligations.LdmsgWritesTheString := by
  intro s x p ts hf hx hp hturns
  have run := runSteps_storeRegs (s := s) (ts := ts) (p := p)
    (msgWrites_isBusyDrop (stringWord x) ((x.length + 3) / 4)) hf
    (by rwa [msgWrites_length]) (by rwa [← encode_ldmsg hx])
  rw [msgWrites_length] at run
  have bytes := (s.withHost ts p).msgByte_ldmsg hx
  obtain ⟨turns, program, fsm⟩ := (s.withHost ts p).storeRegs_agents
    (msgWrites (stringWord x) ((x.length + 3) / 4))
  refine ⟨_, run, program, turns, fsm.trans hf, ?string, fun k hk hpad => ?padding,
    fun k hk => ?rest⟩
  case string =>
    refine List.ext_getElem (by simp) fun k h hk => ?_
    rw [State.msgString_getElem, Nat.zero_add, bytes, if_pos (by omega), charAt,
      List.getD_eq_getElem _ _ hk]
  case padding =>
    rw [bytes, if_pos hpad, charAt, List.getD_eq_default _ _ hk]
  case rest =>
    rw [bytes, if_neg (by omega)]
    rfl

end Sys2Proof.Machine
end

section
/-! PROOF. The host's writes (40_control.md R120 to R122, R129, R131): what a write to each kind of
register does in each engine state, and that none of it disturbs a command in progress. -/

namespace Sys2Proof.Machine

variable {s t : State} {ts : List Turn} {p : List HostOp}

/-! ### Writes to busy-drop registers, STATUS, IRQEN and reserved offsets -/

/-- A busy block drops a write to a busy-drop register and sets WBUSY (40_control.md R131). -/
theorem State.writeReg_busy {q : Reg} (v : Word) (hq : q.isBusyDrop = true)
    (hf : s.fsm ≠ .idle) : s.writeReg v q = .next s.writeDropped := by
  cases q
  case cmd | status | irqen | limits | outlen => cases hq
  all_goals exact congrArg _ (State.busyDrop_busy _ hf)

/-- A stored operand reads back. -/
theorem State.readReg_storeReg_same (s : State) {q : Reg} (v : Word) (hq : q.isBusyDrop = true) :
    (s.storeReg v q).readReg q = v := by
  cases q with
  | cmd | status | irqen | limits | outlen => cases hq
  | radix | len | padlen | tl | tr => rfl
  | val j => exact Vector.getElem_set_self j.isLt
  | msg w => exact (s.msgWord_storeMsgWord w w v w.isLt).trans (if_pos rfl)

/-- A store that is not dropped leaves WBUSY alone. -/
@[simp] theorem State.storeReg_wbusy (s : State) (v : Word) (q : Reg) :
    (s.storeReg v q).wbusy = s.wbusy := by
  cases q <;> rfl

/-- A write to a reserved offset is ignored (10_state.md R44). -/
theorem State.memWrite_reserved (s : State) {off : Offset} (v : Word)
    (h : (0x028 ≤ off.toNat ∧ off.toNat < 0x040) ∨
      (0x058 ≤ off.toNat ∧ off.toNat < 0x100) ∨ 0x1C0 ≤ off.toNat) :
    s.memWrite off v = .next s := by
  rw [State.memWrite, regAt_reserved h]

/-- Settles O20: each write is the one its register's kind gives; only the busy-drop registers look
at the engine's state. -/
theorem busyDropRegisters : Obligations.BusyDropRegisters := by
  refine ⟨fun s q v hq hf => ?busy, fun s q v hq hf => ?idle, fun _ _ => rfl,
    fun s v => congrArg _ (s.clearStatus_eq_ite v), fun _ _ => ⟨rfl, rfl⟩,
    fun s _ v => s.memWrite_reserved v⟩
  case busy =>
    rw [State.memWrite_offset, State.writeReg_busy v hq hf]
    rfl
  case idle =>
    exact ⟨s.storeReg v q, by rw [State.memWrite_offset, State.writeReg_idle v hq hf],
      by rw [State.memRead_offset, State.readReg_storeReg_same s v hq], s.storeReg_wbusy v q⟩

/-! ### Writes to CMD -/

theorem State.memWrite_cmd (s : State) (w : Word) : s.memWrite 0x000 w = s.cmdWrite w := rfl

/-- Settles O24: NOP's meaning is the state as it is, and a CMD write of 0 runs it. -/
theorem nopDoesNothing : Obligations.NopDoesNothing :=
  ⟨decode_zero, fun s => ⟨rfl, s.cmdWrite_zero⟩⟩

/-- A host turn whose entry writes CMD is that write, with the turn and the entry taken off. -/
theorem step_cmdWrite {w : Word} (hturn : s.turns = .host :: ts)
    (hp : s.program = .write 0x000 4 w :: p) : step s = (s.withHost ts p).cmdWrite w := by
  rw [step_host hturn, hostTurn_write (s := s.setTurns ts s.ticks) hp, if_pos (by decide)]
  rfl

/-- Settles O23: the write to CMD in its three cases. -/
theorem cmdWriteDoesOneOfThree : Obligations.CmdWriteDoesOneOfThree := by
  intro s ts p w hturn hp
  rw [step_cmdWrite hturn hp]
  refine ⟨?nop, fun hw hf => ?accepted, fun hw hf => ?overrun⟩
  case nop => rintro rfl; exact State.cmdWrite_zero _
  case accepted => exact State.cmdWrite_idle (s := s.withHost ts p) hw hf
  case overrun => exact State.cmdWrite_busy (s := s.withHost ts p) hw hf

/-! ### A host turn while a command is in progress -/

/-- While busy a host write reaches neither the engine nor the port (40_control.md R122). -/
theorem WriteMove.engine (m : WriteMove s t) (busy : s.fsm ≠ .idle) :
    t.fsm = s.fsm ∧ t.cmd = s.cmd ∧ t.roundState = s.roundState := by
  cases m with
  | accepted => exact absurd ‹s.fsm = .idle› busy
  | _ => exact ⟨rfl, rfl, rfl⟩

/-- A host turn that answers stays, or does to the block what a write does. -/
theorem hostTurn_inv (h : hostTurn s = .next t) :
    t = s ∨ ∃ p rs, WriteMove (s.setHost p rs) t := by
  obtain stay | ⟨_, _, -, -, _, fault⟩ | ⟨_, p, rs, t', -, -, write, done⟩ := hostTurn_cases s
  · rw [stay] at h; cases h; exact .inl rfl
  · rw [fault] at h; cases h
  · rw [done] at h; cases h; exact .inr ⟨p, rs, write⟩

/-- While busy a host turn keeps the engine, the port, the operands and the results
(10_state.md R54). -/
theorem hostTurn_busy (busy : s.fsm ≠ .idle) (h : hostTurn s = .next t) :
    (t.fsm = s.fsm ∧ t.cmd = s.cmd ∧ t.roundState = s.roundState) ∧ t.operands = s.operands := by
  obtain rfl | ⟨p, rs, write⟩ := hostTurn_inv h
  · exact ⟨⟨rfl, rfl, rfl⟩, rfl⟩
  · exact ⟨write.engine busy, write.operands busy⟩

/-- Settles O50: a busy block drops the writes that would change the command, its operands or its
results. -/
theorem hostTurnLeavesRunningCommandAlone : Obligations.HostTurnLeavesRunningCommandAlone := by
  intro s t busy h
  obtain ⟨⟨fsm, cmd, rounds⟩, operands⟩ := hostTurn_busy busy h
  obtain ⟨u, v, ri, ha, hb, la, lb, port⟩ := State.roundState_eq_iff.mp rounds
  obtain ⟨msg, draws, vals, outlen, radix, len, padlen, tl, tr⟩ :=
    State.operands_eq_iff.mp operands
  exact ⟨fsm, cmd, port, ri, u, v, ha, hb, la, lb, radix, len, padlen, tl, tr, vals, msg, draws,
    outlen⟩

end Sys2Proof.Machine
end

section
/-! PROOF. The engine's turn (40_control.md R123 to R132): it runs the accepted command, takes no
step in IDLE or in an unanswered WAIT, and reports a failing check in its CHECK step only. -/

namespace Sys2Proof.Machine

variable {s t : State} {i : Instr}

/-! ### The accepted command -/

theorem engineTurn_of_decode (hd : decode s.cmd = .ok i) : engineTurn s = exec i s := by
  rw [engineTurn, hd]

/-- Settles O4: the step is the engine's turn, which decodes `eng.cmd`. -/
theorem engineTurnRunsTheDecodedCommand : Obligations.EngineTurnRunsTheDecodedCommand :=
  fun s ts _ hturn hd =>
    (step_of_turns hturn).trans (engineTurn_of_decode (s := s.setTurns ts s.ticks) hd)

/-! ### A placed word -/

/-- A placed word is the 32-bit word of its number. -/
theorem State.withFetchWord_toNat (s : State) (w : Word) :
    s.withFetchWord 32 w.toNat = s.placeWord w := by
  rw [State.withFetchWord, Nat.mod_eq_of_lt w.isLt, BitVec.ofNat_toNat, BitVec.setWidth_eq]

/-- The word 0 is run by the host's write to CMD, which leaves the state before the placing
(40_control.md R120). -/
theorem step_placeWord_zero (s : State) : step (s.placeWord 0) = .next s :=
  (step_cmdWrite (s := s.placeWord 0) rfl rfl).trans (State.cmdWrite_zero _)

/-- Any other word is run by the engine, from the state acceptance leaves (40_control.md R121). -/
theorem step_placeWord (s : State) {w : Word} (hw : w ≠ 0) :
    step (s.placeWord w) = engineTurn ((s.accept w).setPort .empty) := by
  rw [State.placeWord, if_neg (by exact hw)]
  rfl

/-- NOP alone has the word 0 (30_encoding.md R102). -/
theorem encode_eq_zero_iff : encode i = 0 ↔ i = .nop := by
  cases i <;> decide

/-- Settles O5: NOP's word is run by the host's write, every other by the engine. -/
theorem placedWordRunsNext : Obligations.PlacedWordRunsNext := by
  intro s i
  rw [State.withFetchWord_toNat]
  by_cases hi : i = .nop
  · subst hi
    exact step_placeWord_zero s
  · rw [if_neg hi, step_placeWord s (encode_eq_zero_iff.not.mpr hi)]
    exact engineTurn_of_decode (decode_eq_ok.mpr rfl)

/-! ### No step -/

/-- No command has a step in IDLE or in an unanswered WAIT (40_control.md R132). -/
theorem exec_of_no_step (i : Instr)
    (h : s.fsm = .idle ∨ s.fsm = .wait ∧ ∃ x, s.port = .req x) : exec i s = .next s := by
  cases i with
  | nop => rfl
  | encrypt | decrypt =>
    obtain hf | ⟨hf, x, hp⟩ := h
    · simp only [exec, execEncrypt, execDecrypt, hf]
    · simp only [exec, execEncrypt, execDecrypt, hf, hp]
  | str2int | int2str =>
    obtain hf | ⟨hf, -⟩ := h <;> simp only [exec, execStr2int, execInt2str, hf]

/-- An ILLEGAL word has no step outside CHECK (40_control.md R130). -/
theorem illegalTurn_of_not_check (hf : s.fsm ≠ .check) : illegalTurn s = s := by
  cases h : s.fsm with
  | check => exact absurd h hf
  | _ => rw [illegalTurn, h]

/-- Settles O6: neither a command nor an ILLEGAL word has a step there, and the BC only answers a
request. -/
theorem noStepInIdleOrUnansweredWait : Obligations.NoStepInIdleOrUnansweredWait := by
  refine ⟨fun s h => ?engine, fun s h => ?bc⟩
  case engine =>
    cases hd : decode s.cmd with
    | ok i => exact (engineTurn_of_decode hd).trans (exec_of_no_step i h)
    | error e =>
      have hf : s.fsm ≠ .check := by obtain hf | ⟨hf, -⟩ := h <;> simp [hf]
      rw [engineTurn, hd]
      exact congrArg _ (illegalTurn_of_not_check hf)
  case bc =>
    obtain ⟨x, hp, -⟩ | ⟨-, stay⟩ := bcTurn_cases s
    · exact absurd hp (h x)
    · exact stay

/-! ### ILLEGAL words -/

/-- The engine's turn in CHECK with an ILLEGAL word is `fail(7)` (40_control.md R130). -/
theorem engineTurn_illegal_check (hd : decode s.cmd = .error (.illegal s.cmd))
    (hf : s.fsm = .check) : engineTurn s = .next (s.fail .illegalCommand) := by
  rw [engineTurn, hd]
  simp only [illegalTurn, hf]

/-- Settles O25: an ILLEGAL word is not 0, so CMD takes it as any other, and its CHECK step is
`fail(7)`. -/
theorem illegalCommandFailsWithCode7 : Obligations.IllegalCommandFailsWithCode7 := by
  intro s w illegal
  have hw : w ≠ 0 := illegal .nop
  rw [State.memWrite_cmd]
  refine ⟨State.cmdWrite_idle hw, fun hf hcmd => ?_, State.cmdWrite_busy hw⟩
  subst hcmd
  have hd := (decode_total s.cmd).resolve_left fun ⟨i, hi⟩ => illegal i (decode_eq_ok.mp hi)
  exact engineTurn_illegal_check hd hf

/-! ### Failing checks of ENCRYPT and DECRYPT -/

/-- A failing check is the whole CHECK step of ENCRYPT and DECRYPT (40_control.md R123, R127). -/
theorem exec_of_checkFeistel_error {c : ErrCode} (hi : i = .encrypt ∨ i = .decrypt)
    (hf : s.fsm = .check) (h : s.checkFeistel = .error c) : exec i s = .next (s.fail c) := by
  rcases hi with rfl | rfl
  · simp only [exec, execEncrypt, hf, State.feistelCheck, h]
  · simp only [exec, execDecrypt, hf, State.feistelCheck, h]

theorem lenOkFeistel_of_limits {r lo hi n : Nat} (h : limitsOf r = some (lo, hi)) :
    lenOkFeistel r n = true ↔ lo ≤ n ∧ n ≤ hi := by
  simp [lenOkFeistel_iff, h]

/-- A radix with a row in the table is valid (40_control.md R124). -/
theorem validRadix_of_limits {r lo hi : Nat} (h : limitsOf r = some (lo, hi)) :
    validRadix r = true := by
  obtain ⟨h2, h36, -⟩ := limitsOf_bounds h
  exact validRadix_iff.mpr ⟨h2, h36⟩

/-- Settles O29: the first failing check is the error the checks answer. -/
theorem feistelCheckReportsFirstFailure : Obligations.FeistelCheckReportsFirstFailure := by
  intro s i hi hf
  refine ⟨fun bad => ?radix, fun lo top row bad => ?length, fun lo top row hlo htop bad => ?chars⟩
  case radix =>
    have invalid : validRadix s.radix.toNat = false :=
      Bool.eq_false_iff.mpr (validRadix_iff.not.mpr bad)
    exact exec_of_checkFeistel_error hi hf
      (State.checkFeistel_error.mpr (.inl ⟨invalid, rfl⟩))
  case length =>
    have invalid : lenOkFeistel s.radix.toNat s.len.toNat = false :=
      Bool.eq_false_iff.mpr ((lenOkFeistel_of_limits row).not.mpr bad)
    exact exec_of_checkFeistel_error hi hf
      (State.checkFeistel_error.mpr (.inr (.inl ⟨validRadix_of_limits row, invalid, rfl⟩)))
  case chars =>
    have invalid : ¬s.charsOk s.len.toNat := by
      obtain ⟨k, hk, hc⟩ := bad
      intro valid
      exact Bool.false_ne_true (hc.symm.trans (valid k hk))
    exact exec_of_checkFeistel_error hi hf
      (State.checkFeistel_error.mpr (.inr (.inr ⟨validRadix_of_limits row,
        (lenOkFeistel_of_limits row).mpr ⟨hlo, htop⟩, invalid, rfl⟩)))

/-! ### Where errors come from -/

/-- A move of the engine leaves ERR alone, or is a failing CHECK step (40_control.md R127) with one
of the four codes the block raises (60_exceptions.md R211). -/
theorem EngineMove.err_or_fails (m : EngineMove s t) : t.err = s.err ∨
    s.fsm = .check ∧ ∃ c : ErrCode, t = s.fail c ∧
      (c.bits = 2 ∨ c.bits = 4 ∨ c.bits = 6 ∨ c.bits = 7) := by
  cases m with
  | fails c hf hc =>
    refine .inr ⟨hf, c, rfl, ?_⟩
    rcases hc with rfl | rfl | rfl | rfl
    exacts [.inl rfl, .inr (.inl rfl), .inr (.inr (.inl rfl)), .inr (.inr (.inr rfl))]
  | roundEncrypt | roundDecrypt =>
    obtain ⟨-, -, -, -, err, -⟩ := State.advance_frame _ _ _
    exact .inl err
  | _ => exact .inl rfl

/-- A host write sets no ERR. -/
theorem WriteMove.err_eq_false (m : WriteMove s t) (clear : s.err = false) : t.err = false := by
  cases m with
  | accepted => rfl
  | status w => simp [clear]
  | _ => exact clear

@[simp] theorem bcTurn_err (s : State) : (bcTurn s).err = s.err := by
  obtain ⟨x, -, h⟩ | ⟨-, h⟩ := bcTurn_cases s <;> simp [h]

/-- A step that raises ERR is a failing CHECK step of the engine (60_exceptions.md R210). -/
theorem step_raises_err (h : step s = .next t) (clear : s.err = false) (raised : t.err = true) :
    (nextTurn s).1 = .engine ∧ s.fsm = .check ∧
      ∃ ts n, ∃ c : ErrCode, t = (s.setTurns ts n).fail c ∧
        (c.bits = 2 ∨ c.bits = 4 ∨ c.bits = 6 ∨ c.bits = 7) := by
  have changed : t.err ≠ false := by simp [raised]
  obtain ⟨ts, n, ⟨turn, engine⟩ | ⟨-, rfl⟩ | ⟨-, rfl⟩ | ⟨-, rfl | ⟨-, p, rs, -, -, write⟩⟩⟩ :=
    step_inv h
  · obtain same | ⟨check, c, fails, code⟩ := engine.err_or_fails
    · exact absurd (same.trans clear) changed
    · exact ⟨turn, check, ts, n, c, fails, code⟩
  · exact absurd ((bcTurn_err (s.setTurns ts n)).trans clear) changed
  · exact absurd rfl changed
  · exact absurd clear changed
  · exact absurd (write.err_eq_false clear) changed

/-- Settles O32: the step is a failing CHECK step, which writes ERRCODE, ERR, DONE and the engine's
state only. -/
theorem errorsComeFromTheCheckStep : Obligations.ErrorsComeFromTheCheckStep := by
  intro s t h clear raised
  obtain ⟨turn, check, ts, n, c, rfl, code⟩ := step_raises_err h clear raised
  exact ⟨turn, check, rfl, rfl, code, rfl, rfl, rfl, rfl, rfl, rfl, rfl, rfl, rfl, rfl, rfl, rfl,
    rfl, rfl, rfl, rfl, rfl⟩

end Sys2Proof.Machine
end

section
/-! PROOF. The radix codec (41_radix_codec.md): its character maps, its two primitives as inverses
through one reversal, and the CHECK step of STR2INT and INT2STR on failing and on valid operands. -/

namespace Sys2Proof.Machine

variable {s : State}

/-! ### The character maps -/

/-- `chr` of a character's digit is the character in lowercase (41_radix_codec.md R140, R141). -/
theorem chr_of_digit {b : Byte} {e : Nat} (h : digit b = some e) : chr e = lowerChar b := by
  have all : ∀ b : Byte, (digit b).all fun e => chr e = lowerChar b := by decide
  simpa [h] using all b

/-- Settles O28: the ranges of the two maps byte by byte, and validity as a digit below the
radix. -/
theorem characterMaps : Obligations.CharacterMaps := by
  refine ⟨by decide, by decide, fun b decimal lower upper => ?other, by decide, by decide,
    fun e he => digit_chr he, fun b r => validChar_iff⟩
  case other => simp only [digit, if_neg decimal, if_neg lower, if_neg upper]

/-! ### The two primitives -/

/-- Characters written by `chr` are read back as their digits (41_radix_codec.md R141). -/
theorem digits?_map_chr {r : Nat} (h36 : r ≤ 36) {ds : List Nat} (h : ∀ d ∈ ds, d < r) :
    digits? r (ds.map chr) = some ds := by
  refine digits?_eq_some.mpr ⟨?_, h⟩
  rw [List.map_map]
  exact List.map_congr_left fun d hd => digit_chr ((h d hd).trans_le h36)

/-- The parse of a reversed string is the reversed parse. -/
theorem digits?_reverse {r : Nat} {x : List Byte} {ds : List Nat} (h : digits? r x = some ds) :
    digits? r x.reverse = some ds.reverse := by
  obtain ⟨map, lt⟩ := digits?_eq_some.mp h
  refine digits?_eq_some.mpr ⟨?_, fun d hd => lt d (List.mem_reverse.mp hd)⟩
  rw [List.map_reverse, map, List.map_reverse]

/-- `string_to_int` of the reversed string reads the first digit as the least significant
(41_radix_codec.md R143, 00_scope.md R14). -/
theorem stringToInt_reverse {r : Nat} {x : List Byte} {ds : List Nat} (hx : x ≠ [])
    (h : digits? r x = some ds) : stringToInt x.reverse r = some (numRev r ds) := by
  rw [stringToInt, if_neg (List.reverse_ne_nil_iff.mpr hx), digits?_reverse h, Option.map_some,
    num_reverse]

@[simp] theorem numRev_replicate_zero (r k : Nat) : numRev r (List.replicate k 0) = 0 := by
  induction k with
  | zero => rfl
  | succ k ih => simp [List.replicate_succ, ih]

/-- The output of `int_to_padded_reversed_string` is never empty (41_radix_codec.md R144). -/
theorem intToPaddedReversed_ne_nil (n r l : Nat) : intToPaddedReversed n r l ≠ [] := by
  have pos : 1 ≤ (emitDigits r (n.log2 + 1) n).length := emitDigits_length_pos
  refine List.ne_nil_of_length_pos ?_
  rw [intToPaddedReversed_length]
  omega

/-- Writing a number and reading it back reversed gives the number (41_radix_codec.md R146 (a)). -/
theorem stringToInt_reverse_intToPaddedReversed {r : Nat} (h2 : 2 ≤ r) (h36 : r ≤ 36) (n l : Nat) :
    stringToInt (intToPaddedReversed n r l).reverse r = some n := by
  have lt : ∀ d ∈ emitDigits r (n.log2 + 1) n ++
      List.replicate (l - (emitDigits r (n.log2 + 1) n).length) 0, d < r := by
    intro d hd
    obtain emitted | padding := List.mem_append.mp hd
    · exact emitDigits_lt (by omega) _ _ d emitted
    · rw [List.eq_of_mem_replicate padding]
      omega
  rw [stringToInt_reverse (intToPaddedReversed_ne_nil n r l) (digits?_map_chr h36 lt),
    numRev_append, numRev_emit h2, numRev_replicate_zero, Nat.mul_zero, Nat.add_zero]

/-- The characters of a digit string's value are the digits' characters. -/
theorem revString_numRev {r : Nat} {ds : List Nat} (h : ∀ d ∈ ds, d < r) :
    revString r ds.length (numRev r ds) = ds.map chr := by
  refine List.ext_getElem (by simp) fun j hj _ => ?_
  rw [revString_length] at hj
  rw [revString_getElem, digitAt_numRev h, List.getD_eq_getElem _ _ hj, List.getElem_map]

/-- The characters of a valid string's digits are the string in lowercase. -/
theorem map_chr_of_digits? {r : Nat} {x : List Byte} {ds : List Nat} (h : digits? r x = some ds) :
    ds.map chr = x.map lowerChar := by
  have valid : ∀ b ∈ x, validChar b r = true := digits?_isSome.mp (Option.isSome_of_eq_some h)
  rw [digits?_of_valid valid] at h
  cases h
  rw [List.map_map]
  refine List.map_congr_left fun b hb => ?_
  obtain ⟨e, digit_eq, -⟩ := validChar_iff.mp (valid b hb)
  simpa [digit_eq] using chr_of_digit digit_eq

/-- Reading a string reversed and writing its value gives the string in lowercase
(41_radix_codec.md R146 (b)). -/
theorem intToPaddedReversed_stringToInt_reverse {r : Nat} (h2 : 2 ≤ r) {x : List Byte}
    (hx : x ≠ []) (valid : ∀ b ∈ x, validChar b r = true) :
    (stringToInt x.reverse r).map (fun n => intToPaddedReversed n r x.length) =
      some (x.map lowerChar) := by
  obtain ⟨ds, parse⟩ := Option.isSome_iff_exists.mp (digits?_isSome.mpr valid)
  obtain ⟨-, lt⟩ := digits?_eq_some.mp parse
  have pos : 1 ≤ ds.length := by
    rw [digits?_length parse]
    exact List.length_pos_iff.mpr hx
  rw [stringToInt_reverse hx parse, Option.map_some, ← digits?_length parse,
    intToPaddedReversed_eq_revString h2 pos (numRev_lt lt), revString_numRev lt,
    map_chr_of_digits? parse]

/-- Settles O35: (a) and (b) are the two laws above, and (c) is (b) for the reversed string. -/
theorem codecPrimitivesInverseThroughReversal :
    Obligations.CodecPrimitivesInverseThroughReversal := by
  intro r h2 h36
  refine ⟨stringToInt_reverse_intToPaddedReversed h2 h36,
    fun x hx valid => intToPaddedReversed_stringToInt_reverse h2 hx valid,
    fun x hx valid => ?_⟩
  have law := intToPaddedReversed_stringToInt_reverse h2 (List.reverse_ne_nil_iff.mpr hx)
    (fun b hb => valid b (List.mem_reverse.mp hb))
  rwa [List.reverse_reverse, List.length_reverse, List.map_reverse] at law

/-! ### Failing checks -/

/-- A failing check is the whole CHECK step of STR2INT (41_radix_codec.md R148). -/
theorem exec_of_checkStr2int_error {c : ErrCode} (hf : s.fsm = .check)
    (h : s.checkStr2int = .error c) : exec .str2int s = .next (s.fail c) := by
  simp only [exec, execStr2int, hf, State.str2int, h]

/-- A failing check is the whole CHECK step of INT2STR (41_radix_codec.md R149). -/
theorem exec_of_checkInt2str_error {c : ErrCode} (hf : s.fsm = .check)
    (h : s.checkInt2str = .error c) : exec .int2str s = .next (s.fail c) := by
  simp only [exec, execInt2str, hf, State.int2str, h]

theorem validRadix_eq_false_iff {r : Nat} : validRadix r = false ↔ ¬(2 ≤ r ∧ r ≤ 36) := by
  rw [← validRadix_iff, Bool.not_eq_true]

theorem lenOkStr2int_of_limits {r lo hi n : Nat} (h : limitsOf r = some (lo, hi)) :
    lenOkStr2int r n = true ↔ 1 ≤ n ∧ n ≤ hi := by
  simp [lenOkStr2int_iff, h]

/-- Settles O30: the first failing check is the error the checks answer. -/
theorem str2intCheckReportsFirstFailure : Obligations.Str2intCheckReportsFirstFailure := by
  intro s hf
  refine ⟨fun bad => ?radix, fun lo top row bad => ?length, fun lo top row h1 htop bad => ?chars⟩
  case radix =>
    exact exec_of_checkStr2int_error hf
      (State.checkStr2int_error.mpr (.inl ⟨validRadix_eq_false_iff.mpr bad, rfl⟩))
  case length =>
    have invalid : lenOkStr2int s.radix.toNat s.len.toNat = false := by
      rw [Bool.eq_false_iff, ne_eq, lenOkStr2int_of_limits row]
      omega
    exact exec_of_checkStr2int_error hf
      (State.checkStr2int_error.mpr (.inr (.inl ⟨validRadix_of_limits row, invalid, rfl⟩)))
  case chars =>
    have invalid : ¬s.charsOk s.len.toNat := by simpa [State.charsOk] using bad
    exact exec_of_checkStr2int_error hf
      (State.checkStr2int_error.mpr (.inr (.inr ⟨validRadix_of_limits row,
        (lenOkStr2int_of_limits row).mpr ⟨h1, htop⟩, invalid, rfl⟩)))

/-- Settles O31: the first failing check is the error the checks answer. -/
theorem int2strCheckReportsFirstFailure : Obligations.Int2strCheckReportsFirstFailure := by
  intro s hf
  refine ⟨fun bad => ?radix, fun h2 h36 bad => ?padlen⟩
  case radix =>
    exact exec_of_checkInt2str_error hf
      (State.checkInt2str_error.mpr (.inl ⟨validRadix_eq_false_iff.mpr bad, rfl⟩))
  case padlen =>
    have invalid : padOk s.padlen.toNat = false := decide_eq_false (Nat.not_le_of_lt bad)
    exact exec_of_checkInt2str_error hf
      (State.checkInt2str_error.mpr (.inr ⟨validRadix_iff.mpr ⟨h2, h36⟩, invalid, rfl⟩))

/-! ### STR2INT on a valid string -/

/-- STR2INT stores the value its checks answer and completes (41_radix_codec.md R148). -/
theorem exec_of_checkStr2int_ok {n : Nat} (hf : s.fsm = .check) (h : s.checkStr2int = .ok n) :
    exec .str2int s = .next (s.setVals (wordsOf n)).complete := by
  simp only [exec, execStr2int, hf, State.str2int, h]

/-- `NUM_r(X) = sum of d(X[j]) * r^(n-1-j)` (00_scope.md R12). -/
theorem num_eq_sum (r : Nat) (ds : List Nat) :
    num r ds = ∑ j ∈ Finset.range ds.length, ds.getD j 0 * r ^ (ds.length - 1 - j) := by
  rw [num_eq_numRev, numRev_eq_sum, List.length_reverse, ← Finset.sum_range_reflect]
  refine Finset.sum_congr rfl fun j hj => ?_
  have hj := Finset.mem_range.mp hj
  have mirror : ds.reverse.getD (ds.length - 1 - j) 0 = ds.getD j 0 := by
    rw [List.getD_eq_getElem _ _ (by rw [List.length_reverse]; omega),
      List.getElem_reverse, List.getD_eq_getElem _ _ hj]
    congr 1
    omega
  rw [mirror]

theorem State.digitsOf_getD {n j : Nat} (hj : j < n) : (s.digitsOf n).getD j 0 = s.digitOf j := by
  simp [State.digitsOf, hj]

/-- The value of an operand string, character by character (41_radix_codec.md R143). -/
theorem num_digitsOf (s : State) (r n : Nat) : num r (s.digitsOf n) =
    ∑ j ∈ Finset.range n, s.digitOf j * r ^ (n - 1 - j) := by
  rw [num_eq_sum, State.digitsOf_length]
  exact Finset.sum_congr rfl fun j hj => by rw [State.digitsOf_getD (Finset.mem_range.mp hj)]

/-- Word `j` of a number is its bits `32j+31 .. 32j` (41_radix_codec.md R148). -/
theorem toNat_wordsOf (n : Nat) (j : Fin 6) :
    (wordsOf n)[j].toNat = n / 2 ^ (32 * j.val) % 2 ^ 32 := by
  simp [wordsOf, Nat.shiftRight_eq_div_pow]

/-- VAL after a number below `2^192` has been stored in it is the number (10_state.md R42). -/
theorem State.valInt_setVals_wordsOf (s : State) {n : Nat} (h : n < 2 ^ 192) :
    (s.setVals (wordsOf n)).valInt = n :=
  foldr_wordsOf h

@[simp] theorem State.complete_valInt (s : State) : s.complete.valInt = s.valInt := rfl

/-- Settles O33: the checks answer the value of the string, which fits VAL. -/
theorem str2intWritesTheValue : Obligations.Str2intWritesTheValue := by
  intro s lo top hf row h1 htop valid
  have len := (lenOkStr2int_of_limits row).mpr ⟨h1, htop⟩
  have fits := State.str2int_value_lt len valid
  refine ⟨_, exec_of_checkStr2int_ok hf (State.checkStr2int_ok.mpr
    ⟨validRadix_of_limits row, len, valid, rfl⟩), rfl, ?value, fun j => ?words⟩
  all_goals rw [State.complete_valInt, State.valInt_setVals_wordsOf s fits]
  case value => exact num_digitsOf s _ _
  case words => exact toNat_wordsOf _ j

/-! ### INT2STR on a valid radix and pad length -/

/-- INT2STR stores the string its checks answer and completes (41_radix_codec.md R149). -/
theorem exec_of_checkInt2str_ok {out : List Byte} (hf : s.fsm = .check)
    (h : s.checkInt2str = .ok out) : exec .int2str s =
      .next ((s.storeBytes 0 out).setOutlen (BitVec.ofNat 8 out.length)).complete := by
  simp only [exec, execInt2str, hf, State.int2str, h]

/-- Settles O34: the output has `max(PADLEN, nd)` characters, which fit MSG and OUTLEN. -/
theorem int2strWritesTheDigits : Obligations.Int2strWritesTheDigits := by
  intro s nd hf h2 h36 hpad h1 bound least
  have radix := validRadix_iff.mpr ⟨h2, h36⟩
  have pad : padOk s.padlen.toNat = true := decide_eq_true hpad
  have length : (intToPaddedReversed s.valInt s.radix.toNat s.padlen.toNat).length =
      max s.padlen.toNat nd := by rw [intToPaddedReversed_length, emit_length h2 h1 bound least]
  have fits := State.int2str_length_le radix pad
  rw [← length]
  refine ⟨fits, _, exec_of_checkInt2str_ok hf (State.checkInt2str_ok.mpr ⟨radix, pad, rfl⟩), rfl,
    ?outlen, fun j hj => ?digits, fun j hj => ?rest⟩
  case outlen =>
    exact (BitVec.toNat_ofNat _ _).trans (Nat.mod_eq_of_lt (by omega))
  case digits =>
    have stored := State.msgByte_storeBytes_of_lt (s := s) (base := 0) hj
      (by rw [Nat.zero_add]; exact hj.trans_le fits)
    rw [Nat.zero_add, intToPaddedReversed_getElem h2] at stored
    exact stored
  case rest => exact State.msgByte_storeBytes_other (.inr (by omega))

end Sys2Proof.Machine
end

section
/-! PROOF. ENCRYPT and DECRYPT as the two directions of one command (42_feistel_engine.md R182,
R183): what differs between them, the engine's turn in each state of its own, and what every turn
does to the counts of the requests and of the steps still to take. -/

namespace Sys2Proof.Machine

/-! ### The two directions -/

/-- The direction of a command that runs the rounds. -/
inductive Direction where
  | encrypt
  | decrypt

/-- The command of a direction. -/
def Direction.instr : Direction → Instr
  | .encrypt => .encrypt
  | .decrypt => .decrypt

/-- The round the CHECK step starts with (42_feistel_engine.md R172). -/
def Direction.firstRound : Direction → BitVec 3
  | .encrypt => 0
  | .decrypt => 7

/-- The round whose WAIT step commits (42_feistel_engine.md R180). -/
def Direction.lastRound : Direction → BitVec 3
  | .encrypt => 7
  | .decrypt => 0

/-- The round after round `ri` (42_feistel_engine.md R180). -/
def Direction.nextRound (ri : BitVec 3) : Direction → BitVec 3
  | .encrypt => ri + 1
  | .decrypt => ri - 1

/-- How many rounds stand before round `ri`. -/
def Direction.roundsDone (ri : BitVec 3) : Direction → Nat
  | .encrypt => ri.toNat
  | .decrypt => 7 - ri.toNat

/-- The half that the round block is made of: B for ENCRYPT, A for DECRYPT (42_feistel_engine.md
R174). -/
def State.halfRead (s : State) : Direction → Nat
  | .encrypt => s.hb
  | .decrypt => s.ha

/-- The combine with the number `y` of a response (42_feistel_engine.md R178, R179). -/
def State.combine (s : State) (y : Nat) : Direction → State
  | .encrypt => s.encryptCombine y
  | .decrypt => s.decryptCombine y

/-- The WAIT step on response `z` (42_feistel_engine.md R177 to R180). -/
def State.feistelRound (s : State) (z : Block) : Direction → State
  | .encrypt => s.encryptRound z
  | .decrypt => s.decryptRound z

variable {s t : State} {i : Instr} {d : Direction} {z : Block}

theorem exists_direction (h : i = .encrypt ∨ i = .decrypt) : ∃ d : Direction, i = d.instr := by
  rcases h with rfl | rfl
  exacts [⟨.encrypt, rfl⟩, ⟨.decrypt, rfl⟩]

/-! ### The count of the rounds -/

theorem Direction.roundsDone_le (d : Direction) (ri : BitVec 3) : d.roundsDone ri ≤ 7 := by
  cases d <;> simp only [Direction.roundsDone] <;> omega

@[simp] theorem Direction.roundsDone_firstRound (d : Direction) :
    d.roundsDone d.firstRound = 0 := by
  cases d <;> rfl

theorem Direction.roundsDone_eq_seven {ri : BitVec 3} :
    d.roundsDone ri = 7 ↔ ri = d.lastRound := by
  cases d
  · exact (by decide : ∀ ri : BitVec 3, ri.toNat = 7 ↔ ri = 7) ri
  · exact (by decide : ∀ ri : BitVec 3, 7 - ri.toNat = 7 ↔ ri = 0) ri

theorem Direction.roundsDone_nextRound {ri : BitVec 3} (h : ri ≠ d.lastRound) :
    d.roundsDone (d.nextRound ri) = d.roundsDone ri + 1 := by
  cases d
  · exact (by decide : ∀ ri : BitVec 3, ri ≠ 7 → (ri + 1).toNat = ri.toNat + 1) ri h
  · exact (by decide : ∀ ri : BitVec 3, ri ≠ 0 → 7 - (ri - 1).toNat = 7 - ri.toNat + 1) ri h

/-! ### A round of either direction -/

theorem State.feistelRound_last (h : s.ri = d.lastRound) :
    s.feistelRound z d = ((s.setPort .empty).combine (responseInt z) d).commit := by
  cases d
  · exact State.encryptRound_last h
  · exact State.decryptRound_last h

theorem State.feistelRound_next (h : s.ri ≠ d.lastRound) : s.feistelRound z d =
    ((s.setPort .empty).combine (responseInt z) d).nextRound (d.nextRound s.ri) := by
  cases d
  · exact State.encryptRound_next h
  · exact State.decryptRound_next h

/-! ### The engine's turn -/

/-- The CHECK step that passes every check (42_feistel_engine.md R172). -/
theorem exec_of_feistelReady (hr : s.feistelReady) : exec d.instr s =
    .next (s.startRounds (s.digitsOf s.len.toNat) d.firstRound) := by
  obtain ⟨hf, radix, len, chars⟩ := hr
  have passed := State.checkFeistel_ok.mpr ⟨radix, len, chars, rfl⟩
  cases d <;>
    simp only [Direction.instr, Direction.firstRound, exec, execEncrypt, execDecrypt, hf,
      State.feistelCheck, passed]

/-- The ISSUE step (42_feistel_engine.md R175). -/
theorem exec_of_issue (hf : s.fsm = .issue) :
    exec d.instr s = .next (s.issueRound (s.halfRead d)) := by
  cases d <;> simp only [Direction.instr, exec, execEncrypt, execDecrypt, hf, State.halfRead]

/-- The WAIT step (42_feistel_engine.md R177 to R180). -/
theorem exec_of_response (hf : s.fsm = .wait) (hp : s.port = .rsp z) :
    exec d.instr s = .next (s.feistelRound z d) := by
  cases d <;> simp only [Direction.instr, exec, execEncrypt, execDecrypt, hf, hp,
    State.feistelRound]

/-- In IDLE, and in WAIT without a response, there is no step (40_control.md R132). -/
theorem exec_of_no_response (h : s.fsm = .idle ∨ s.fsm = .wait ∧ ∀ z, s.port ≠ .rsp z) :
    exec d.instr s = .next s := by
  obtain hf | ⟨hf, hp⟩ := h
  · exact exec_of_no_step _ (.inl hf)
  · cases port : s.port with
    | req x => exact exec_of_no_step _ (.inr ⟨hf, x, port⟩)
    | rsp z => exact absurd port (hp z)
    | empty => cases d <;> simp only [Direction.instr, exec, execEncrypt, execDecrypt, hf, port]

/-- The engine's turn runs the command whose word is in `eng.cmd`. -/
theorem engineTurn_of_cmd (hc : s.cmd = encode i) : engineTurn s = exec i s :=
  engineTurn_of_decode (decode_eq_ok.mpr hc)

/-! ### Requests and steps still to come -/

theorem State.requestsLeft_check (hf : s.fsm = .check) : s.requestsLeft i = 8 := by
  simp only [State.requestsLeft, hf]

theorem State.requestsLeft_idle (hf : s.fsm = .idle) : s.requestsLeft i = 0 := by
  simp only [State.requestsLeft, hf]

theorem State.requestsLeft_wait (hf : s.fsm = .wait) :
    s.requestsLeft d.instr + d.roundsDone s.ri = 7 := by
  cases d <;> simp only [State.requestsLeft, Direction.instr, Direction.roundsDone, hf,
    reduceCtorEq, if_true, if_false] <;> omega

theorem State.requestsLeft_issue (hf : s.fsm = .issue) :
    s.requestsLeft d.instr + d.roundsDone s.ri = 8 := by
  cases d <;> simp only [State.requestsLeft, Direction.instr, Direction.roundsDone, hf,
    reduceCtorEq, if_true, if_false] <;> omega

/-- A CHECK step that passes leaves the eight requests (42_feistel_engine.md R189). -/
theorem State.requestsLeft_startRounds (s : State) (d : Direction) (ds : List Nat) :
    (s.startRounds ds d.firstRound).requestsLeft d.instr = 8 := by
  simpa using State.requestsLeft_issue (d := d) (s.startRounds_fsm ds d.firstRound)

/-- An ISSUE step issues one request (42_feistel_engine.md R189). -/
theorem State.requestsLeft_issueRound (hf : s.fsm = .issue) (x : Nat) :
    (s.issueRound x).requestsLeft d.instr + 1 = s.requestsLeft d.instr := by
  have before := State.requestsLeft_issue (d := d) hf
  have after := State.requestsLeft_wait (d := d) (s.issueRound_fsm x)
  rw [State.issueRound_ri] at after
  omega

/-- A WAIT step issues none. -/
theorem State.requestsLeft_feistelRound (hf : s.fsm = .wait) :
    (s.feistelRound z d).requestsLeft d.instr = s.requestsLeft d.instr := by
  have before := State.requestsLeft_wait (d := d) hf
  by_cases last : s.ri = d.lastRound
  · rw [State.feistelRound_last last, State.requestsLeft_idle (State.commit_fsm _)]
    rw [Direction.roundsDone_eq_seven.mpr last] at before
    omega
  · have after := State.requestsLeft_issue (d := d) (State.nextRound_fsm
      ((s.setPort .empty).combine (responseInt z) d) (d.nextRound s.ri))
    rw [State.nextRound_ri, Direction.roundsDone_nextRound last] at after
    rw [State.feistelRound_next last]
    omega

@[simp] theorem State.feistelRound_port : (s.feistelRound z d).port = .empty := by
  by_cases last : s.ri = d.lastRound
  · rw [State.feistelRound_last last]
    cases d <;> simp [State.combine]
  · rw [State.feistelRound_next last]
    cases d <;> simp [State.combine]

@[simp] theorem State.feistelRound_cmd : (s.feistelRound z d).cmd = s.cmd := by
  by_cases last : s.ri = d.lastRound
  · rw [State.feistelRound_last last]
    cases d <;> simp [State.combine]
  · rw [State.feistelRound_next last]
    cases d <;> simp [State.combine]

/-- A WAIT step ends in IDLE or in the next ISSUE. -/
theorem State.feistelRound_fsm :
    (s.feistelRound z d).fsm = .idle ∨ (s.feistelRound z d).fsm = .issue := by
  by_cases last : s.ri = d.lastRound
  · rw [State.feistelRound_last last]
    exact .inl rfl
  · rw [State.feistelRound_next last]
    exact .inr rfl

/-- Settles O49: the engine's turn by its state; only the ISSUE step counts down. -/
theorem eightRequestsOnePerRound : Obligations.EightRequestsOnePerRound := by
  intro s t i hi hc ready turn
  obtain ⟨d, rfl⟩ := exists_direction hi
  rw [engineTurn_of_cmd hc] at turn
  refine ⟨State.requestsLeft_check, ?_⟩
  cases hf : s.fsm with
  | idle =>
    rw [exec_of_no_response (.inl hf)] at turn
    cases turn
    exact ⟨nofun, fun _ => ⟨rfl, .inl rfl⟩⟩
  | check =>
    rw [exec_of_feistelReady (ready hf)] at turn
    cases turn
    exact ⟨nofun, fun _ => ⟨(s.requestsLeft_startRounds d _).trans
      (State.requestsLeft_check hf).symm, .inl rfl⟩⟩
  | issue =>
    rw [exec_of_issue hf] at turn
    cases turn
    exact ⟨fun _ => ⟨State.requestsLeft_issueRound hf _, _, rfl⟩, fun h => absurd rfl h⟩
  | wait =>
    by_cases hp : ∃ z, s.port = .rsp z
    · obtain ⟨z, hp⟩ := hp
      rw [exec_of_response hf hp] at turn
      cases turn
      exact ⟨nofun, fun _ => ⟨State.requestsLeft_feistelRound hf, .inr State.feistelRound_port⟩⟩
    · rw [exec_of_no_response (.inr ⟨hf, not_exists.mp hp⟩)] at turn
      cases turn
      exact ⟨nofun, fun _ => ⟨rfl, .inl rfl⟩⟩

theorem State.stepsLeft_check (hf : s.fsm = .check) : s.stepsLeft i = 25 := by
  simp only [State.stepsLeft, State.requestsLeft, hf]

theorem State.stepsLeft_idle (hf : s.fsm = .idle) : s.stepsLeft i = 0 := by
  simp only [State.stepsLeft, hf]

theorem State.stepsLeft_issue (hf : s.fsm = .issue) :
    s.stepsLeft i = 3 * s.requestsLeft i := by
  simp only [State.stepsLeft, hf]

theorem State.stepsLeft_response (hf : s.fsm = .wait) (hp : s.port = .rsp z) :
    s.stepsLeft i = 3 * s.requestsLeft i + 1 := by
  simp only [State.stepsLeft, hf, hp]

theorem State.stepsLeft_request {x : Block} (hf : s.fsm = .wait) (hp : s.port = .req x) :
    s.stepsLeft i = 3 * s.requestsLeft i + 2 := by
  simp only [State.stepsLeft, hf, hp]

/-- Only an idle engine has no step to come. -/
theorem State.stepsLeft_eq_zero_iff : s.stepsLeft d.instr = 0 ↔ s.fsm = .idle := by
  refine ⟨fun none => ?_, State.stepsLeft_idle⟩
  cases hf : s.fsm with
  | idle => rfl
  | check => simp [State.stepsLeft_check hf] at none
  | issue =>
    have left := State.requestsLeft_issue (d := d) hf
    have done := d.roundsDone_le s.ri
    rw [State.stepsLeft_issue hf] at none
    omega
  | wait => cases hp : s.port <;> simp [State.stepsLeft, hf, hp] at none

/-- An enabled engine step counts one down (70_reset_and_hazards.md R252). -/
theorem engineTurn_stepsLeft (hc : s.cmd = encode d.instr)
    (enabled : s.feistelReady ∨ s.fsm = .issue ∨ s.fsm = .wait ∧ ∃ z, s.port = .rsp z) :
    ∃ t, engineTurn s = .next t ∧ t.cmd = s.cmd ∧
      t.stepsLeft d.instr + 1 = s.stepsLeft d.instr := by
  rw [engineTurn_of_cmd hc]
  obtain ready | hf | ⟨hf, z, hp⟩ := enabled
  · refine ⟨_, exec_of_feistelReady ready, rfl, ?_⟩
    rw [State.stepsLeft_check ready.1, State.stepsLeft_issue (State.startRounds_fsm _ _ _),
      State.requestsLeft_startRounds]
  · refine ⟨_, exec_of_issue hf, rfl, ?_⟩
    have count := State.requestsLeft_issueRound (d := d) hf (s.halfRead d)
    rw [State.stepsLeft_issue hf, State.stepsLeft_request (State.issueRound_fsm _ _) rfl]
    omega
  · refine ⟨_, exec_of_response hf hp, State.feistelRound_cmd, ?_⟩
    have count := State.requestsLeft_feistelRound (d := d) (z := z) hf
    rw [State.stepsLeft_response hf hp]
    obtain idle | issue := State.feistelRound_fsm (s := s) (z := z) (d := d)
    · rw [State.requestsLeft_idle idle] at count
      rw [State.stepsLeft_idle idle, ← count]
    · rw [State.stepsLeft_issue issue, count]

/-- Settles O48: the engine's steps and the BC's answer count down one each. -/
theorem enabledStepsCountDownToCompletion : Obligations.EnabledStepsCountDownToCompletion := by
  intro s i hi hc
  obtain ⟨d, rfl⟩ := exists_direction hi
  refine ⟨engineTurn_stepsLeft hc, ?_, State.stepsLeft_check, State.stepsLeft_eq_zero_iff⟩
  rintro hf ⟨x, hp⟩
  have answer : bcTurn s = s.setPort (.rsp (s.bc x)) := by rw [bcTurn, hp]
  have wait : (s.setPort (.rsp (s.bc x))).fsm = .wait := hf
  rw [answer, State.stepsLeft_request hf hp, State.stepsLeft_response wait rfl]
  exact ⟨rfl, hf, rfl⟩

end Sys2Proof.Machine
end

section
/-! PROOF. Each step of ENCRYPT and DECRYPT by itself (42_feistel_engine.md R172 to R181): the start
of the rounds, the request, the BC's answer, the combine in the middle rounds, and the commit. -/

namespace Sys2Proof.Machine

variable {s : State} {z : Block} {i : Instr}

/-! ### The start of the rounds -/

/-- The value of a half, character by character, for the digit values of the message from index `b`
on (42_feistel_engine.md R172). -/
theorem numRev_digitOf (s : State) (r b m : Nat) :
    numRev r ((List.range m).map fun j => s.digitOf (b + j)) =
      ∑ j ∈ Finset.range m, s.digitOf (b + j) * r ^ j := by
  rw [numRev_eq_sum, List.length_map, List.length_range]
  refine Finset.sum_congr rfl fun j hj => ?_
  rw [List.getD_eq_getElem _ _ (by simpa using hj)]
  simp

theorem State.take_digitsOf {n u : Nat} (hu : u ≤ n) :
    (s.digitsOf n).take u = (List.range u).map fun j => s.digitOf (0 + j) := by
  rw [State.digitsOf, ← List.map_take, List.take_range, min_eq_left hu]
  simp

theorem State.drop_digitsOf (s : State) (n u : Nat) :
    (s.digitsOf n).drop u = (List.range (n - u)).map fun j => s.digitOf (u + j) := by
  refine List.ext_getElem (by simp) fun j _ _ => ?_
  simp [State.digitsOf]

/-- Settles O37: the checks pass, and the digit values of each half sum up to its value. -/
theorem feistelCheckStartsTheRounds : Obligations.FeistelCheckStartsTheRounds := by
  intro s i lo top hi hf row hlo htop valid
  obtain ⟨d, rfl⟩ := exists_direction hi
  have first : d.firstRound = if d.instr = .encrypt then 0 else 7 := by cases d <;> rfl
  have ha := numRev_digitOf s s.radix.toNat 0 ((s.len.toNat + 1) / 2)
  have hb := numRev_digitOf s s.radix.toNat ((s.len.toNat + 1) / 2)
    (s.len.toNat - (s.len.toNat + 1) / 2)
  have short : (s.len.toNat + 1) / 2 ≤ s.len.toNat := by
    have := limitsOf_bounds row
    omega
  rw [← State.take_digitsOf short] at ha
  rw [← State.drop_digitsOf] at hb
  simp only [Nat.zero_add] at ha
  rw [exec_of_feistelReady ⟨hf, validRadix_of_limits row,
    (lenOkFeistel_of_limits row).mpr ⟨hlo, htop⟩, valid⟩, ← first, ← ha, ← hb]
  rfl

/-! ### The request -/

/-- Byte `15 - j` of a reversed block is its byte `j` (42_feistel_engine.md R175). -/
theorem extractLsb'_bswap128 (q : Block) {j : Nat} (hj : j < 16) :
    (bswap128 q).extractLsb' (120 - 8 * (15 - j)) 8 = q.extractLsb' (120 - 8 * j) 8 := by
  have reversed : (blockBytes (bswap128 q))[15 - j]'(by simp; omega) =
      (blockBytes q)[j]'(by simpa using hj) := by
    simp only [blockBytes_bswap128, List.getElem_reverse, blockBytes_length]
    congr 1
    omega
  rwa [blockBytes_getElem, blockBytes_getElem] at reversed

/-- The bytes of the round block (42_feistel_engine.md R174). -/
theorem State.roundBlock_byte (s : State) {x j : Nat} (hx : x < 2 ^ 96) (hj : j < 16) :
    (s.roundBlock x).extractLsb' (120 - 8 * j) 8 =
      (Source.block s.roundTweak s.ri.toNat x)[j]'(by simpa [source_block_eq s hx] using hj) := by
  simp only [source_block_eq s hx, blockBytes_getElem]

/-- The last twelve bytes of a round block are the half, most significant byte first. -/
theorem source_block_half (w : Word) (n x k : Nat) (h : 4 + k < (Source.block w n x).length) :
    (Source.block w n x)[4 + k] = BitVec.ofNat 8 (x / 256 ^ (11 - k)) := by
  have byte := List.getElem_append_right' (l₁ := [Source.tweakByte w 0, Source.tweakByte w 1,
    Source.tweakByte w 2, Source.tweakByte w 3 ^^^ BitVec.ofNat 8 n])
    (l₂ := Source.bigEndian 12 x) (i := k) (by simp [Source.block] at h; omega)
  simp [Source.block, Source.bigEndian, Nat.add_comm]

/-- Settles O38: the request is the reversed round block, whose bytes are the source's. -/
theorem issueSendsTheReversedRoundBlock : Obligations.IssueSendsTheReversedRoundBlock := by
  intro s i x w hf half hx hw
  have issue : exec i s = .next (s.issueRound x) := by
    obtain ⟨rfl, rfl⟩ | ⟨rfl, rfl⟩ := half
    exacts [exec_of_issue (d := .encrypt) hf, exec_of_issue (d := .decrypt) hf]
  rw [← State.roundTweak_eq] at hw
  subst hw
  refine ⟨_, issue, fun j hj => ?tweak, ?index, fun j h4 hj => ?half⟩
  case tweak =>
    rw [extractLsb'_bswap128 _ (by omega), s.roundBlock_byte hx (by omega)]
    obtain rfl | rfl | rfl : j = 0 ∨ j = 1 ∨ j = 2 := by omega
    all_goals rfl
  case index =>
    rw [extractLsb'_bswap128 _ (by decide), s.roundBlock_byte hx (by decide),
      ← BitVec.ofNat_toNat]
    rfl
  case half =>
    obtain ⟨k, rfl⟩ := Nat.exists_eq_add_of_le h4
    rw [extractLsb'_bswap128 _ hj, s.roundBlock_byte hx hj, source_block_half, BitVec.toNat_ofNat,
      show 15 - (4 + k) = 11 - k by omega]

/-! ### The BC's answer -/

/-- Settles O7: the BC's turn sets the port, and `bc` looks first at the answers given as data. -/
theorem bcTurnAnswersTheRequest : Obligations.BcTurnAnswersTheRequest := by
  refine ⟨fun s ts x hturn hp => ?_, fun s x none => ?_⟩
  · rw [step_of_turns hturn, takeTurn, bcTurn, State.setTurns_port, hp]
    rfl
  · rw [State.bc, none]
    rfl

/-! ### The combine -/

/-- The non-negative remainder of a whole difference (90_conflicts.md C7): below the modulus, and
congruent to the difference. -/
theorem sub_emod_toNat {m : Nat} (hm : 0 < m) (h y : Nat) :
    (((h : Int) - y) % m).toNat < m ∧ ((((h : Int) - y) % m).toNat + y) % m = h % m := by
  have positive : (0 : Int) < m := Int.natCast_pos.mpr hm
  have nonneg := Int.emod_nonneg ((h : Int) - y) positive.ne'
  refine ⟨(Int.toNat_lt' hm).mpr (Int.emod_lt_of_pos _ positive), ?_⟩
  zify
  rw [Int.toNat_of_nonneg nonneg, Int.emod_add_emod, sub_add_cancel]

theorem State.roundModulus_pos (hr : 1 ≤ s.radix.toNat) : 0 < s.roundModulus := Nat.pow_pos hr

/-- Settles O39: not the last round, so the combine is followed by the next index. -/
theorem encryptRoundCombinesAndAdvances : Obligations.EncryptRoundCombinesAndAdvances := by
  intro s z m y hf hp next hm hy
  rw [← State.roundLen_eq] at hm
  rw [← responseInt_eq_sum] at hy
  subst hm hy
  have turn : exec .encrypt s = .next (s.encryptRound z) := exec_of_response (d := .encrypt) hf hp
  rw [turn, State.encryptRound_next next]
  rfl

/-- Settles O40: the same with the remainder of the difference. -/
theorem decryptRoundCombinesAndAdvances : Obligations.DecryptRoundCombinesAndAdvances := by
  intro s z m y hf hp next hr hm hy
  rw [← State.roundLen_eq] at hm
  rw [← responseInt_eq_sum] at hy
  subst hm hy
  have turn : exec .decrypt s = .next (s.decryptRound z) := exec_of_response (d := .decrypt) hf hp
  obtain ⟨below, congruent⟩ := sub_emod_toNat (State.roundModulus_pos hr) s.hb (responseInt z)
  refine ⟨_, below, congruent, ?_⟩
  rw [turn, State.decryptRound_next next]
  rfl

/-! ### The commit -/

/-- The bytes of MSG after the commit, part by part (42_feistel_engine.md R181). -/
theorem State.commit_parts (s : State) (fits : s.u + s.v ≤ 192) :
    (∀ j < s.u, s.commit.msgByte j = chr (digitAt s.radix.toNat s.ha j)) ∧
    (∀ j < s.v, s.commit.msgByte (s.u + j) = chr (digitAt s.radix.toNat s.hb j)) ∧
    ∀ k, s.u + s.v ≤ k → s.commit.msgByte k = s.msgByte k := by
  refine ⟨fun j hj => ?first, fun j hj => ?second, fun k hk => ?rest⟩
  all_goals rw [State.msgByte_commit s fits]
  case first => rw [if_pos hj]
  case second => rw [if_neg (by omega), if_pos (by omega), Nat.add_sub_cancel_left]
  case rest => rw [if_neg (by omega), if_neg (by omega)]

/-- Settles O41: the last round is an odd one, and its combine is followed by the commit. -/
theorem encryptLastRoundCommits : Obligations.EncryptLastRoundCommits := by
  intro s z y c hf hp last fits hy hc
  have odd : s.roundLen = s.v := by rw [State.roundLen_eq, last]; rfl
  rw [← responseInt_eq_sum] at hy
  have combined : (s.setPort .empty).encryptCombine (responseInt z) =
      { s with port := .empty, ha := s.hb, la := s.lb, hb := c, lb := s.v } := by
    rw [State.encryptCombine, State.setPort_roundModulus, State.setPort_roundLen,
      State.roundModulus, odd, hc, hy]
    rfl
  have turn : exec .encrypt s = .next (s.encryptRound z) := exec_of_response (d := .encrypt) hf hp
  have parts := State.commit_parts ((s.setPort .empty).encryptCombine (responseInt z)) fits
  rw [combined] at parts
  rw [turn, State.encryptRound_last last, combined]
  exact ⟨_, rfl, rfl, parts⟩

/-- Settles O42: the last round is an even one, and its combine is followed by the commit. -/
theorem decryptLastRoundCommits : Obligations.DecryptLastRoundCommits := by
  intro s z y hf hp last fits hr hy
  have even : s.roundLen = s.u := by rw [State.roundLen_eq, last]; rfl
  have modulus : s.roundModulus = s.radix.toNat ^ s.u := by rw [State.roundModulus, even]
  rw [← responseInt_eq_sum] at hy
  obtain ⟨below, congruent⟩ := sub_emod_toNat (State.roundModulus_pos hr) s.hb y
  have combined : (s.setPort .empty).decryptCombine (responseInt z) = { s with
      port := .empty, ha := (((s.hb : Int) - y) % (s.roundModulus : Nat)).toNat, la := s.u,
      hb := s.ha, lb := s.la } := by
    rw [State.decryptCombine, State.setPort_roundModulus, State.setPort_roundLen, even, hy]
    rfl
  have turn : exec .decrypt s = .next (s.decryptRound z) := exec_of_response (d := .decrypt) hf hp
  have parts := State.commit_parts ((s.setPort .empty).decryptCombine (responseInt z)) fits
  rw [combined] at parts
  rw [turn, State.decryptRound_last last, combined, ← modulus]
  exact ⟨_, _, rfl, below, congruent, rfl, parts⟩

end Sys2Proof.Machine
end

section
/-! PROOF. The source's procedure on strings (42_feistel_engine.md R170) in both directions: the
value and the characters of a half, and the strings round by round. -/

namespace Sys2Proof.Machine

variable {r : Nat} {x : List Byte}

/-! ### The value of a string -/

/-- `int(reverse(X), radix)` of a valid string is the value of its digits, the first one the least
significant (00_scope.md R14). -/
theorem intOfReverse_of_digits? {ds : List Nat} (h : digits? r x = some ds) :
    Source.intOfReverse r x = numRev r ds := by
  have kept : x.filterMap digit = ds := by
    have values := congrArg (List.filterMap id) (digits?_eq_some.mp h).1
    simpa [List.filterMap_map] using values
  rw [Source.intOfReverse, List.filterMap_reverse, kept, num_reverse]

theorem intOfReverse_of_valid (valid : ∀ b ∈ x, validChar b r = true) :
    Source.intOfReverse r x = numRev r (x.map fun b => (digit b).getD 0) :=
  intOfReverse_of_digits? (digits?_of_valid valid)

theorem intOfReverse_lt (valid : ∀ b ∈ x, validChar b r = true) :
    Source.intOfReverse r x < r ^ x.length := by
  have parse := digits?_of_valid valid
  rw [intOfReverse_of_digits? parse, ← digits?_length parse]
  exact numRev_lt (digits?_eq_some.mp parse).2

/-- The characters of a valid string's value are the string in lowercase (41_radix_codec.md
R146). -/
theorem revString_intOfReverse (valid : ∀ b ∈ x, validChar b r = true) :
    revString r x.length (Source.intOfReverse r x) = x.map lowerChar := by
  have parse := digits?_of_valid valid
  rw [intOfReverse_of_digits? parse, ← digits?_length parse,
    revString_numRev (digits?_eq_some.mp parse).2, map_chr_of_digits? parse]

/-! ### Canonical strings -/

/-- Every character is the one `chr` writes for a digit of the radix (41_radix_codec.md R141). -/
def Canonical (r : Nat) (x : List Byte) : Prop := ∀ b ∈ x, ∃ e, e < r ∧ b = chr e

theorem Canonical.valid (h36 : r ≤ 36) (h : Canonical r x) : ∀ b ∈ x, validChar b r = true := by
  intro b hb
  obtain ⟨e, he, rfl⟩ := h b hb
  exact validChar_iff.mpr ⟨e, digit_chr (he.trans_le h36), he⟩

/-- A canonical string is in lowercase already. -/
theorem Canonical.map_lowerChar (h36 : r ≤ 36) (h : Canonical r x) : x.map lowerChar = x := by
  have fixed : ∀ b ∈ x, lowerChar b = b := by
    intro b hb
    obtain ⟨e, he, rfl⟩ := h b hb
    exact (chr_of_digit (digit_chr (he.trans_le h36))).symm
  rw [List.map_congr_left fixed, List.map_id']

/-- The codec writes canonical strings (41_radix_codec.md R144). -/
theorem canonical_intToPaddedReversed (h2 : 2 ≤ r) (n l : Nat) :
    Canonical r (intToPaddedReversed n r l) := by
  intro b hb
  obtain ⟨j, hj, rfl⟩ := List.mem_iff_getElem.mp hb
  exact ⟨_, Nat.mod_lt _ (by omega), intToPaddedReversed_getElem h2 n l j hj⟩

/-- A half written in its length has that length and its own value (41_radix_codec.md R147). -/
theorem intToPaddedReversed_half (h2 : 2 ≤ r) (h36 : r ≤ 36) {c m : Nat} (hm : 1 ≤ m)
    (hc : c < r ^ m) : Source.intOfReverse r (intToPaddedReversed c r m) = c ∧
      (intToPaddedReversed c r m).length = m := by
  rw [intToPaddedReversed_eq_revString h2 hm hc]
  exact ⟨intOfReverse_revString h2 h36 hc, revString_length r m c⟩

/-! ### The strings of a direction -/

/-- The string that the round block is made of (42_feistel_engine.md R170). -/
def Direction.stringRead (ab : List Byte × List Byte) : Direction → List Byte
  | .encrypt => ab.2
  | .decrypt => ab.1

/-- One round on strings (42_feistel_engine.md R170). -/
def Direction.sourceRound (bc : Block → Block) (r u v : Nat) (tl tr : Word)
    (ab : List Byte × List Byte) (i : Nat) : Direction → List Byte × List Byte
  | .encrypt => Source.encryptRound bc r u v tl tr ab i
  | .decrypt => Source.decryptRound bc r u v tl tr ab i

/-- `A` and `B` after the first `k` rounds (42_feistel_engine.md R170). -/
def Direction.sourceStrings (bc : Block → Block) (r : Nat) (tl tr : Word) (x : List Byte)
    (k : Nat) : Direction → List Byte × List Byte
  | .encrypt => Source.encryptStrings bc r tl tr x k
  | .decrypt => Source.decryptStrings bc r tl tr x k

/-- The source's result (42_feistel_engine.md R170). -/
def Direction.source (bc : Block → Block) (r : Nat) (tl tr : Word) (x : List Byte) :
    Direction → List Byte
  | .encrypt => Source.encrypt bc r tl tr x
  | .decrypt => Source.decrypt bc r tl tr x

variable {d : Direction} {bc : Block → Block} {tl tr : Word}

theorem Direction.source_eq : d.source bc r tl tr x =
    (d.sourceStrings bc r tl tr x 8).1 ++ (d.sourceStrings bc r tl tr x 8).2 := by
  cases d <;> rfl

theorem Direction.sourceStrings_zero :
    d.sourceStrings bc r tl tr x 0 = Source.halves x := by
  cases d <;> rfl

/-- The strings after the round `ri`, from those before it. -/
theorem Direction.sourceStrings_succ (ri : BitVec 3) :
    d.sourceStrings bc r tl tr x (d.roundsDone ri + 1) =
      d.sourceRound bc r ((x.length + 1) / 2) (x.length - (x.length + 1) / 2) tl tr
        (d.sourceStrings bc r tl tr x (d.roundsDone ri)) ri.toNat := by
  cases d
  · exact source_encryptStrings_succ bc r tl tr x ri.toNat
  · have mirror : 7 - (7 - ri.toNat) = ri.toNat := by omega
    have round := source_decryptStrings_succ bc r tl tr x (7 - ri.toNat)
    rwa [mirror] at round

/-- Two rounds write both halves. -/
theorem Direction.canonical_sourceStrings (h2 : 2 ≤ r) (k : Nat) :
    Canonical r (d.sourceStrings bc r tl tr x (k + 2)).1 ∧
      Canonical r (d.sourceStrings bc r tl tr x (k + 2)).2 := by
  cases d
  · simp only [Direction.sourceStrings, source_encryptStrings_succ]
    exact ⟨canonical_intToPaddedReversed h2 _ _, canonical_intToPaddedReversed h2 _ _⟩
  · simp only [Direction.sourceStrings, source_decryptStrings_succ]
    exact ⟨canonical_intToPaddedReversed h2 _ _, canonical_intToPaddedReversed h2 _ _⟩

/-- The source's result is canonical. -/
theorem Direction.canonical_source (h2 : 2 ≤ r) : Canonical r (d.source bc r tl tr x) := by
  obtain ⟨first, second⟩ := d.canonical_sourceStrings (bc := bc) (tl := tl) (tr := tr) (x := x) h2 6
  rw [Direction.source_eq]
  intro b hb
  exact (List.mem_append.mp hb).elim (first b) (second b)

end Sys2Proof.Machine
end

section
/-! PROOF. The engine agrees with the source's strings (42_feistel_engine.md R184): the halves at
the start and after each combine, the bytes of the commit, and every step of every agent. -/

namespace Sys2Proof.Machine

variable {s t : State} {d : Direction} {ab : List Byte × List Byte} {z : Block}

/-! ### The halves -/

/-- The halves of the engine are the integer form of the strings `ab` (42_feistel_engine.md R184):
`State.Agrees` without the port. -/
structure State.HalvesAgree (s : State) (ab : List Byte × List Byte) : Prop where
  ha : Source.intOfReverse s.radix.toNat ab.1 = s.ha
  la : ab.1.length = s.la
  hb : Source.intOfReverse s.radix.toNat ab.2 = s.hb
  lb : ab.2.length = s.lb

theorem State.Agrees.halves {y : List Byte} (a : s.Agrees ab y) : s.HalvesAgree ab :=
  ⟨a.ha, a.la, a.hb, a.lb⟩

/-- With the port EMPTY the halves are all there is to agree. -/
theorem State.HalvesAgree.agrees (h : s.HalvesAgree ab) (hp : s.port = .empty) (y : List Byte) :
    s.Agrees ab y :=
  { h with
    request := fun _ e => by simp [hp] at e
    response := fun _ e => by simp [hp] at e }

theorem State.HalvesAgree.halfRead (h : s.HalvesAgree ab) (d : Direction) :
    Source.intOfReverse s.radix.toNat (d.stringRead ab) = s.halfRead d := by
  cases d
  exacts [h.hb, h.ha]

/-- The source's `A` and `B` before round `ROUND` of the message in MSG. -/
def State.strings (s : State) (d : Direction) : List Byte × List Byte :=
  d.sourceStrings s.bc s.radix.toNat s.tl s.tr s.message (d.roundsDone s.ri)

/-- The source's result for the message in MSG. -/
def State.sourceResult (s : State) (d : Direction) : List Byte :=
  d.source s.bc s.radix.toNat s.tl s.tr s.message

/-- The reversed round block of the source before round `ROUND` (42_feistel_engine.md R170). -/
def State.sourceRequest (s : State) (d : Direction) : Block :=
  blockOfBytes (Source.roundBlock s.radix.toNat s.tl s.tr s.ri.toNat
    (d.stringRead (s.strings d))).reverse

theorem State.message_digits (s : State) :
    s.message.map (fun b => (digit b).getD 0) = s.digitsOf s.len.toNat := by
  simp [State.message, State.msgString, State.digitsOf, State.digitOf, Function.comp_def]

/-- The start of the rounds agrees with the halves of the message (42_feistel_engine.md R172). -/
theorem State.feistelReady.halvesAgree (hr : s.feistelReady) (i : BitVec 3) :
    (s.startRounds (s.digitsOf s.len.toNat) i).HalvesAgree (Source.halves s.message) := by
  obtain ⟨-, -, len, chars⟩ := hr
  have long := (lenOkFeistel_le len).1
  have valid := State.charsOk_iff.mp chars
  rw [Source.halves, State.message_length]
  refine ⟨?_, ?_, ?_, ?_⟩
  · rw [State.startRounds_radix, State.startRounds_ha, ← State.message_digits, ← List.map_take]
    exact intOfReverse_of_valid fun b hb => valid b (List.mem_of_mem_take hb)
  · rw [List.length_take, State.message_length, State.startRounds_la]
    omega
  · rw [State.startRounds_radix, State.startRounds_hb, ← State.message_digits, ← List.map_drop]
    exact intOfReverse_of_valid fun b hb => valid b (List.mem_of_mem_drop hb)
  · rw [List.length_drop, State.message_length, State.startRounds_lb]

theorem State.feistelReady.halvesAgree_strings (hr : s.feistelReady) (d : Direction) :
    (s.startRounds (s.digitsOf s.len.toNat) d.firstRound).HalvesAgree
      ((s.startRounds (s.digitsOf s.len.toNat) d.firstRound).strings d) := by
  rw [State.strings, State.startRounds_ri, Direction.roundsDone_firstRound,
    Direction.sourceStrings_zero]
  exact hr.halvesAgree d.firstRound

/-- Every round writes a half of at least one character. -/
theorem State.Running.roundLen_pos (run : s.Running) : 1 ≤ s.roundLen := by
  have long := (lenOkFeistel_le run.len).1
  have hu := run.u
  have hv := run.v
  rw [State.roundLen_eq]
  split <;> omega

/-- A number below the modulus of the round, written as the half of the round. -/
theorem State.Running.new_half (run : s.Running) {c : Nat} (hc : c < s.roundModulus) :
    Source.intOfReverse s.radix.toNat (intToPaddedReversed c s.radix.toNat s.roundLen) = c ∧
      (intToPaddedReversed c s.radix.toNat s.roundLen).length = s.roundLen := by
  obtain ⟨h2, h36⟩ := validRadix_iff.mp run.radix
  exact intToPaddedReversed_half h2 h36 run.roundLen_pos hc

/-- The combine is the integer form of the source's round (42_feistel_engine.md R178, R179). -/
theorem State.HalvesAgree.combine (h : s.HalvesAgree ab) (run : s.Running) (d : Direction) :
    ((s.setPort .empty).combine (Source.cipherInt s.bc (Source.roundBlock s.radix.toNat s.tl s.tr
      s.ri.toNat (d.stringRead ab))) d).HalvesAgree
        (d.sourceRound s.bc s.radix.toNat s.u s.v s.tl s.tr ab s.ri.toNat) := by
  have modulus := run.radix_pow_pos s.roundLen
  cases d
  · obtain ⟨value, length⟩ := run.new_half (Nat.mod_lt (s.ha + Source.cipherInt s.bc
      (Source.roundBlock s.radix.toNat s.tl s.tr s.ri.toNat ab.2)) modulus)
    simp only [Direction.sourceRound, Source.encryptRound, ← State.roundLen_eq, h.ha]
    exact ⟨h.hb, h.lb, value, length⟩
  · obtain ⟨below, -⟩ := sub_emod_toNat modulus s.hb (Source.cipherInt s.bc
      (Source.roundBlock s.radix.toNat s.tl s.tr s.ri.toNat ab.1))
    obtain ⟨value, length⟩ := run.new_half below
    simp only [Direction.sourceRound, Source.decryptRound, ← State.roundLen_eq, h.hb]
    exact ⟨value, length, h.ha, h.la⟩

/-- After the combine the engine agrees with the strings one round on. -/
theorem State.HalvesAgree.combine_strings (h : s.HalvesAgree (s.strings d)) (run : s.Running)
    (hz : z = s.bc (s.sourceRequest d)) :
    ((s.setPort .empty).combine (responseInt z) d).HalvesAgree (d.sourceStrings s.bc
      s.radix.toNat s.tl s.tr s.message (d.roundsDone s.ri + 1)) := by
  have combined := h.combine run d
  rw [source_cipherInt_eq] at combined
  rw [Direction.sourceStrings_succ, State.message_length, ← run.u, ← run.v, hz]
  exact combined

/-! ### The next round -/

theorem SameMessage.strings (same : SameMessage s t) : t.strings d =
    d.sourceStrings s.bc s.radix.toNat s.tl s.tr s.message (d.roundsDone t.ri) := by
  rw [State.strings, same.bc, same.radix, same.tl, same.tr, same.message]

/-- A round that is not the last one keeps the message. -/
theorem State.feistelRound_sameMessage (next : s.ri ≠ d.lastRound) :
    SameMessage s (s.feistelRound z d) := by
  rw [State.feistelRound_next next]
  cases d <;> constructor <;> simp [State.combine]

theorem State.HalvesAgree.feistelRound (h : s.HalvesAgree (s.strings d)) (run : s.Running)
    (hz : z = s.bc (s.sourceRequest d)) (next : s.ri ≠ d.lastRound) :
    (s.feistelRound z d).HalvesAgree ((s.feistelRound z d).strings d) := by
  have ri : (s.feistelRound z d).ri = d.nextRound s.ri := by rw [State.feistelRound_next next]; rfl
  obtain ⟨ha, la, hb, lb⟩ := h.combine_strings run hz
  rw [(State.feistelRound_sameMessage next).strings, ri, Direction.roundsDone_nextRound next,
    State.feistelRound_next next]
  exact ⟨ha, la, hb, lb⟩

/-! ### The commit -/

/-- The commit writes both halves as characters (42_feistel_engine.md R181). -/
theorem State.msgString_commit (s : State) (fits : s.u + s.v ≤ 192) :
    s.commit.msgString 0 (s.u + s.v) =
      revString s.radix.toNat s.u s.ha ++ revString s.radix.toNat s.v s.hb := by
  refine List.ext_getElem (by simp) fun k hk _ => ?_
  rw [State.msgString_length] at hk
  rw [State.msgString_getElem, Nat.zero_add, State.msgByte_commit s fits, List.getElem_append]
  simp only [revString_length, revString_getElem, hk, if_true]
  rfl

/-- The commit of canonical halves in their places writes the strings they agree with. -/
theorem State.HalvesAgree.msgString_commit (h : s.HalvesAgree ab) (h36 : s.radix.toNat ≤ 36)
    (fits : s.u + s.v ≤ 192) (la : s.la = s.u) (lb : s.lb = s.v)
    (canonical : Canonical s.radix.toNat ab.1 ∧ Canonical s.radix.toNat ab.2) :
    s.commit.msgString 0 (s.u + s.v) = ab.1 ++ ab.2 := by
  obtain ⟨first, second⟩ := canonical
  rw [State.msgString_commit s fits, ← la, ← lb, ← h.la, ← h.lb, ← h.ha, ← h.hb,
    revString_intOfReverse (first.valid h36), revString_intOfReverse (second.valid h36),
    first.map_lowerChar h36, second.map_lowerChar h36]

/-- In the last round the halves are back in their places (42_feistel_engine.md R181). -/
theorem State.Running.combine_last (run : s.Running) (hd : decode s.cmd = .ok d.instr)
    (last : s.ri = d.lastRound) (p : Port) (y : Nat) :
    ((s.setPort p).combine y d).la = s.u ∧ ((s.setPort p).combine y d).lb = s.v := by
  have round := s.roundLen_eq
  have other := s.otherLen_eq
  rw [last] at round other
  cases d
  · obtain ⟨-, lb⟩ := run.encryptLens hd
    exact ⟨lb.trans other, round⟩
  · obtain ⟨-, la⟩ := run.decryptLens hd
    exact ⟨round, la.trans other⟩

theorem State.Running.total (run : s.Running) : s.u + s.v = s.len.toNat := by
  have hu := run.u
  have hv := run.v
  omega

/-- The last round leaves the source's result in MSG (42_feistel_engine.md R181, R184). -/
theorem State.HalvesAgree.commit (h : s.HalvesAgree (s.strings d)) (run : s.Running)
    (hd : decode s.cmd = .ok d.instr) (hz : z = s.bc (s.sourceRequest d))
    (last : s.ri = d.lastRound) :
    (s.feistelRound z d).msgString 0 s.len.toNat = s.sourceResult d := by
  obtain ⟨h2, h36⟩ := validRadix_iff.mp run.radix
  have fits := (lenOkFeistel_le run.len).2
  have kept : ((s.setPort .empty).combine (responseInt z) d).radix = s.radix ∧
      ((s.setPort .empty).combine (responseInt z) d).u = s.u ∧
      ((s.setPort .empty).combine (responseInt z) d).v = s.v := by cases d <;> exact ⟨rfl, rfl, rfl⟩
  obtain ⟨radix, u, v⟩ := kept
  obtain ⟨la, lb⟩ := run.combine_last hd last .empty (responseInt z)
  have agree := h.combine_strings run hz
  rw [Direction.roundsDone_eq_seven.mpr last] at agree
  have written := agree.msgString_commit (by rwa [radix]) (by rwa [u, v, run.total])
    (la.trans u.symm) (lb.trans v.symm) (by rw [radix]; exact d.canonical_sourceStrings h2 6)
  rwa [u, v, run.total, ← State.feistelRound_last last, ← Direction.source_eq] at written

/-! ### The agreement, update by update -/

theorem State.Running.exists_direction (run : s.Running) :
    ∃ d : Direction, decode s.cmd = .ok d.instr := by
  rcases run.cmd with h | h
  exacts [⟨.encrypt, h⟩, ⟨.decrypt, h⟩]

theorem State.SourceInv.agrees (h : s.SourceInv) (hf : s.fsm = .issue ∨ s.fsm = .wait)
    (hd : decode s.cmd = .ok d.instr) : s.Agrees (s.strings d) (d.stringRead (s.strings d)) := by
  cases d
  exacts [h.encrypt hf hd, h.decrypt hf hd]

/-- The agreement of a state whose command is of direction `d`. -/
theorem State.Inv.sourceInv_of_agrees (inv : s.Inv) (hd : decode s.cmd = .ok d.instr)
    (chars : s.charsOk s.len.toNat) (a : s.Agrees (s.strings d) (d.stringRead (s.strings d))) :
    s.SourceInv := by
  cases d
  · exact ⟨inv, fun _ => chars, fun _ _ => a, fun _ e => by simp [hd, Direction.instr] at e⟩
  · exact ⟨inv, fun _ => chars, fun _ e => by simp [hd, Direction.instr] at e, fun _ _ => a⟩

/-- A step that touches neither the message nor the engine keeps the agreement. -/
theorem State.SourceInv.congr (h : s.SourceInv) (inv : t.Inv) (same : SameMessage s t)
    (fsm : t.fsm = s.fsm) (cmd : t.cmd = s.cmd) (rounds : t.roundState = s.roundState) :
    t.SourceInv := by
  obtain ⟨-, -, ri, ha, hb, la, lb, port⟩ := State.roundState_eq_iff.mp rounds
  refine ⟨inv, fun hf => ?_, fun hf hd => ?_, fun hf hd => ?_⟩
  all_goals rw [fsm] at hf
  · rw [same.charsOk, same.len]
    exact h.chars hf
  · rw [cmd] at hd
    rw [same.encryptStrings ri]
    exact same.agrees ri ha la hb lb port (h.encrypt hf hd)
  · rw [cmd] at hd
    rw [same.decryptStrings ri]
    exact same.agrees ri ha la hb lb port (h.decrypt hf hd)

theorem State.SourceInv.setTurns (h : s.SourceInv) (ts : List Turn) (n : Nat) :
    (s.setTurns ts n).SourceInv :=
  h.congr (h.inv.setTurns ts n) ⟨rfl, rfl, rfl, rfl, rfl, rfl, rfl⟩ rfl rfl rfl

theorem State.SourceInv.setHost (h : s.SourceInv) (p : List HostOp) (rs : List (Offset × Word)) :
    (s.setHost p rs).SourceInv :=
  h.congr (h.inv.setHost p rs) ⟨rfl, rfl, rfl, rfl, rfl, rfl, rfl⟩ rfl rfl rfl

/-- A passed CHECK starts with the halves of the message. -/
theorem State.feistelReady.sourceInv (hr : s.feistelReady)
    (inv : (s.startRounds (s.digitsOf s.len.toNat) d.firstRound).Inv)
    (hd : decode s.cmd = .ok d.instr) (hp : s.port = .empty) :
    (s.startRounds (s.digitsOf s.len.toNat) d.firstRound).SourceInv :=
  inv.sourceInv_of_agrees hd hr.2.2.2 ((hr.halvesAgree_strings d).agrees hp _)

/-- The request of an ISSUE step is the source's (42_feistel_engine.md R170, R175). -/
theorem State.HalvesAgree.request (h : s.HalvesAgree (s.strings d)) (run : s.Running) :
    bswap128 (s.roundBlock (s.halfRead d)) = s.sourceRequest d := by
  have small : s.halfRead d < 2 ^ 96 := by
    obtain ⟨ha, hb⟩ := run.values
    cases d <;> assumption
  rw [State.sourceRequest, source_request_eq, h.halfRead]
  rwa [h.halfRead]

theorem State.SourceInv.issueRound (h : s.SourceInv) (hf : s.fsm = .issue)
    (hd : decode s.cmd = .ok d.instr) : (s.issueRound (s.halfRead d)).SourceInv := by
  have a := (h.agrees (.inl hf) hd).halves
  have port : (s.issueRound (s.halfRead d)).port = .req (s.sourceRequest d) :=
    congrArg _ (a.request (h.inv.running (.inl hf)))
  refine (h.inv.issueRound hf _).sourceInv_of_agrees hd (h.chars (.inl hf))
    ⟨a.ha, a.la, a.hb, a.lb, fun q hq => ?_, fun z hz => ?_⟩
  · rw [port] at hq
    cases hq
    rfl
  · rw [port] at hz
    cases hz

/-- The answer at the port is `bc` of the source's request. -/
theorem State.SourceInv.response (h : s.SourceInv) (hf : s.fsm = .wait)
    (hd : decode s.cmd = .ok d.instr) (hp : s.port = .rsp z) : z = s.bc (s.sourceRequest d) :=
  (h.agrees (.inr hf) hd).response z hp

theorem State.SourceInv.feistelRound (h : s.SourceInv) (hf : s.fsm = .wait)
    (hd : decode s.cmd = .ok d.instr) (hp : s.port = .rsp z)
    (inv : (s.feistelRound z d).Inv) : (s.feistelRound z d).SourceInv := by
  by_cases last : s.ri = d.lastRound
  · exact inv.sourceInv (.inl (by rw [State.feistelRound_last last]; rfl))
  · have same := State.feistelRound_sameMessage (z := z) last
    have halves := (h.agrees (.inr hf) hd).halves.feistelRound (h.inv.running (.inr hf))
      (h.response hf hd hp) last
    refine inv.sourceInv_of_agrees (by rwa [State.feistelRound_cmd]) ?_
      (halves.agrees State.feistelRound_port _)
    rw [same.charsOk, same.len]
    exact h.chars (.inr hf)

/-! ### The agreement, move by move -/

theorem EngineMove.sourceInv (m : EngineMove s t) (h : s.SourceInv) : t.SourceInv := by
  have inv := m.inv h.inv
  cases m with
  | stay => exact h
  | fails | str2int | int2str => exact inv.sourceInv (.inl rfl)
  | startEncrypt hr hd =>
    exact hr.sourceInv (d := .encrypt) inv hd (h.inv.port_empty (by simp [hr.1]))
  | startDecrypt hr hd =>
    exact hr.sourceInv (d := .decrypt) inv hd (h.inv.port_empty (by simp [hr.1]))
  | issueEncrypt hf hd => exact h.issueRound (d := .encrypt) hf hd
  | issueDecrypt hf hd => exact h.issueRound (d := .decrypt) hf hd
  | roundEncrypt z hf hp hd => exact h.feistelRound (d := .encrypt) hf hd hp inv
  | roundDecrypt z hf hp hd => exact h.feistelRound (d := .decrypt) hf hd hp inv

/-- The BC answers the source's request with `bc` of it (42_feistel_engine.md R176). -/
theorem bcTurn_sourceInv (h : s.SourceInv) : (bcTurn s).SourceInv := by
  have inv := bcTurn_inv h.inv
  obtain ⟨x, hp, e⟩ | ⟨-, e⟩ := bcTurn_cases s
  · rw [e] at inv ⊢
    have hf : s.fsm = .wait := h.inv.port.mpr (by simp [hp])
    obtain ⟨d, hd⟩ := (h.inv.running (.inr hf)).exists_direction
    have a := h.agrees (.inr hf) hd
    refine inv.sourceInv_of_agrees hd (h.chars (.inr hf))
      ⟨a.ha, a.la, a.hb, a.lb, fun q hq => ?_, fun z hz => ?_⟩
    · cases hq
    · cases hz
      rw [a.request x hp]
      rfl
  · rwa [e]

/-- A host write to an idle block leaves it idle or accepts a command. -/
theorem WriteMove.fsm_of_idle (m : WriteMove s t) (hf : s.fsm = .idle) :
    t.fsm = .idle ∨ t.fsm = .check := by
  cases m with
  | accepted => exact .inr rfl
  | _ => exact .inl hf

theorem WriteMove.sourceInv (m : WriteMove s t) (h : s.SourceInv) : t.SourceInv := by
  have inv := m.inv h.inv
  by_cases hf : s.fsm = .idle
  · exact inv.sourceInv (m.fsm_of_idle hf)
  · obtain ⟨fsm, cmd, rounds⟩ := m.engine hf
    obtain ⟨msg, draws, -, -, radix, len, -, tl, tr⟩ := State.operands_eq_iff.mp (m.operands hf)
    exact h.congr inv ⟨radix, len, tl, tr, m.bcTable, msg, draws⟩ fsm cmd rounds

/-- Every step of every agent keeps the agreement. -/
theorem step_sourceInv (h : s.SourceInv) (hstep : step s = .next t) : t.SourceInv := by
  obtain ⟨ts, n, ⟨-, engine⟩ | ⟨-, rfl⟩ | ⟨-, rfl⟩ | ⟨-, rfl | ⟨-, p, rs, -, -, write⟩⟩⟩ :=
    step_inv hstep
  · exact engine.sourceInv (h.setTurns ts n)
  · exact bcTurn_sourceInv (h.setTurns ts n)
  · exact (State.resetBlock_inv _).sourceInv (.inl rfl)
  · exact h.setTurns ts n
  · exact write.sourceInv ((h.setTurns ts n).setHost p rs)

/-! ### The end of the rounds -/

/-- An engine turn from WAIT to IDLE is the last round of its direction. -/
theorem engineTurn_ends (hd : decode s.cmd = .ok d.instr) (wait : s.fsm = .wait)
    (turn : engineTurn s = .next t) (idle : t.fsm = .idle) :
    s.ri = d.lastRound ∧ ∃ z, s.port = .rsp z ∧ t = s.feistelRound z d := by
  rw [engineTurn_of_decode hd] at turn
  by_cases answered : ∃ z, s.port = .rsp z
  · obtain ⟨z, hp⟩ := answered
    rw [exec_of_response wait hp] at turn
    cases turn
    refine ⟨?_, z, hp, rfl⟩
    by_contra next
    rw [State.feistelRound_next next] at idle
    cases idle
  · rw [exec_of_no_response (.inr ⟨wait, not_exists.mp answered⟩)] at turn
    cases turn
    simp [wait] at idle

theorem State.SourceInv.engineTurn_result (h : s.SourceInv) (hd : decode s.cmd = .ok d.instr)
    (wait : s.fsm = .wait) (turn : engineTurn s = .next t) (idle : t.fsm = .idle) :
    t.msgString 0 s.len.toNat = s.sourceResult d := by
  obtain ⟨last, z, hp, rfl⟩ := engineTurn_ends hd wait turn idle
  exact (h.agrees (.inr wait) hd).halves.commit (h.inv.running (.inr wait)) hd
    (h.response wait hd hp) last

theorem step_engine (turn : (nextTurn s).1 = .engine) :
    ∃ ts n, step s = engineTurn (s.setTurns ts n) := by
  obtain ⟨a, s0, hstep, ha, ts, n, rfl⟩ := step_cases s
  rw [turn] at ha
  subst ha
  exact ⟨ts, n, hstep⟩

/-- Settles O57: every move of every agent keeps the agreement, and the last round commits the
strings that the halves agree with. -/
theorem everyStepKeepsTheSourceStrings : Obligations.EveryStepKeepsTheSourceStrings := by
  intro s t h hstep
  refine ⟨step_sourceInv h hstep, fun turn wait idle => ?_⟩
  obtain ⟨ts, n, engine⟩ := step_engine turn
  rw [hstep] at engine
  exact ⟨fun hd => (h.setTurns ts n).engineTurn_result (d := .encrypt) hd wait engine.symm idle,
    fun hd => (h.setTurns ts n).engineTurn_result (d := .decrypt) hd wait engine.symm idle⟩

/-- Settles O58: right after reset no round runs. -/
theorem resetStateMeetsTheSourceInvariant : Obligations.ResetStateMeetsTheSourceInvariant :=
  State.reset_inv.sourceInv (.inl rfl)

end Sys2Proof.Machine
end

section
/-! PROOF. The source's decryption undoes its encryption (42_feistel_engine.md R187) for every
function `bc`: each round of the mirror gives back the strings before the round it mirrors, in
lowercase. -/

namespace Sys2Proof.Machine

variable {bc : Block → Block} {r u v i : Nat} {tl tr : Word} {x : List Byte}
  {ab : List Byte × List Byte}

/-! ### Lowercase -/

/-- Lowercase does not change a string's value (41_radix_codec.md R140, R146). -/
theorem intOfReverse_map_lowerChar (h36 : r ≤ 36) (valid : ∀ b ∈ x, validChar b r = true) :
    Source.intOfReverse r (x.map lowerChar) = Source.intOfReverse r x := by
  have parse := digits?_of_valid valid
  have lower := digits?_map_chr h36 (digits?_eq_some.mp parse).2
  rw [map_chr_of_digits? parse] at lower
  rw [intOfReverse_of_digits? lower, intOfReverse_of_digits? parse]

/-- Writing a string's value in its length gives the string in lowercase. -/
theorem intToPaddedReversed_intOfReverse (h2 : 2 ≤ r) (hx : 1 ≤ x.length)
    (valid : ∀ b ∈ x, validChar b r = true) :
    intToPaddedReversed (Source.intOfReverse r x) r x.length = x.map lowerChar := by
  rw [intToPaddedReversed_eq_revString h2 hx (intOfReverse_lt valid), revString_intOfReverse valid]

/-- Both strings of a pair in lowercase. -/
def lowerPair (ab : List Byte × List Byte) : List Byte × List Byte :=
  (ab.1.map lowerChar, ab.2.map lowerChar)

/-! ### One round -/

/-- The length `m` of the half that round `i` writes (42_feistel_engine.md R173). -/
def writtenLen (u v i : Nat) : Nat := if i % 2 = 0 then u else v

theorem writtenLen_succ : writtenLen u v (i + 1) = writtenLen v u i := by
  have parity : (i + 1) % 2 = 0 ↔ ¬i % 2 = 0 := by omega
  simp only [writtenLen, parity, ite_not]

theorem writtenLen_pos (hu : 1 ≤ u) (hv : 1 ≤ v) : 1 ≤ writtenLen u v i := by
  unfold writtenLen
  split <;> assumption

/-- The number `y` of round `i` from the half it reads (42_feistel_engine.md R170). -/
def roundNumber (bc : Block → Block) (r : Nat) (tl tr : Word) (i : Nat) (x : List Byte) : Nat :=
  Source.cipherInt bc (Source.roundBlock r tl tr i x)

theorem roundNumber_map_lowerChar (h36 : r ≤ 36) (valid : ∀ b ∈ x, validChar b r = true) :
    roundNumber bc r tl tr i (x.map lowerChar) = roundNumber bc r tl tr i x := by
  simp only [roundNumber, Source.roundBlock, intOfReverse_map_lowerChar h36 valid]

/-- The half that round `i` of an encryption writes. -/
def encryptedHalf (bc : Block → Block) (r u v : Nat) (tl tr : Word) (ab : List Byte × List Byte)
    (i : Nat) : List Byte :=
  intToPaddedReversed ((Source.intOfReverse r ab.1 + roundNumber bc r tl tr i ab.2) %
    r ^ writtenLen u v i) r (writtenLen u v i)

theorem source_encryptRound_eq : Source.encryptRound bc r u v tl tr ab i =
    (ab.2, encryptedHalf bc r u v tl tr ab i) := rfl

theorem source_decryptRound_eq : Source.decryptRound bc r u v tl tr ab i =
    (intToPaddedReversed (((Source.intOfReverse r ab.2 : Int) - roundNumber bc r tl tr i ab.1) %
      (r ^ writtenLen u v i : Nat)).toNat r (writtenLen u v i), ab.1) := rfl

/-- The strings before round `i`: valid characters, and `A` as long as the half the round
writes. -/
structure ValidPair (r u v i : Nat) (ab : List Byte × List Byte) : Prop where
  first : ab.1.length = writtenLen u v i
  second : ab.2.length = writtenLen v u i
  validFirst : ∀ b ∈ ab.1, validChar b r = true
  validSecond : ∀ b ∈ ab.2, validChar b r = true

/-- The remainder of the difference undoes the remainder of the sum (42_feistel_engine.md R178,
R179). -/
theorem sub_emod_add_mod {a m : Nat} (ha : a < m) (y : Nat) :
    ((((a + y) % m : Nat) : Int) - y) % (m : Int) = a := by
  rw [Int.natCast_mod, Int.emod_sub_emod, Nat.cast_add, add_sub_cancel_right, ← Int.natCast_mod,
    Nat.mod_eq_of_lt ha]

section
variable (h2 : 2 ≤ r) (h36 : r ≤ 36) (hu : 1 ≤ u) (hv : 1 ≤ v)
include h2 h36 hu hv

theorem encryptedHalf_value_length : Source.intOfReverse r (encryptedHalf bc r u v tl tr ab i) =
      (Source.intOfReverse r ab.1 + roundNumber bc r tl tr i ab.2) % r ^ writtenLen u v i ∧
    (encryptedHalf bc r u v tl tr ab i).length = writtenLen u v i :=
  intToPaddedReversed_half h2 h36 (writtenLen_pos hu hv) (Nat.mod_lt _ (Nat.pow_pos (by omega)))

/-- A round keeps the pair valid for the next one. -/
theorem ValidPair.encryptRound (h : ValidPair r u v i ab) :
    ValidPair r u v (i + 1) (Source.encryptRound bc r u v tl tr ab i) where
  first := h.second.trans writtenLen_succ.symm
  second := (encryptedHalf_value_length h2 h36 hu hv).2.trans writtenLen_succ.symm
  validFirst := h.validSecond
  validSecond := (canonical_intToPaddedReversed h2 _ _).valid h36

/-- A round of decryption undoes that round of encryption. -/
theorem ValidPair.decryptRound_encryptRound (h : ValidPair r u v i ab) :
    Source.decryptRound bc r u v tl tr (lowerPair (Source.encryptRound bc r u v tl tr ab i)) i =
      lowerPair ab := by
  have canonical : Canonical r (encryptedHalf bc r u v tl tr ab i) :=
    canonical_intToPaddedReversed h2 _ _
  have value := (encryptedHalf_value_length (bc := bc) (tl := tl) (tr := tr) (i := i) (ab := ab)
    h2 h36 hu hv).1
  have small := intOfReverse_lt h.validFirst
  have written := intToPaddedReversed_intOfReverse h2
    (by rw [h.first]; exact writtenLen_pos hu hv) h.validFirst
  rw [h.first] at small written
  rw [source_encryptRound_eq, lowerPair, canonical.map_lowerChar h36, source_decryptRound_eq]
  rw [roundNumber_map_lowerChar h36 h.validSecond, value, sub_emod_add_mod small,
    Int.toNat_natCast, written, lowerPair]

end

/-! ### All eight rounds -/

theorem validPair_halves (hx : ∀ b ∈ x, validChar b r = true) :
    ValidPair r ((x.length + 1) / 2) (x.length - (x.length + 1) / 2) 0 (Source.halves x) where
  first := by
    rw [Source.halves, List.length_take, writtenLen, if_pos (Nat.zero_mod 2)]
    omega
  second := by rw [Source.halves, List.length_drop, writtenLen, if_pos (Nat.zero_mod 2)]
  validFirst := fun b hb => hx b (List.mem_of_mem_take hb)
  validSecond := fun b hb => hx b (List.mem_of_mem_drop hb)

section
variable (h2 : 2 ≤ r) (h36 : r ≤ 36) (long : 2 ≤ x.length)
  (valid : ∀ b ∈ x, validChar b r = true)
include h2 h36 long valid

theorem validPair_encryptStrings (k : Nat) :
    ValidPair r ((x.length + 1) / 2) (x.length - (x.length + 1) / 2) k
      (Source.encryptStrings bc r tl tr x k) := by
  induction k with
  | zero => exact validPair_halves valid
  | succ k ih =>
    rw [source_encryptStrings_succ]
    exact ih.encryptRound h2 h36 (by omega) (by omega)

/-- The result of an encryption is as long as the message, and its halves are the strings after
the last round. -/
theorem halves_encrypt : (Source.encrypt bc r tl tr x).length = x.length ∧
    Source.halves (Source.encrypt bc r tl tr x) = Source.encryptStrings bc r tl tr x 8 := by
  have last := validPair_encryptStrings (bc := bc) (tl := tl) (tr := tr) h2 h36 long valid 8
  have first : (Source.encryptStrings bc r tl tr x 8).1.length = (x.length + 1) / 2 := last.first
  have second : (Source.encryptStrings bc r tl tr x 8).2.length =
    x.length - (x.length + 1) / 2 := last.second
  have length : (Source.encrypt bc r tl tr x).length = x.length := by
    rw [Source.encrypt, List.length_append, first, second]
    omega
  refine ⟨length, ?_⟩
  rw [Source.halves, length, ← first]
  simp [Source.encrypt]

/-- After `j` rounds of decryption the strings are those of the encryption before its last `j`
rounds, in lowercase. -/
theorem decryptStrings_encrypt {j : Nat} (hj : j ≤ 8) :
    Source.decryptStrings bc r tl tr (Source.encrypt bc r tl tr x) j =
      lowerPair (Source.encryptStrings bc r tl tr x (8 - j)) := by
  obtain ⟨length, halves⟩ := halves_encrypt (bc := bc) (tl := tl) (tr := tr) h2 h36 long valid
  induction j with
  | zero =>
    have canonical := Direction.encrypt.canonical_sourceStrings (bc := bc) (tl := tl) (tr := tr)
      (x := x) h2 6
    exact halves.trans (Prod.ext (canonical.1.map_lowerChar h36).symm
      (canonical.2.map_lowerChar h36).symm)
  | succ j ih =>
    have before : 8 - j = 7 - j + 1 := by omega
    rw [source_decryptStrings_succ, ih (by omega), length, before, source_encryptStrings_succ,
      show 8 - (j + 1) = 7 - j by omega]
    exact (validPair_encryptStrings h2 h36 long valid (7 - j)).decryptRound_encryptRound h2 h36
      (by omega) (by omega)

/-- Decryption of an encrypted string is the string in lowercase (42_feistel_engine.md R187). -/
theorem source_decrypt_encrypt :
    Source.decrypt bc r tl tr (Source.encrypt bc r tl tr x) = x.map lowerChar := by
  have undone := decryptStrings_encrypt (bc := bc) (tl := tl) (tr := tr) h2 h36 long valid le_rfl
  rw [Source.decrypt, undone]
  exact (List.map_append).symm.trans (congrArg _ (List.take_append_drop _ x))

end

end Sys2Proof.Machine
end

section
/-! PROOF. A whole run of ENCRYPT or DECRYPT under the schedule of its own turns
(42_feistel_engine.md R171, R184): round by round it follows the source's strings, so it ends with the source's result;
and DECRYPT after ENCRYPT gives the message back (R187). -/

namespace Sys2Proof.Machine

variable {s t s' : State} {d : Direction} {ts : List Turn} {z : Block}

/-! ### Runs -/

theorem runSteps_of_step {k : Nat} (h : step s = .next t) :
    runSteps (k + 1) s = runSteps k t := by
  rw [runSteps, h]

theorem runSteps_add {j k : Nat} (h : runSteps j s = .next t) :
    runSteps (j + k) s = runSteps k t := by
  induction j generalizing s with
  | zero => cases h; rw [Nat.zero_add]
  | succ j ih =>
    rw [Nat.succ_add]
    rw [runSteps] at h ⊢
    cases hstep : step s with
    | next u =>
      rw [hstep] at h
      exact ih h
    | fault f => simp [hstep] at h
    | refused f => simp [hstep] at h

/-! ### What a whole run leaves alone -/

/-- Everything a successful ENCRYPT or DECRYPT leaves as it was, but the bytes of MSG beyond the
message. -/
def State.runFrame (s : State) :=
  ((s.setTurns [] 0).bystanders, s.vals, s.outlen, s.err, s.errcode)

theorem State.runFrame_eq (h : t.runFrame = s.runFrame) :
    (t.radix = s.radix ∧ t.len = s.len ∧ t.tl = s.tl ∧ t.tr = s.tr) ∧ t.bcTable = s.bcTable ∧
      t.program = s.program ∧ t.vals = s.vals ∧ t.outlen = s.outlen ∧ t.err = s.err ∧
      t.errcode = s.errcode := by
  simp only [State.runFrame, Prod.mk.injEq] at h
  obtain ⟨bystanders, vals, outlen, err, errcode⟩ := h
  obtain ⟨⟨radix, len, -, tl, tr, -⟩, -, program, -, bcTable, -⟩ :=
    State.bystanders_eq_iff.mp bystanders
  exact ⟨⟨radix, len, tl, tr⟩, bcTable, program, vals, outlen, err, errcode⟩

theorem State.feistelRound_eq_advance : s.feistelRound z d =
    ((s.setPort .empty).combine (responseInt z) d).advance d.lastRound (d.nextRound s.ri) := by
  cases d <;> rfl

theorem State.feistelRound_runFrame :
    (s.feistelRound z d).runFrame = s.runFrame ∧ (s.feistelRound z d).turns = s.turns := by
  by_cases last : s.ri = d.lastRound
  · rw [State.feistelRound_last last]
    cases d <;> simp [State.combine, State.runFrame, State.bystanders]
  · rw [State.feistelRound_next last]
    cases d <;> simp [State.combine, State.runFrame, State.bystanders]

theorem State.msgByte_feistelRound {k : Nat} (hk : s.u + s.v ≤ k) :
    (s.feistelRound z d).msgByte k = s.msgByte k := by
  rw [State.feistelRound_eq_advance]
  cases d <;> exact State.msgByte_advance hk

/-- How a run of direction `d` from `s` ends in `t`, with the turns `ts` left. -/
structure State.Completes (s : State) (d : Direction) (ts : List Turn) (t : State) : Prop where
  message : t.msgString 0 s.len.toNat = s.sourceResult d
  beyond : ∀ k, s.len.toNat ≤ k → t.msgByte k = s.msgByte k
  done : t.done = true
  fsm : t.fsm = .idle
  ri : t.ri = d.lastRound
  port : t.port = .empty
  turns : t.turns = ts
  frame : t.runFrame = s.runFrame

theorem SameMessage.sourceResult (same : SameMessage s t) :
    t.sourceResult d = s.sourceResult d := by
  rw [State.sourceResult, same.bc, same.radix, same.tl, same.tr, same.message]
  rfl

/-- A run that goes on from a state with the same message. -/
theorem State.Completes.of_sameMessage (c : s'.Completes d ts t) (same : SameMessage s s')
    (frame : s'.runFrame = s.runFrame) : s.Completes d ts t :=
  { c with
    message := by rw [← same.len, c.message, same.sourceResult]
    beyond := fun k hk => (c.beyond k (by rwa [same.len])).trans
      (State.msgByte_congr same.msg same.draws k)
    frame := c.frame.trans frame }

/-! ### One round -/

theorem step_issue (hd : decode s.cmd = .ok d.instr) (hf : s.fsm = .issue)
    (turns : s.turns = .engine :: ts) :
    step s = .next ((s.setTurns ts s.ticks).issueRound (s.halfRead d)) :=
  (step_of_turns turns).trans ((engineTurn_of_decode (s := s.setTurns ts s.ticks) hd).trans
    (exec_of_issue (s := s.setTurns ts s.ticks) hf))

theorem step_response (hd : decode s.cmd = .ok d.instr) (hf : s.fsm = .wait)
    (hp : s.port = .rsp z) (turns : s.turns = .engine :: ts) :
    step s = .next ((s.setTurns ts s.ticks).feistelRound z d) :=
  (step_of_turns turns).trans ((engineTurn_of_decode (s := s.setTurns ts s.ticks) hd).trans
    (exec_of_response (s := s.setTurns ts s.ticks) hf hp))

theorem State.commit_with_fsm (s : State) (f : Fsm) :
    ({ s with fsm := f } : State).commit = s.commit := rfl

theorem State.nextRound_with_fsm (s : State) (f : Fsm) (ri : BitVec 3) :
    ({ s with fsm := f } : State).nextRound ri = s.nextRound ri := rfl

/-- A round reads neither what stands at the port nor the state of the engine. -/
theorem State.feistelRound_with_port_fsm (s : State) (p : Port) (f : Fsm) :
    ({ s with port := p, fsm := f } : State).feistelRound z d = s.feistelRound z d := by
  have combined : (({ s with port := p, fsm := f } : State).setPort .empty).combine
      (responseInt z) d = { (s.setPort .empty).combine (responseInt z) d with fsm := f } := by
    cases d <;> rfl
  by_cases last : s.ri = d.lastRound
  · rw [State.feistelRound_last last, State.feistelRound_last (by exact last), combined,
      State.commit_with_fsm]
  · rw [State.feistelRound_next last, State.feistelRound_next (by exact last), combined,
      State.nextRound_with_fsm]

/-- ISSUE, the BC's answer and WAIT, one after another (42_feistel_engine.md R171). -/
theorem runSteps_round (hd : decode s.cmd = .ok d.instr) (hf : s.fsm = .issue)
    (turns : s.turns = .engine :: .bc :: .engine :: ts) : runSteps 3 s =
      .next ((s.setTurns ts s.ticks).feistelRound
        (s.bc (bswap128 (s.roundBlock (s.halfRead d)))) d) := by
  have answer := bcTurnAnswersTheRequest.1 ((s.setTurns (.bc :: .engine :: ts) s.ticks).issueRound
    (s.halfRead d)) (.engine :: ts) _ rfl rfl
  rw [runSteps_of_step (step_issue hd hf turns), runSteps_of_step answer]
  refine (runSteps_of_step (step_response (d := d) (by exact hd) rfl rfl rfl)).trans
    (congrArg _ ?_)
  exact State.feistelRound_with_port_fsm (s.setTurns ts s.ticks) _ _

/-! ### The eight rounds -/

/-- The last round completes the command (42_feistel_engine.md R181). -/
theorem State.HalvesAgree.completes (h : s.HalvesAgree (s.strings d)) (run : s.Running)
    (hd : decode s.cmd = .ok d.instr) (hz : z = s.bc (s.sourceRequest d))
    (last : s.ri = d.lastRound) : s.Completes d s.turns (s.feistelRound z d) where
  message := h.commit run hd hz last
  beyond := fun k hk => State.msgByte_feistelRound (by rwa [run.total])
  done := by rw [State.feistelRound_last last]; rfl
  fsm := by rw [State.feistelRound_last last]; rfl
  ri := by rw [State.feistelRound_last last, ← last]; cases d <;> simp [State.combine]
  port := State.feistelRound_port
  turns := State.feistelRound_runFrame.2
  frame := State.feistelRound_runFrame.1

theorem State.setTurns_sameMessage (s : State) (ts : List Turn) (n : Nat) :
    SameMessage s (s.setTurns ts n) :=
  ⟨rfl, rfl, rfl, rfl, rfl, rfl, rfl⟩

theorem State.HalvesAgree.setTurns (h : s.HalvesAgree (s.strings d)) (ts : List Turn) (n : Nat) :
    (s.setTurns ts n).HalvesAgree ((s.setTurns ts n).strings d) :=
  ⟨h.ha, h.la, h.hb, h.lb⟩

/-- A round that is not the last one keeps running. -/
theorem State.Running.feistelRound (run : s.Running) (hd : decode s.cmd = .ok d.instr)
    (next : s.ri ≠ d.lastRound) : (s.feistelRound z d).Running := by
  rw [State.feistelRound_next next]
  cases d
  exacts [run.encryptCombine hd .empty _, run.decryptCombine hd .empty _]

/-- From ISSUE the rounds still to do, with their own turns next, complete the command. -/
theorem runSteps_rounds {n : Nat} (hd : decode s.cmd = .ok d.instr) (hf : s.fsm = .issue)
    (run : s.Running) (h : s.HalvesAgree (s.strings d)) (count : d.roundsDone s.ri + n = 8)
    (turns : s.turns = roundTurns n ++ ts) :
    ∃ t, runSteps (3 * n) s = .next t ∧ s.Completes d ts t := by
  induction n generalizing s with
  | zero =>
    have := d.roundsDone_le s.ri
    omega
  | succ n ih =>
    have round := runSteps_round hd hf turns
    have hz := congrArg s.bc (h.request run)
    generalize s.bc (bswap128 (s.roundBlock (s.halfRead d))) = z at round hz
    have same := s.setTurns_sameMessage (roundTurns n ++ ts) s.ticks
    have run : (s.setTurns (roundTurns n ++ ts) s.ticks).Running := { run with }
    have h := h.setTurns (roundTurns n ++ ts) s.ticks
    rw [show 3 * (n + 1) = 3 + 3 * n by ring, runSteps_add round]
    by_cases last : s.ri = d.lastRound
    · rw [Direction.roundsDone_eq_seven.mpr last] at count
      obtain rfl : n = 0 := by omega
      exact ⟨_, rfl, (h.completes run hd hz last).of_sameMessage same rfl⟩
    · have ri : ((s.setTurns (roundTurns n ++ ts) s.ticks).feistelRound z d).ri =
          d.nextRound s.ri := by rw [State.feistelRound_next (by exact last)]; rfl
      have issue : ((s.setTurns (roundTurns n ++ ts) s.ticks).feistelRound z d).fsm = .issue := by
        rw [State.feistelRound_next (by exact last)]; rfl
      obtain ⟨t, ht, c⟩ := ih (by rw [State.feistelRound_cmd]; exact hd) issue
        (run.feistelRound hd last) (h.feistelRound run hz last)
        (by rw [ri, Direction.roundsDone_nextRound last]; omega) State.feistelRound_runFrame.2
      exact ⟨t, ht, (c.of_sameMessage (State.feistelRound_sameMessage last)
        State.feistelRound_runFrame.1).of_sameMessage same rfl⟩

/-! ### The whole command -/

/-- From a CHECK state with valid operands the command's own turns complete it. -/
theorem runSteps_command (hr : s.feistelReady) (hc : s.cmd = encode d.instr)
    (turns : s.turns = commandTurns ++ ts) :
    ∃ t, runSteps 25 s = .next t ∧ s.Completes d ts t := by
  have hd := decode_eq_ok.mpr hc
  have check := (step_of_turns turns).trans ((engineTurn_of_decode
    (s := s.setTurns (roundTurns 8 ++ ts) s.ticks) hd).trans
      (exec_of_feistelReady (s := s.setTurns (roundTurns 8 ++ ts) s.ticks) hr))
  have start : decode s.cmd = .ok .encrypt ∧ d.firstRound = 0 ∨
      decode s.cmd = .ok .decrypt ∧ d.firstRound = 7 := by
    cases d
    exacts [.inl ⟨hd, rfl⟩, .inr ⟨hd, rfl⟩]
  have hr : (s.setTurns (roundTurns 8 ++ ts) s.ticks).feistelReady := hr
  obtain ⟨t, ht, c⟩ := runSteps_rounds (n := 8) (ts := ts) (d := d) (by exact hd)
    (State.startRounds_fsm _ _ _) (hr.startRounds_running start) (hr.halvesAgree_strings d)
    (by rw [State.startRounds_ri, Direction.roundsDone_firstRound]) rfl
  exact ⟨t, (runSteps_of_step check).trans ht, c.of_sameMessage ⟨rfl, rfl, rfl, rfl, rfl, rfl, rfl⟩
    rfl⟩

/-- How a whole run of either direction ends, part by part (42_feistel_engine.md R184). -/
theorem runSteps_command_result (hr : s.feistelReady) (hc : s.cmd = encode d.instr)
    (turns : s.turns = commandTurns ++ ts) :
    ∃ t, runSteps 25 s = .next t ∧
      t.msgString 0 s.len.toNat = s.sourceResult d ∧
      (∀ k, s.len.toNat ≤ k → t.msgByte k = s.msgByte k) ∧
      t.done = true ∧ t.err = s.err ∧ t.errcode = s.errcode ∧ t.fsm = .idle ∧
      t.ri = d.lastRound ∧ t.port = .empty ∧ t.turns = ts ∧ t.vals = s.vals ∧
      t.outlen = s.outlen := by
  obtain ⟨t, run, c⟩ := runSteps_command hr hc turns
  obtain ⟨-, -, -, vals, outlen, err, errcode⟩ := State.runFrame_eq c.frame
  exact ⟨t, run, c.message, c.beyond, c.done, err, errcode, c.fsm, c.ri, c.port, c.turns, vals,
    outlen⟩

/-- Settles O44: the rounds follow the source's encryption. -/
theorem encryptRunComputesTheSourceProcedure :
    Obligations.EncryptRunComputesTheSourceProcedure :=
  fun _ _ hr hc turns => runSteps_command_result (d := .encrypt) hr hc turns

/-- Settles O45: the rounds follow the source's decryption. -/
theorem decryptRunComputesTheSourceProcedure :
    Obligations.DecryptRunComputesTheSourceProcedure :=
  fun _ _ hr hc turns => runSteps_command_result (d := .decrypt) hr hc turns

/-! ### The characters of the result -/

theorem State.Completes.msgByte (c : s.Completes d ts t) {k : Nat} (hk : k < s.len.toNat) :
    ∃ h : k < (s.sourceResult d).length, t.msgByte k = (s.sourceResult d)[k] := by
  have length : k < (s.sourceResult d).length := by
    rw [← c.message, State.msgString_length]
    exact hk
  refine ⟨length, ?_⟩
  simp only [← c.message, State.msgString_getElem, Nat.zero_add]

theorem State.Completes.canonical (c : s.Completes d ts t) (h2 : 2 ≤ s.radix.toNat) {k : Nat}
    (hk : k < s.len.toNat) : ∃ e, e < s.radix.toNat ∧ t.msgByte k = chr e := by
  obtain ⟨h, byte⟩ := c.msgByte hk
  rw [byte]
  exact Direction.canonical_source h2 _ (List.getElem_mem h)

/-- Settles O47: the source's result is canonical. -/
theorem outputKeepsLengthAndAlphabet : Obligations.OutputKeepsLengthAndAlphabet := by
  intro s ts hr hc turns
  have direction : ∃ d : Direction, s.cmd = encode d.instr := by
    rcases hc with hc | hc
    exacts [⟨.encrypt, hc⟩, ⟨.decrypt, hc⟩]
  obtain ⟨d, hc⟩ := direction
  obtain ⟨t, run, c⟩ := runSteps_command hr hc turns
  obtain ⟨h2, -⟩ := validRadix_iff.mp hr.2.1
  exact ⟨t, run, c.done, c.fsm, fun k hk => c.canonical h2 hk, c.beyond⟩

/-! ### DECRYPT after ENCRYPT -/

/-- After ENCRYPT the host's write of DECRYPT finds valid operands (42_feistel_engine.md R188). -/
theorem State.Completes.ready_again (c : s.Completes d ts t) (hr : s.feistelReady)
    {t' : State} (same : SameMessage t t') (check : t'.fsm = .check) : t'.feistelReady := by
  obtain ⟨-, radix, len, -⟩ := hr
  obtain ⟨⟨radix', len', -⟩, -⟩ := State.runFrame_eq c.frame
  obtain ⟨h2, h36⟩ := validRadix_iff.mp radix
  refine ⟨check, ?_, ?_, ?_⟩
  · rwa [same.radix, radix']
  · rwa [same.radix, same.len, radix', len']
  · rw [same.charsOk, same.len, len']
    intro k hk
    obtain ⟨e, he, byte⟩ := c.canonical h2 hk
    rw [byte, radix']
    exact validChar_iff.mpr ⟨e, digit_chr (he.trans_le h36), he⟩

/-- After ENCRYPT, the source's decryption of what is in MSG is the first message in lowercase. -/
theorem State.Completes.sourceResult_decrypt (c : s.Completes .encrypt ts t)
    (hr : s.feistelReady) : t.sourceResult .decrypt = s.message.map lowerChar := by
  obtain ⟨-, radix, len, chars⟩ := hr
  obtain ⟨h2, h36⟩ := validRadix_iff.mp radix
  have long := (lenOkFeistel_le len).1
  obtain ⟨⟨radix', len', tl, tr⟩, bcTable, -⟩ := State.runFrame_eq c.frame
  have bc : t.bc = s.bc := funext (State.bc_congr bcTable)
  rw [State.sourceResult, State.message, bc, radix', tl, tr, len', c.message]
  exact source_decrypt_encrypt h2 h36 (by rw [State.message_length]; omega)
    (State.charsOk_iff.mp chars)

/-- Settles O46: two whole runs with an accepted write between them, and the source's decryption
undoes its encryption. -/
theorem decryptAfterEncryptGivesLowercase : Obligations.DecryptAfterEncryptGivesLowercase := by
  intro s ts p hr hc turns hp
  obtain ⟨t₁, run₁, c₁⟩ := runSteps_command (d := .encrypt) hr hc turns
  obtain ⟨⟨-, len, -⟩, -, program, -⟩ := State.runFrame_eq c₁.frame
  have write : step t₁ = .next ((t₁.withHost (commandTurns ++ ts) p).accept 2) :=
    (step_cmdWrite c₁.turns (program.trans hp)).trans
      (State.cmdWrite_idle (by decide) (by exact c₁.fsm))
  have same : SameMessage t₁ ((t₁.withHost (commandTurns ++ ts) p).accept 2) :=
    ⟨rfl, rfl, rfl, rfl, rfl, rfl, rfl⟩
  obtain ⟨t₂, run₂, c₂⟩ := runSteps_command (d := .decrypt) (ts := ts)
    (c₁.ready_again hr same rfl) rfl rfl
  obtain ⟨-, -, program₂, -, -, err, errcode⟩ := State.runFrame_eq c₂.frame
  refine ⟨t₂, (runSteps_add (k := 26) run₁).trans ((runSteps_of_step write).trans run₂),
    fun k hk => ?message, fun k hk => ?beyond, c₂.done, err, errcode, c₂.fsm, c₂.turns, program₂⟩
  all_goals rw [← len] at hk
  case message =>
    obtain ⟨_, byte⟩ := c₂.msgByte hk
    rw [byte]
    simp only [same.sourceResult, c₁.sourceResult_decrypt hr, List.getElem_map, State.message,
      State.msgString_getElem, Nat.zero_add]
  case beyond =>
    exact (c₂.beyond k hk).trans (c₁.beyond k (by rwa [← len]))

end Sys2Proof.Machine
end

section
/-! PROOF. Exceptions and the interrupt (60_exceptions.md R210, R217, R218, R223): what stops the
machine, what moves the level `irq`, and what no read reveals. -/

namespace Sys2Proof.Machine

variable {s t : State}

/-! ### What stops the machine -/

/-- Settles O14: the engine, the BC and the reset input always answer, and the host's turn faults
only on an illegal first entry. -/
theorem onlyBusErrorsStop : Obligations.OnlyBusErrorsStop := by
  intro s
  obtain ⟨turn, s0, hstep, hturn, ts, n, rfl⟩ := step_cases s
  rw [hstep]
  cases turn with
  | engine =>
    obtain ⟨t, answer, -⟩ := engineTurn_move (s.setTurns ts n)
    exact .inl ⟨t, answer⟩
  | bc => exact .inl ⟨_, rfl⟩
  | reset => exact .inl ⟨_, rfl⟩
  | host =>
    obtain stay | ⟨op, p, hp, illegal, off, fault⟩ | ⟨-, -, -, t, -, -, -, answer⟩ :=
      hostTurn_cases (s.setTurns ts n)
    · exact .inl ⟨_, stay⟩
    · exact .inr ⟨off, op, p, fault, hturn, hp, illegal⟩
    · exact .inl ⟨t, answer⟩

/-! ### The level `irq` -/

theorem State.irq_iff : s.irq = true ↔ s.irqen = true ∧ s.done = true := Bool.and_eq_true_iff

/-- A level that is 0 over a DONE that is 1 is masked by IRQEN.EN (60_exceptions.md R218). -/
theorem State.irqen_eq_false (low : s.irq = false) (done : s.done = true) : s.irqen = false := by
  simpa [State.irq, done] using low

/-- IRQEN reads EN in bit 0 (10_state.md R34). -/
theorem State.memRead_irqen_bit (s : State) : (s.memRead 0x008).getLsbD 0 = s.irqen := by
  have : s.memRead 0x008 = BitVec.setWidth 32 (BitVec.ofBool s.irqen) := rfl
  rw [this]
  cases s.irqen <;> rfl

/-- Writing 1 to DONE clears the level (60_exceptions.md R218). -/
theorem State.clearStatus_irq {w : Word} (hw : w.getLsbD 1 = true) :
    (s.clearStatus w).irq = false := by
  simp [State.irq, -BitVec.getLsbD_eq_getElem, hw]

/-- The acceptance of a command clears the level (40_control.md R121). -/
theorem State.accept_irq (w : Word) : (s.accept w).irq = false := Bool.and_false _

/-! ### DONE and IRQEN.EN, move by move -/

/-- An advance commits, which completes the command, or goes on to the next round
(42_feistel_engine.md R180). -/
theorem State.advance_completes_or_keeps (s : State) (last next : BitVec 3) :
    let t := s.advance last next
    t.fsm = .idle ∧ t.done = true ∨ t.fsm ≠ .idle ∧ t.done = s.done := by
  unfold State.advance
  split
  · exact .inl ⟨rfl, rfl⟩
  · exact .inr ⟨nofun, rfl⟩

/-- A move of the engine that ends a command sets DONE, successful or not; every other move leaves
DONE alone and ends no command (40_control.md R127, R128). -/
theorem EngineMove.completes_or_keeps (m : EngineMove s t) :
    s.fsm ≠ .idle ∧ t.fsm = .idle ∧ t.done = true ∨
      (s.fsm ≠ .idle → t.fsm ≠ .idle) ∧ t.done = s.done := by
  cases m with
  | stay => exact .inr ⟨id, rfl⟩
  | fails | str2int | int2str => exact .inl ⟨by simp [‹s.fsm = .check›], rfl, rfl⟩
  | startEncrypt | startDecrypt | issueEncrypt | issueDecrypt => exact .inr ⟨nofun, rfl⟩
  | roundEncrypt | roundDecrypt =>
    obtain ⟨idle, done⟩ | ⟨busy, done⟩ := State.advance_completes_or_keeps _ _ _
    · exact .inl ⟨by simp [‹s.fsm = .wait›], idle, done⟩
    · exact .inr ⟨fun _ => busy, done⟩

@[simp] theorem State.advance_irqen (s : State) (last next : BitVec 3) :
    (s.advance last next).irqen = s.irqen := by
  unfold State.advance
  split <;> rfl

/-- No move of the engine touches IRQEN. -/
theorem EngineMove.irqen (m : EngineMove s t) : t.irqen = s.irqen := by
  cases m with
  | roundEncrypt | roundDecrypt => exact State.advance_irqen _ _ _
  | _ => rfl

/-- No host write sets DONE (10_state.md R33). -/
theorem WriteMove.done_of_done (m : WriteMove s t) (done : t.done = true) : s.done = true := by
  cases m with
  | accepted => cases done
  | status w => exact (Bool.and_eq_true_iff.mp done).1
  | _ => exact done

@[simp] theorem bcTurn_irq (s : State) : (bcTurn s).irq = s.irq := by
  obtain ⟨x, -, h⟩ | ⟨-, h⟩ := bcTurn_cases s <;> rw [h]
  rfl

/-- Settles O52: every completion of the engine sets DONE, and each of the three writes clears one
of the two bits. -/
theorem irqIsEnableAndDone : Obligations.IrqIsEnableAndDone := by
  intro s
  refine ⟨?level, fun t turn busy idle => ?completion,
    fun w hw => ⟨_, rfl, State.clearStatus_irq hw⟩,
    fun w hw idle => ⟨_, State.cmdWrite_idle hw idle, State.accept_irq w⟩, fun w hw => ?mask⟩
  case level =>
    obtain ⟨-, done, -⟩ := s.statusWord_bits
    rw [s.memRead_irqen_bit, s.memRead_status, done, State.irq]
  case completion =>
    obtain ⟨t', answer, move⟩ := engineTurn_move s
    cases answer.symm.trans turn
    obtain ⟨-, -, done⟩ | ⟨keeps, -⟩ := move.completes_or_keeps
    · exact done
    · exact absurd idle (keeps busy)
  case mask =>
    refine ⟨s.setIrqen (w.getLsbD 0), rfl, ?_, rfl⟩
    rw [State.irq, State.setIrqen_irqen, hw, Bool.false_and]

/-- Settles O53: the engine raises the level only by setting DONE, and the host sets no DONE. -/
theorem irqRisesOnlyByCompletionOrEnable : Obligations.IrqRisesOnlyByCompletionOrEnable := by
  intro s t hstep low high
  have changed : t.irq ≠ s.irq := by simp [low, high]
  obtain ⟨enabled, done⟩ := State.irq_iff.mp high
  obtain ⟨ts, n, ⟨turn, engine⟩ | ⟨-, rfl⟩ | ⟨-, rfl⟩ | ⟨turn, rfl | ⟨-, p, rs, -, -, write⟩⟩⟩ :=
    step_inv hstep
  · obtain ⟨busy, idle, -⟩ | ⟨-, same⟩ := engine.completes_or_keeps
    · exact .inl ⟨turn, busy, idle, engine.irqen⟩
    · exact absurd (congrArg₂ and engine.irqen same) changed
  · exact absurd (bcTurn_irq _) changed
  · cases high
  · exact absurd rfl changed
  · have before : s.done = true := write.done_of_done done
    exact .inr ⟨turn, State.irqen_eq_false low before, enabled, before⟩

/-! ### What reads reveal -/

/-- Settles O22: register by register, no read looks at the accepted word, the halves or the
port. -/
theorem readsRevealNoHalvesOrBlocks : Obligations.ReadsRevealNoHalvesOrBlocks := by
  intro s cmd u v ha hb la lb port off
  refine ⟨?_, rfl⟩
  unfold State.memRead
  cases regAt off with
  | none => rfl
  | some q => cases q <;> rfl

end Sys2Proof.Machine
end

section
/-! PROOF. The reset input and the hazards (70_reset_and_hazards.md R240, R248): what stands after a
reset in any state, and what STATUS shows straight after a CMD write. -/

namespace Sys2Proof.Machine

variable {s : State}

/-! ### The reset input -/

/-- A step on a reset turn resets the block of the state less that turn. -/
theorem step_reset {ts : List Turn} (h : s.turns = .reset :: ts) :
    step s = .next (s.setTurns ts s.ticks).resetBlock :=
  step_of_turns h

/-- Every register but MSG reads as right after reset: only MSG depends on the count of resets
(10_state.md R43). -/
theorem State.readReg_resetBlock (s : State) {q : Reg} (h : ∀ w, q ≠ .msg w) :
    s.resetBlock.readReg q = State.reset.readReg q := by
  cases q with
  | msg w => exact absurd rfl (h w)
  | _ => rfl

/-- No byte of MSG is listed after a reset, so each is the draw of the new reset (10_state.md
R43). -/
theorem State.msgByte_resetBlock (s : State) (k : Nat) :
    s.resetBlock.msgByte k = Config.msgInit (s.draws + 1) k := by
  rw [State.msgByte, State.resetBlock_msg, State.resetBlock_draws]
  rfl

/-- Settles O9: the block is as right after reset but for the draw of MSG, and what stands around it
is not touched. -/
theorem resetInputClearsTheBlock : Obligations.ResetInputClearsTheBlock := by
  intro s ts hturn
  refine ⟨_, step_reset hturn, fun q hq => ?registers, State.msgByte_resetBlock _, ?rest⟩
  case registers => rw [State.memRead_offset, State.readReg_resetBlock _ hq, readReg_reset hq]
  case rest => exact ⟨rfl, rfl, rfl, rfl, rfl, rfl, rfl, rfl, rfl, rfl, rfl, rfl, rfl, rfl, rfl⟩

/-! ### STATUS straight after a CMD write -/

/-- Acceptance leaves the engine in CHECK (40_control.md R121). -/
theorem State.accept_busy (s : State) (w : Word) : (s.accept w).busy = true := rfl

/-- Settles O26: STATUS shows the flags and the code that acceptance has cleared. -/
theorem acceptedCommandReadsBusyNotDone : Obligations.AcceptedCommandReadsBusyNotDone := by
  intro s w hw hf
  obtain ⟨busy, done, err, -⟩ := (s.accept w).statusWord_bits
  obtain ⟨-, errcode, -⟩ := (s.accept w).statusWord_fields
  refine ⟨s.accept w, State.cmdWrite_idle hw hf, ?_⟩
  rw [State.memRead_status]
  exact ⟨busy.trans (s.accept_busy w), done, err, errcode⟩

end Sys2Proof.Machine
end
